-- ==== Sys2Proof/Word.lean ====
section
/-! DEFINITION. The word types of the primefields CORE: 64-bit words, bytes of the packed buffer, the
register numbers and the immediate of a command word (spec 00_scope.md R14, 30_encoding.md R101). -/

namespace Sys2Proof

/-- A 64-bit word (R14): a digit of a vector register, a scalar register, a command word. -/
abbrev Word := BitVec 64

/-- One byte of the packed buffer PB (10_state.md R46). -/
abbrev Byte := BitVec 8

/-- A vector register number, a 4-bit field of the command word (R101). -/
abbrev Reg := BitVec 4

/-- The 32-bit immediate field of the command word (R101, R102). -/
abbrev Imm := BitVec 32

/-- A digit vector: the words of one vector register, digit 0 first (10_state.md R30, R31). -/
abbrev DigitVec := List Word

end Sys2Proof
end

