-- ==== Sys2Proof/Config.lean ====
section
/-! DEFINITION. What an instance of the primefields CORE is built with: the choice of the prime (FIELD),
and the OPEN parameters of the spec (00_scope.md R13; 92_eei_decisions.md section 2). An OPEN parameter is
an opaque constant without a body: nothing in Lean can evaluate it, so a claim holds for every admissible
value of it. -/

namespace Sys2Proof

/-- The five rows of the parameter table (00_scope.md R7), in the order of FIELD_ID. -/
inductive FieldId
  | e130
  | m221
  | curve41417
  | m511
  | e521
deriving DecidableEq, Repr, Inhabited

/-- A parameter tuple `(n, K, W, H, M, c)` (00_scope.md R7, R11): the bit count, the digit count, the digit
width, the top digit's width, the half-digit width, and the constant `c` of `p = 2^n - c`. -/
structure FieldTuple where
  n : Nat
  K : Nat
  W : Nat
  H : Nat
  M : Nat
  c : Nat
deriving DecidableEq, Repr, Inhabited

/-- The field an instance is built for: a row of the table (R7) or a generic tuple (R11). -/
inductive Field
  | table (row : FieldId)
  | generic (tuple : FieldTuple)
deriving DecidableEq, Repr, Inhabited

/-- The square-root class of a prime (00_scope.md R10, R11): class 0 is `p ≡ 3 (mod 4)`, class 1 is
`p ≡ 5 (mod 8)`, and a prime of neither class has no square-root formula. -/
inductive SqrtClass
  | class0
  | class1
  | neither
deriving DecidableEq, Repr, Inhabited

/-- A signed scalar result -1, 0 or +1 (45_sqrt_engine.md R214, R219). -/
inductive Sign3
  | minusOne
  | zero
  | plusOne
deriving DecidableEq, Repr, Inhabited

/-- The 29 operations of the opcode map (30_encoding.md R105), without their operands: what the latency of a
command and its applicability depend on (70_reset_and_hazards.md R361, 30_encoding.md R108). -/
inductive Op
  | add | sub | adds | neg
  | mul | muls | sqr
  | norm
  | inv | div
  | sqrt | isqrt | leg | legq
  | pack | npack | unpack
  | mov | ldi | eq | eqn | sign | signn | bit | bitn | abs | mask | masks | or
deriving DecidableEq, Repr, Inhabited

namespace Config

/-- FIELD of the instance that `State.reset` is the reset state of: one row of the table, fixed at build time
(00_scope.md R4, R7), and no particular one. DESIGN CHOICE (log entry 1), safe. -/
opaque instanceField : FieldId

/-- `LAT(op, FIELD)`, in ticks (70_reset_and_hazards.md R360, R361): OPEN, a function of the operation and the
field only. Log entry 2, safe. -/
opaque lat : Op → Field → Nat

/-- `LEG_ZERO` (45_sqrt_engine.md R214): OPEN, a constant of the instance, one of -1, 0, +1. Log entry 3, safe. -/
opaque legZero : Field → Sign3

/-- `LEGQ_OTHER(a)` (R219): OPEN, a function of `a` in the instance's field, one of -1, 0, +1. Log entry 4, safe. -/
opaque legqOther : Field → Nat → Sign3

/-- `SQRT_NONRES(a)` (R205) before it is brought into `[0, p)`: OPEN. Log entry 5, safe. -/
opaque sqrtNonres : Field → Nat → Nat

/-- `ISQRT_NONRES(a)` (R209) before it is brought into `[0, p)`: OPEN. Log entry 6, safe. -/
opaque isqrtNonres : Field → Nat → Nat

/-- `BUSY_READ(addr)` (70_reset_and_hazards.md R352): OPEN, a free draw for each read; the first argument is the
number of the draw. Log entry 7, safe. -/
opaque busyRead : Nat → BitVec 16 → Word

/-- The contents a completed command leaves in the scratch vectors S0 to S2 (10_state.md R50: unspecified): the
number of the draw, the scratch vector, the digit. Log entry 8, safe. -/
opaque scratchWord : Nat → Nat → Nat → Word

end Config

end Sys2Proof
end

