-- ==== Sys2Proof/Syntax.lean ====
section
/-! DEFINITION. The command set PFCORE-CMD v1: one constructor per row of the opcode map
(30_encoding.md R105), with the operand fields of the row's format (R103) in the assembler's order (R111). -/

namespace Sys2Proof

/-- A command. The register operands are `vd`, `va`, `vb` in this order, then the immediate (R103). -/
inductive Instr
  | add (vd va vb : Reg)
  | sub (vd va vb : Reg)
  | adds (vd va : Reg) (imm : Imm)
  | neg (vd va : Reg)
  | mul (vd va vb : Reg)
  | muls (vd va : Reg) (imm : Imm)
  | sqr (vd va : Reg)
  | norm (vd va : Reg)
  | inv (vd va : Reg)
  | div (vd va vb : Reg)
  | sqrt (vd va : Reg)
  | isqrt (vd va : Reg)
  | leg (va : Reg)
  | legq (va : Reg)
  | pack (va : Reg)
  | npack (va : Reg)
  | unpack (vd : Reg)
  | mov (vd va : Reg)
  | ldi (vd : Reg) (imm : Imm)
  | eq (va vb : Reg)
  | eqn (va vb : Reg)
  | sign (va : Reg)
  | signn (va : Reg)
  | bit (va : Reg) (imm : Imm)
  | bitn (va : Reg) (imm : Imm)
  | abs (vd va : Reg)
  | mask (vd va : Reg) (imm : Imm)
  | masks (vd va : Reg)
  | or (vd va vb : Reg)
deriving DecidableEq, Repr

/-- The operation of a command, its row of the opcode map (R105). -/
def Instr.op : Instr → Op
  | .add _ _ _ => .add
  | .sub _ _ _ => .sub
  | .adds _ _ _ => .adds
  | .neg _ _ => .neg
  | .mul _ _ _ => .mul
  | .muls _ _ _ => .muls
  | .sqr _ _ => .sqr
  | .norm _ _ => .norm
  | .inv _ _ => .inv
  | .div _ _ _ => .div
  | .sqrt _ _ => .sqrt
  | .isqrt _ _ => .isqrt
  | .leg _ => .leg
  | .legq _ => .legq
  | .pack _ => .pack
  | .npack _ => .npack
  | .unpack _ => .unpack
  | .mov _ _ => .mov
  | .ldi _ _ => .ldi
  | .eq _ _ => .eq
  | .eqn _ _ => .eqn
  | .sign _ => .sign
  | .signn _ => .signn
  | .bit _ _ => .bit
  | .bitn _ _ => .bitn
  | .abs _ _ => .abs
  | .mask _ _ _ => .mask
  | .masks _ _ => .masks
  | .or _ _ _ => .or

end Sys2Proof
end

