-- ==== Sys2Proof/WellFormed.lean ====
section
/-! DEFINITION. The check a command must pass beyond the types of its operands. A register field of 4 bits
always names an existing register (30_encoding.md R101) and a 32-bit immediate is always in range (R102), so the
one check left is the MASK immediate (R104). -/

namespace Sys2Proof

/-- A MASK immediate must be 0 or 1 (30_encoding.md R102 (c), R104). -/
def maskImmOk (imm : Imm) : Bool := imm == 0#32 || imm == 1#32

/-- The well-formed commands: those some command word stands for. -/
def Instr.wellFormed : Instr → Bool
  | .mask _ _ imm => maskImmOk imm
  | .add _ _ _ | .sub _ _ _ | .adds _ _ _ | .neg _ _ | .mul _ _ _ | .muls _ _ _ | .sqr _ _ | .norm _ _
  | .inv _ _ | .div _ _ _ | .sqrt _ _ | .isqrt _ _ | .leg _ | .legq _ | .pack _ | .npack _ | .unpack _
  | .mov _ _ | .ldi _ _ | .eq _ _ | .eqn _ _ | .sign _ | .signn _ | .bit _ _ | .bitn _ _ | .abs _ _
  | .masks _ _ | .or _ _ _ => true

end Sys2Proof
end

