-- ==== Sys2Proof/Decode.lean ====
section
/-! DEFINITION. The 64-bit command word: its fields, its decoding, total on every word and rejecting by name
(30_encoding.md R100 to R110), and the encoding function (R112). A command word reaches the unit whole, in one host
write to CMD (R100), so a word has no byte order here. -/

namespace Sys2Proof

/-- Why a command word is refused at decode (30_encoding.md R109). The third decode error, NOT_APPLICABLE, depends on
FIELD and is raised at the applicability check (R108; `Sys2Proof.Machine.State.issue`). -/
inductive DecodeError
  | illegalOpcode
  | reservedField
deriving DecidableEq, Repr

/-- The operand formats (R103): which of the fields VD, VA, VB and IMM a command uses. -/
inductive Format
  | rrr | rri | rr | ri | rd | sa | sab | sai
deriving DecidableEq, Repr

/-- A row's fixed bits (R105): `w` is the row's command when `w &&& mask = value`. -/
structure FixedBits where
  value : Word
  mask : Word
deriving DecidableEq, Repr

/-- OPC, bits 7:0 (R101). -/
def opcField (w : Word) : BitVec 8 := w.extractLsb' 0 8

/-- VD, bits 11:8 (R101). -/
def vdField (w : Word) : Reg := w.extractLsb' 8 4

/-- VA, bits 15:12 (R101). -/
def vaField (w : Word) : Reg := w.extractLsb' 12 4

/-- VB, bits 19:16 (R101). -/
def vbField (w : Word) : Reg := w.extractLsb' 16 4

/-- RSV, bits 31:20 (R101). -/
def rsvField (w : Word) : BitVec 12 := w.extractLsb' 20 12

/-- IMM, bits 63:32 (R101). -/
def immField (w : Word) : Imm := w.extractLsb' 32 32

/-- Every row of the opcode map, in the table's order (R105). -/
def Op.all : List Op :=
  [.add, .sub, .adds, .neg, .mul, .muls, .sqr, .norm, .inv, .div, .sqrt, .isqrt, .leg, .legq,
   .pack, .npack, .unpack, .mov, .ldi, .eq, .eqn, .sign, .signn, .bit, .bitn, .abs, .mask, .masks, .or]

/-- OPC of each row (R105). -/
def Op.code : Op → BitVec 8
  | .add => 0x10#8
  | .sub => 0x11#8
  | .adds => 0x12#8
  | .neg => 0x13#8
  | .mul => 0x20#8
  | .muls => 0x21#8
  | .sqr => 0x22#8
  | .norm => 0x30#8
  | .inv => 0x40#8
  | .div => 0x41#8
  | .sqrt => 0x48#8
  | .isqrt => 0x49#8
  | .leg => 0x4a#8
  | .legq => 0x4b#8
  | .pack => 0x50#8
  | .npack => 0x51#8
  | .unpack => 0x52#8
  | .mov => 0x60#8
  | .ldi => 0x61#8
  | .eq => 0x62#8
  | .eqn => 0x63#8
  | .sign => 0x64#8
  | .signn => 0x65#8
  | .bit => 0x66#8
  | .bitn => 0x67#8
  | .abs => 0x68#8
  | .mask => 0x69#8
  | .masks => 0x6a#8
  | .or => 0x6b#8

/-- The format of each row (R105). -/
def Op.format : Op → Format
  | .add => .rrr
  | .sub => .rrr
  | .adds => .rri
  | .neg => .rr
  | .mul => .rrr
  | .muls => .rri
  | .sqr => .rr
  | .norm => .rr
  | .inv => .rr
  | .div => .rrr
  | .sqrt => .rr
  | .isqrt => .rr
  | .leg => .sa
  | .legq => .sa
  | .pack => .sa
  | .npack => .sa
  | .unpack => .rd
  | .mov => .rr
  | .ldi => .ri
  | .eq => .sab
  | .eqn => .sab
  | .sign => .sa
  | .signn => .sa
  | .bit => .sai
  | .bitn => .sai
  | .abs => .rr
  | .mask => .rri
  | .masks => .rr
  | .or => .rrr

/-- The fixed bits of each row, as the table's columns `match` and `mask` give them (R105). Decoding does not use
them: an obligation compares the decoder with them. -/
def Op.fixedBits : Op → FixedBits
  | .add => ⟨0x0000000000000010#64, 0xfffffffffff000ff#64⟩
  | .sub => ⟨0x0000000000000011#64, 0xfffffffffff000ff#64⟩
  | .adds => ⟨0x0000000000000012#64, 0x00000000ffff00ff#64⟩
  | .neg => ⟨0x0000000000000013#64, 0xffffffffffff00ff#64⟩
  | .mul => ⟨0x0000000000000020#64, 0xfffffffffff000ff#64⟩
  | .muls => ⟨0x0000000000000021#64, 0x00000000ffff00ff#64⟩
  | .sqr => ⟨0x0000000000000022#64, 0xffffffffffff00ff#64⟩
  | .norm => ⟨0x0000000000000030#64, 0xffffffffffff00ff#64⟩
  | .inv => ⟨0x0000000000000040#64, 0xffffffffffff00ff#64⟩
  | .div => ⟨0x0000000000000041#64, 0xfffffffffff000ff#64⟩
  | .sqrt => ⟨0x0000000000000048#64, 0xffffffffffff00ff#64⟩
  | .isqrt => ⟨0x0000000000000049#64, 0xffffffffffff00ff#64⟩
  | .leg => ⟨0x000000000000004a#64, 0xffffffffffff0fff#64⟩
  | .legq => ⟨0x000000000000004b#64, 0xffffffffffff0fff#64⟩
  | .pack => ⟨0x0000000000000050#64, 0xffffffffffff0fff#64⟩
  | .npack => ⟨0x0000000000000051#64, 0xffffffffffff0fff#64⟩
  | .unpack => ⟨0x0000000000000052#64, 0xfffffffffffff0ff#64⟩
  | .mov => ⟨0x0000000000000060#64, 0xffffffffffff00ff#64⟩
  | .ldi => ⟨0x0000000000000061#64, 0x00000000fffff0ff#64⟩
  | .eq => ⟨0x0000000000000062#64, 0xfffffffffff00fff#64⟩
  | .eqn => ⟨0x0000000000000063#64, 0xfffffffffff00fff#64⟩
  | .sign => ⟨0x0000000000000064#64, 0xffffffffffff0fff#64⟩
  | .signn => ⟨0x0000000000000065#64, 0xffffffffffff0fff#64⟩
  | .bit => ⟨0x0000000000000066#64, 0x00000000ffff0fff#64⟩
  | .bitn => ⟨0x0000000000000067#64, 0x00000000ffff0fff#64⟩
  | .abs => ⟨0x0000000000000068#64, 0xffffffffffff00ff#64⟩
  | .mask => ⟨0x0000000000000069#64, 0xfffffffeffff00ff#64⟩
  | .masks => ⟨0x000000000000006a#64, 0xffffffffffff00ff#64⟩
  | .or => ⟨0x000000000000006b#64, 0xfffffffffff000ff#64⟩

/-- The row whose opcode is `c`, if there is one (R105, R106). -/
def Op.ofCode (c : BitVec 8) : Option Op := Op.all.find? fun o => o.code == c

/-- Does the format use VD? (R103) -/
def Format.usesVd : Format → Bool
  | .rrr | .rri | .rr | .ri | .rd => true
  | .sa | .sab | .sai => false

/-- Does the format use VA? (R103) -/
def Format.usesVa : Format → Bool
  | .rrr | .rri | .rr | .sa | .sab | .sai => true
  | .ri | .rd => false

/-- Does the format use VB? (R103) -/
def Format.usesVb : Format → Bool
  | .rrr | .sab => true
  | .rri | .rr | .ri | .rd | .sa | .sai => false

/-- Does the format use IMM? (R103) -/
def Format.usesImm : Format → Bool
  | .rri | .ri | .sai => true
  | .rrr | .rr | .rd | .sa | .sab => false

/-- RSV is 0, and so is every field the format does not use (R103, R104). -/
def Format.unusedZero (f : Format) (w : Word) : Bool :=
  rsvField w == 0 && (f.usesVd || vdField w == 0) && (f.usesVa || vaField w == 0) &&
    (f.usesVb || vbField w == 0) && (f.usesImm || immField w == 0)

/-- The command an operation and the fields of a word stand for (R103). -/
def Op.instr (w : Word) : Op → Instr
  | .add => .add (vdField w) (vaField w) (vbField w)
  | .sub => .sub (vdField w) (vaField w) (vbField w)
  | .adds => .adds (vdField w) (vaField w) (immField w)
  | .neg => .neg (vdField w) (vaField w)
  | .mul => .mul (vdField w) (vaField w) (vbField w)
  | .muls => .muls (vdField w) (vaField w) (immField w)
  | .sqr => .sqr (vdField w) (vaField w)
  | .norm => .norm (vdField w) (vaField w)
  | .inv => .inv (vdField w) (vaField w)
  | .div => .div (vdField w) (vaField w) (vbField w)
  | .sqrt => .sqrt (vdField w) (vaField w)
  | .isqrt => .isqrt (vdField w) (vaField w)
  | .leg => .leg (vaField w)
  | .legq => .legq (vaField w)
  | .pack => .pack (vaField w)
  | .npack => .npack (vaField w)
  | .unpack => .unpack (vdField w)
  | .mov => .mov (vdField w) (vaField w)
  | .ldi => .ldi (vdField w) (immField w)
  | .eq => .eq (vaField w) (vbField w)
  | .eqn => .eqn (vaField w) (vbField w)
  | .sign => .sign (vaField w)
  | .signn => .signn (vaField w)
  | .bit => .bit (vaField w) (immField w)
  | .bitn => .bitn (vaField w) (immField w)
  | .abs => .abs (vdField w) (vaField w)
  | .mask => .mask (vdField w) (vaField w) (immField w)
  | .masks => .masks (vdField w) (vaField w)
  | .or => .or (vdField w) (vaField w) (vbField w)

/-- Decoding of a command word (R109): ILLEGAL_OPCODE first, then RESERVED_FIELD, which also covers a MASK whose
immediate is neither 0 nor 1 (R104). -/
def decode (w : Word) : Except DecodeError Instr :=
  match Op.ofCode (opcField w) with
  | none => .error .illegalOpcode
  | some op =>
    if op.format.unusedZero w && (op.instr w).wellFormed then .ok (op.instr w)
    else .error .reservedField

/-- `enc(OPC, vd, va, vb, imm)` (R112): the fields at their places, RSV 0. -/
def encodeFields (opc : BitVec 8) (vd va vb : Reg) (imm : Imm) : Word :=
  imm ++ 0#12 ++ vb ++ va ++ vd ++ opc

/-- The command word of a command (R112), with every field its format does not use 0. -/
def encode : Instr → Word
  | .add vd va vb => encodeFields (Op.code .add) vd va vb 0
  | .sub vd va vb => encodeFields (Op.code .sub) vd va vb 0
  | .adds vd va imm => encodeFields (Op.code .adds) vd va 0 imm
  | .neg vd va => encodeFields (Op.code .neg) vd va 0 0
  | .mul vd va vb => encodeFields (Op.code .mul) vd va vb 0
  | .muls vd va imm => encodeFields (Op.code .muls) vd va 0 imm
  | .sqr vd va => encodeFields (Op.code .sqr) vd va 0 0
  | .norm vd va => encodeFields (Op.code .norm) vd va 0 0
  | .inv vd va => encodeFields (Op.code .inv) vd va 0 0
  | .div vd va vb => encodeFields (Op.code .div) vd va vb 0
  | .sqrt vd va => encodeFields (Op.code .sqrt) vd va 0 0
  | .isqrt vd va => encodeFields (Op.code .isqrt) vd va 0 0
  | .leg va => encodeFields (Op.code .leg) 0 va 0 0
  | .legq va => encodeFields (Op.code .legq) 0 va 0 0
  | .pack va => encodeFields (Op.code .pack) 0 va 0 0
  | .npack va => encodeFields (Op.code .npack) 0 va 0 0
  | .unpack vd => encodeFields (Op.code .unpack) vd 0 0 0
  | .mov vd va => encodeFields (Op.code .mov) vd va 0 0
  | .ldi vd imm => encodeFields (Op.code .ldi) vd 0 0 imm
  | .eq va vb => encodeFields (Op.code .eq) 0 va vb 0
  | .eqn va vb => encodeFields (Op.code .eqn) 0 va vb 0
  | .sign va => encodeFields (Op.code .sign) 0 va 0 0
  | .signn va => encodeFields (Op.code .signn) 0 va 0 0
  | .bit va imm => encodeFields (Op.code .bit) 0 va 0 imm
  | .bitn va imm => encodeFields (Op.code .bitn) 0 va 0 imm
  | .abs vd va => encodeFields (Op.code .abs) vd va 0 0
  | .mask vd va imm => encodeFields (Op.code .mask) vd va 0 imm
  | .masks vd va => encodeFields (Op.code .masks) vd va 0 0
  | .or vd va vb => encodeFields (Op.code .or) vd va vb 0

/-! ### Pseudo-instructions (R113), each one command -/

/-- `LDZ vd`: load zero. -/
def Instr.ldz (vd : Reg) : Instr := .ldi vd 0

/-- `LDONE vd`: load one. -/
def Instr.ldone (vd : Reg) : Instr := .ldi vd 1

/-- `LDMONE vd`: load minus one. -/
def Instr.ldmone (vd : Reg) : Instr := .ldi vd (BitVec.ofInt 32 (-1))

/-- `SUBS vd, va, s`: subtract a small integer, for `s` in `[-2^31+1, 2^31]`. -/
def Instr.subs (vd va : Reg) (s : Int) : Instr := .adds vd va (BitVec.ofInt 32 (-s))

/-- `CLONE vd, va`: copy. -/
def Instr.clone (vd va : Reg) : Instr := .mov vd va

/-- `SQRM vd, va`: square through the multiplier. -/
def Instr.sqrm (vd va : Reg) : Instr := .mul vd va va

/-! ### The opcode table's words -/

/-- The command the decoder reads from a table row's word: the low `nbits` bits of `w`, the bits above them 0. The
command word is one 64-bit word (R100), written to CMD as it is. -/
def decodeTableWord (nbits w : Nat) : Option Instr :=
  match decode (BitVec.ofNat 64 (w % 2 ^ nbits)) with
  | .ok i => some i
  | .error _ => none

end Sys2Proof
end

