-- ==== Sys2Proof/Machine/Field.lean ====
section
/-! DEFINITION. The parameters of a field: the table of 00_scope.md R7, the constants derived from it (R9, R10,
10_state.md R43, R44), the admissible generic tuples (R11), and the constant store (10_state.md R51 to R54). -/

namespace Sys2Proof

/-- The parameter table (R7). -/
def FieldId.tuple : FieldId → FieldTuple
  | .e130 => { n := 130, K := 3, W := 58, H := 14, M := 29, c := 5 }
  | .m221 => { n := 221, K := 4, W := 58, H := 47, M := 29, c := 3 }
  | .curve41417 => { n := 414, K := 8, W := 56, H := 22, M := 28, c := 17 }
  | .m511 => { n := 511, K := 10, W := 54, H := 25, M := 27, c := 187 }
  | .e521 => { n := 521, K := 10, W := 54, H := 35, M := 27, c := 1 }

/-- The parameters of a field (R7, R11). -/
def Field.tuple : Field → FieldTuple
  | .table r => r.tuple
  | .generic t => t

/-- The bit count `n` (R7). -/
def Field.n (f : Field) : Nat := f.tuple.n

/-- The digit count `K` (R7). -/
def Field.K (f : Field) : Nat := f.tuple.K

/-- The digit width `W`, DIGIT_BITS (R7). -/
def Field.W (f : Field) : Nat := f.tuple.W

/-- The top digit's width `H`, HIGH_DIGIT_BITS (R7). -/
def Field.H (f : Field) : Nat := f.tuple.H

/-- The half-digit width `M`, MUL_DIGIT_BITS (R7). -/
def Field.M (f : Field) : Nat := f.tuple.M

/-- The constant `c`, C_VAL (R7, R9). -/
def Field.c (f : Field) : Nat := f.tuple.c

/-- The prime `p = 2^n - c` (R4, R7). -/
def Field.p (f : Field) : Nat := 2 ^ f.n - f.c

/-- PACKED_BYTES `= ceil(n/8)` (R9). -/
def Field.packedBytes (f : Field) : Nat := (f.n + 7) / 8

/-- DIGIT_MASK `= 2^W - 1` (R9). -/
def Field.digitMask (f : Field) : Nat := 2 ^ f.W - 1

/-- HIGH_DIGIT_MASK `= 2^H - 1` (R9). -/
def Field.highDigitMask (f : Field) : Nat := 2 ^ f.H - 1

/-- FIELD_ID (R7): the row's number, 0xFF for a generic tuple (10_state.md R44). -/
def Field.idByte : Field → BitVec 8
  | .table .e130 => 0
  | .table .m221 => 1
  | .table .curve41417 => 2
  | .table .m511 => 3
  | .table .e521 => 4
  | .generic _ => 0xff

/-- SQRT_CLASS (R10, R11). -/
def Field.sqrtClass (f : Field) : SqrtClass :=
  if f.p % 4 = 3 then .class0 else if f.p % 8 = 5 then .class1 else .neither

/-- SQRT_CLASS as ID1 holds it, 0xFF where the field has no square-root class (10_state.md R44). -/
def SqrtClass.byte : SqrtClass → BitVec 8
  | .class0 => 0
  | .class1 => 1
  | .neither => 0xff

/-- Which operations the field has (30_encoding.md R108): LEGQ only in class 1, SQRT and ISQRT in classes 0 and 1,
every other operation in every field. -/
def Field.hasOp (f : Field) : Op → Bool
  | .legq => f.sqrtClass == .class1
  | .sqrt | .isqrt => f.sqrtClass != .neither
  | .add | .sub | .adds | .neg | .mul | .muls | .sqr | .norm | .inv | .div | .leg | .pack | .npack | .unpack
  | .mov | .ldi | .eq | .eqn | .sign | .signn | .bit | .bitn | .abs | .mask | .masks | .or => true

/-- The identities every parameter tuple satisfies (R8, R11), but for the primality of `p`. The spec does not say whether
`M = W/2` asks for an even `W` or takes the floor: the model takes the floor and admits an odd `W` in a generic tuple.
DESIGN CHOICE (log entry 20), safe but for a claim about ID0 there. -/
def Field.shapeOk (f : Field) : Bool :=
  f.n == f.W * (f.K - 1) + f.H && decide (0 < f.H) && decide (f.H ≤ f.W) && f.M == f.W / 2 &&
    decide (1 ≤ f.c) && decide (f.c < 2 ^ f.W) && decide (2 ≤ f.K) && decide (f.W ≤ 58)

/-- An admissible field: the identities of R8 and R11, and `p` prime (R4, R11). -/
def Field.Admissible (f : Field) : Prop := f.shapeOk = true ∧ Nat.Prime f.p

/-- Square and multiply on the `fuel` low bits of `e`: `acc * b^e mod p`. -/
def powModLoop (p : Nat) : Nat → Nat → Nat → Nat → Nat
  | 0, _, _, acc => acc
  | fuel + 1, b, e, acc =>
    powModLoop p fuel (b * b % p) (e / 2) (if e % 2 = 1 then acc * b % p else acc)

/-- `a^e mod p`, the value of a fixed addition chain for `e` (44_inverse_engine.md R180: a chain is specified by its
value). `Sys2Proof.powMod_eq` says that this is `a^e % p`. -/
def powMod (p a e : Nat) : Nat := powModLoop p (e.log2 + 1) (a % p) e (1 % p)

/-- `SIGN_CONST`: `(p-1)/2 + c` (10_state.md R51, R52). -/
def Field.signConst (f : Field) : Nat := (f.p - 1) / 2 + f.c

/-- `SQRT_COEFF_M1 = 2^((p-1)/4) mod p` (10_state.md R53), used in class 1 only. -/
def Field.sqrtCoeffM1 (f : Field) : Nat := powMod f.p 2 ((f.p - 1) / 4)

/-- `INV_SQRT_COEFF_M1 = p - SQRT_COEFF_M1` (10_state.md R54). No command depends on it. -/
def Field.invSqrtCoeffM1 (f : Field) : Nat := f.p - f.sqrtCoeffM1

/-- ID0 (10_state.md R43): `M`, `H`, `W`, `K` in a byte each, then `c` and `n` in 16 bits each. The spec is silent on a
generic tuple whose `K`, `c` or `n` is wider than its field: the model keeps the low bits. DESIGN CHOICE (log entry 21),
unsafe in such tuples. -/
def Field.id0 (f : Field) : Word :=
  BitVec.ofNat 8 f.M ++ BitVec.ofNat 8 f.H ++ BitVec.ofNat 8 f.W ++ BitVec.ofNat 8 f.K ++
    BitVec.ofNat 16 f.c ++ BitVec.ofNat 16 f.n

/-- ID1 (10_state.md R44): the command-set version 1, SQRT_CLASS, FIELD_ID, NREG = 16 and PACKED_BYTES. The spec is
silent on a generic tuple whose PACKED_BYTES needs more than 8 bits: the model keeps the low bits. DESIGN CHOICE (log
entry 21), unsafe in such tuples. -/
def Field.id1 (f : Field) : Word :=
  0#16 ++ 1#16 ++ f.sqrtClass.byte ++ f.idByte ++ 16#8 ++ BitVec.ofNat 8 f.packedBytes

end Sys2Proof
end

