-- ==== Sys2Proof/Machine/State.lean ====
section
/-! DEFINITION. The state of the primefields CORE as plain data (10_state.md), its events, its error codes, and the
state after reset (R55). -/

namespace Sys2Proof.Machine

/-- The packed buffer PB (10_state.md R46), the unit's only byte-granular storage (20_memory.md R82): pairs of a byte
number `j` and the byte `PB[j]`, byte numbers strictly rising, no pair with the value an unlisted byte reads as
(`Memory.wf`). -/
abbrev Memory := List Host.Cell

/-- The error codes of STATUS.ECODE (60_exceptions.md R301), less NONE. Raising one is no stop of the machine: it is
recorded in STATUS (R300), so none is a `Fault`. -/
inductive ErrorCode
  | illegalOpcode
  | reservedField
  | notApplicable
  | busyCmd
  | busyAccess
  | badAddress
  | badAccess
  | roWrite
deriving DecidableEq, Repr

/-- The snapshot of a command's source operands, taken at acceptance (10_state.md R48, 60_exceptions.md R310):
`x[va]`, `x[vb]`, bit 0 of SRES, and PB. -/
structure Snapshot where
  a : DigitVec
  b : DigitVec
  sres0 : Bool
  pb : Memory
deriving DecidableEq, Repr

/-- The record of the command in flight (10_state.md R48): the accepted word, the snapshot of its sources, and the
remaining latency in ticks. -/
structure Inflight where
  word : Word
  snap : Snapshot
  remaining : Nat
deriving DecidableEq, Repr

/-- What the outside world does to the unit: a host read or write of the window with its width in bits
(20_memory.md R71), one tick of the unit's clock (70_reset_and_hazards.md R360), and the reset input `rst` (R340). -/
inductive HostEvent
  | read (addr : BitVec 16) (width : Nat)
  | write (addr : BitVec 16) (width : Nat) (data : Word)
  | tick
  | rst
deriving DecidableEq, Repr

/-- What a mapped address of the host window names (20_memory.md R73): a scalar register, word `w` of PBUF, or slot
`j` of vector register `i`. -/
inductive WindowReg
  | id0 | id1 | status | ctrl | cmd | sres | cmdcnt
  | pbuf (w : Nat)
  | vreg (i : Reg) (j : Nat)
deriving DecidableEq, Repr

/-- The state of the unit.
The spec's own state: `field` (FIELD, with the registers ID0 and ID1 and the constant store that it fixes: R4, R43,
R44, R51), `x` (v0 to v15, R30), `pb` (PB, R46), `sres` (SRES, R34), `done`, `err` and `ecode` (STATUS, R36; BUSY is
whether a command is in flight, R48), `ie` (CTRL.IE, R40), `lastcmd` (LASTCMD, R41), `cmdcnt` (CMDCNT, R42),
`inflight` (R48) and `scratch` (S0 to S2, R50).
The model's own: `inputs` (the host's accesses, ticks and resets still to come, in the order they happen, R85),
`readData` (what the last host read returned), `draws` (how many free values have been drawn). -/
structure State where
  field : Field
  x : Vector DigitVec 16
  pb : Memory
  sres : Word
  done : Bool
  err : Bool
  ecode : BitVec 8
  ie : Bool
  lastcmd : Word
  cmdcnt : Word
  inflight : Option Inflight
  scratch : Vector DigitVec 3
  inputs : List HostEvent
  readData : Word
  draws : Nat
deriving DecidableEq, Repr

/-- The faults of the machine: none. The spec stops the unit nowhere: every accepted command completes, every host
access is served, and every error is recorded in STATUS (60_exceptions.md R300, R310; 93_implementation_defined.md:
no behaviour is modelled as stuck). Nothing raises a fault; safe. -/
inductive Fault
deriving DecidableEq, Repr

/-- The refusals of the machine. -/
inductive Refusal
  /-- An arm of `exec` whose instruction has no meaning yet raises it; safe. No arm does. -/
  | notModelled (mnemonic : String)
deriving DecidableEq, Repr

/-- The reset value of every piece of state (R55) in an instance built for `f`: every digit, every byte of PB, SRES,
STATUS, CTRL.IE, LASTCMD and CMDCNT 0, no command in flight. S0 to S2 are unspecified at reset: 0 is the model's
(DESIGN CHOICE, log entry 8). The model's own fields start empty (DESIGN CHOICE, log entries 7 and 9). -/
def State.resetOf (f : Field) : State where
  field := f
  x := Vector.replicate 16 (List.replicate f.K 0)
  pb := []
  sres := 0
  done := false
  err := false
  ecode := 0
  ie := false
  lastcmd := 0
  cmdcnt := 0
  inflight := none
  scratch := Vector.replicate 3 (List.replicate f.K 0)
  inputs := []
  readData := 0
  draws := 0

/-- The machine right after reset, built for one row of the parameter table (R4, R7). DESIGN CHOICE (log entry 1). -/
def State.reset : State := State.resetOf (.table Config.instanceField)

end Sys2Proof.Machine
end

