-- ==== Sys2Proof/Machine/Operands.lean ====
section
/-! DEFINITION. Digit vectors and immediates: the value functions of 00_scope.md (R18 to R23), the adder core
(40_adder.md R120), the weak reduction (43_reducer.md R165), the byte form (46_codec.md R230), and the reading of an
immediate (30_encoding.md R102). All integer arithmetic is exact (R15, R24). -/

namespace Sys2Proof.Machine

/-- Digit `j` of a digit vector, `v[j]` (R16). -/
def digit (v : DigitVec) (j : Nat) : Word := v.getD j 0

/-- The digit vector of `k` digits whose digit `j` is `g j`. -/
def build (k : Nat) (g : Nat → Word) : DigitVec := (List.range k).map g

/-- `s64(v[j])`: the digit read as a signed word (R14, R18). -/
def sdigit (v : DigitVec) (j : Nat) : Int := (digit v j).toInt

/-- `word(z)`: the word whose unsigned value is `z mod 2^64` (R14). -/
def wordOf (z : Int) : Word := BitVec.ofInt 64 z

/-- The sum over the `k` low digits of `s64(v[j]) * 2^(W*j)`. -/
def valLow (W : Nat) (v : DigitVec) : Nat → Int
  | 0 => 0
  | k + 1 => valLow W v k + sdigit v k * 2 ^ (W * k)

/-- `val(v)`: the represented integer (R18). -/
def val (f : Field) (v : DigitVec) : Int := valLow f.W v f.K

/-- `modp(v) = val(v) mod p`: the field element a digit vector represents (R22). -/
def modp (f : Field) (v : DigitVec) : Nat := (val f v % f.p).toNat

/-- `canon(r)` for `0 <= r < 2^n` (R20). -/
def canon (f : Field) (r : Nat) : DigitVec :=
  build f.K fun j =>
    if j < f.K - 1 then BitVec.ofNat 64 (r / 2 ^ (f.W * j) % 2 ^ f.W)
    else BitVec.ofNat 64 (r / 2 ^ (f.W * (f.K - 1)))

/-- `Normalized(v)`: `v = canon(r)` for some `r` with `0 <= r < p` (R21). -/
def Normalized (f : Field) (v : DigitVec) : Prop := ∃ r, r < f.p ∧ v = canon f r

/-- `Carried(v)`: every digit below the top one lies in `[0, 2^W)` (R23). -/
def Carried (f : Field) (v : DigitVec) : Prop :=
  ∀ j, j < f.K - 1 → 0 ≤ sdigit v j ∧ sdigit v j < 2 ^ f.W

/-- The signed carry above the top digit's nominal width, `fdiv(s64(v[K-1]), 2^H)` (R120). -/
def topCarry (f : Field) (v : DigitVec) : Int := sdigit v (f.K - 1) / 2 ^ f.H

/-- `cin` of ADDCORE (R120). -/
def addCin (f : Field) (a b : DigitVec) (sgn : Int) : Int := topCarry f a + sgn * topCarry f b

/-- The carry that enters digit `j` in ADDCORE: `c * cin` at digit 0, then the signed remainder of the digit before
(R120). -/
def addCarry (f : Field) (a b : DigitVec) (sgn : Int) : Nat → Int
  | 0 => f.c * addCin f a b sgn
  | j + 1 => (sdigit a j + sgn * sdigit b j + addCarry f a b sgn j) / 2 ^ f.W

/-- The sum ADDCORE forms in the top digit, where the operands keep their `H` value bits (R120). -/
def addTop (f : Field) (a b : DigitVec) (sgn : Int) : Int :=
  sdigit a (f.K - 1) % 2 ^ f.H + sgn * (sdigit b (f.K - 1) % 2 ^ f.H) + addCarry f a b sgn (f.K - 1)

/-- `ADDCORE(A, B, sgn)` (R120): lower digits masked to `W` bits, the top digit keeps its carry. In some generic tuples
R120 and the laws R121 (c) and (d) of the top word disagree: the sum can leave 64 bits, or, for Carried operands, the
bounds of (d) (`W = 58`, `K = 2`, `H = 1`, `c` near `2^W`). The model follows R120. DEDUCED (log entry 13), unsafe in
such tuples; in the five rows of the table the two agree. -/
def addCore (f : Field) (a b : DigitVec) (sgn : Int) : DigitVec :=
  build f.K fun j =>
    if j < f.K - 1 then wordOf ((sdigit a j + sgn * sdigit b j + addCarry f a b sgn j) % 2 ^ f.W)
    else wordOf (addTop f a b sgn)

/-- The digit vector whose digit 0 is `word(s)` and whose other digits are 0: the small operand of ADDS (R124). -/
def smallVec (f : Field) (s : Int) : DigitVec := build f.K fun j => if j = 0 then wordOf s else 0

/-- One step of the weak reduction: `l + c*h` (R165). -/
def foldOnce (f : Field) (x : Int) : Int := x % 2 ^ f.n + f.c * (x / 2 ^ f.n)

/-- The loop of the weak reduction, at most `fuel` steps of it. -/
def foldLoop (f : Field) : Nat → Int → Int
  | 0, x => x
  | fuel + 1, x => if x < 0 ∨ 2 ^ f.n ≤ x then foldLoop f fuel (foldOnce f x) else x

/-- `fold(x)` (R165). Each step brings `x` nearer to `[0, 2^n)` by at least 1 (R166 (a)), so `|x|` steps are enough
for the loop to end. -/
def fold (f : Field) (x : Int) : Nat := (foldLoop f x.natAbs x).toNat

/-- `MULOUT(x) = canon(fold(x))`: the form of every multiplier and squarer result (41_multiplier.md R140). -/
def mulOut (f : Field) (x : Int) : DigitVec := canon f (fold f x)

/-- Byte `j` of `packint(r)` (46_codec.md R230). -/
def packByte (r j : Nat) : Byte := BitVec.ofNat 8 (r / 2 ^ (8 * j))

/-- The integer of the value bits of each digit, the carry bits dropped (46_codec.md R232), over the `k` low digits
of the lower part. -/
def valueBitsLow (f : Field) (v : DigitVec) : Nat → Nat
  | 0 => 0
  | k + 1 => valueBitsLow f v k + (digit v k).toNat % 2 ^ f.W * 2 ^ (f.W * k)

/-- The integer NPACK packs (46_codec.md R232). -/
def valueBits (f : Field) (v : DigitVec) : Nat :=
  valueBitsLow f v (f.K - 1) + (digit v (f.K - 1)).toNat % 2 ^ f.H * 2 ^ (f.W * (f.K - 1))

/-- An immediate read as a signed small integer, `sext_32(imm)` (30_encoding.md R102 (a)). -/
def immSigned (imm : Imm) : Int := imm.toInt

/-- An immediate read as an unsigned bit index, `zext_32(imm)` (30_encoding.md R102 (b)). -/
def immIndex (imm : Imm) : Nat := imm.toNat

/-- The bit of the stored digits at index `i < n` (47_transfer_compare.md R257): bit `i - W*j` of digit
`j = fdiv(i, W)`. -/
def storedBit (f : Field) (v : DigitVec) (i : Nat) : Bool := (digit v (i / f.W)).getLsbD (i - f.W * (i / f.W))

/-- The word a one-bit mask selector spreads to (47_transfer_compare.md R259, R260). -/
def maskWord (k : Bool) : Word := if k then BitVec.allOnes 64 else 0

/-- The AND of every digit with a mask word (47_transfer_compare.md R259, R260). -/
def maskVec (f : Field) (v : DigitVec) (k : Bool) : DigitVec := build f.K fun j => digit v j &&& maskWord k

/-- The word-wise OR (47_transfer_compare.md R261). -/
def orVec (f : Field) (a b : DigitVec) : DigitVec := build f.K fun j => digit a j ||| digit b j

/-- Word for word equality of two digit vectors (47_transfer_compare.md R253). -/
def sameDigits (f : Field) (a b : DigitVec) : Bool := (List.range f.K).all fun j => digit a j == digit b j

/-- One SQR-step of the exponentiation engine: the squarer on a scratch vector (44_inverse_engine.md R180,
42_squarer.md R155). -/
def sqrStep (f : Field) (acc : DigitVec) : DigitVec := mulOut f (val f acc * val f acc)

/-- One MUL-step of the exponentiation engine: the multiplier on scratch vectors (R180, 41_multiplier.md R141). -/
def mulStep (f : Field) (acc a : DigitVec) : DigitVec := mulOut f (val f acc * val f a)

/-- The steps of the chain for the `k` low bits of `e`, from bit `k - 1` down to bit 0 (R180). -/
def chainSteps (f : Field) (a : DigitVec) (e : Nat) : Nat → DigitVec → DigitVec
  | 0, acc => acc
  | k + 1, acc =>
    chainSteps f a e k (if e.testBit k then mulStep f (sqrStep f acc) a else sqrStep f acc)

/-- `CHAINPOW(A, e)` as the source's fixed left-to-right chain runs it on digit vectors (R180): `bitlen(e) - 1` is
`log2 e`. The commands use its value, `powMod`, which an obligation compares with this chain. -/
def chainPow (f : Field) (a : DigitVec) (e : Nat) : DigitVec :=
  let reduced := canon f (modp f a)
  canon f (modp f (chainSteps f reduced e e.log2 reduced))

/-- How many squarings the left-to-right chain of `e` takes, `bitlen(e) - 1` (70_reset_and_hazards.md R362). -/
def chainSquarings (e : Nat) : Nat := e.log2

/-- How many of the `k` low bits of `e` are 1. -/
def popcountLow (e : Nat) : Nat → Nat
  | 0 => 0
  | k + 1 => popcountLow e k + (e.testBit k).toNat

/-- How many multiplies the left-to-right chain of `e` takes, `popcount(e) - 1` (70_reset_and_hazards.md R362). -/
def chainMultiplies (e : Nat) : Nat := popcountLow e (e.log2 + 1) - 1

/-- `P_VEC = canon(p)` of the constant store (10_state.md R51). -/
def constP (f : Field) : DigitVec := canon f f.p

/-- `SIGN_CONST` of the constant store, as a digit vector (10_state.md R51). -/
def constSign (f : Field) : DigitVec := canon f f.signConst

/-- `SQRT_COEFF_M1` of the constant store, as a digit vector, in class-1 fields only (10_state.md R51, R53). -/
def constSqrtCoeff (f : Field) : Option DigitVec :=
  if f.sqrtClass = .class1 then some (canon f f.sqrtCoeffM1) else none

/-- `INV_SQRT_COEFF_M1` of the constant store, as a digit vector, in class-1 fields only (10_state.md R51, R54). -/
def constInvSqrtCoeff (f : Field) : Option DigitVec :=
  if f.sqrtClass = .class1 then some (canon f f.invSqrtCoeffM1) else none

/-- `a^(p-2) mod p` (44_inverse_engine.md R181, R183). -/
def invV (f : Field) (a : Nat) : Nat := powMod f.p a (f.p - 2)

/-- The quartic-symbol chain `a^((p-1)/4) mod p` (45_sqrt_engine.md R202, R215). -/
def quarticV (f : Field) (a : Nat) : Nat := powMod f.p a ((f.p - 1) / 4)

/-- The quadratic-symbol chain `a^((p-1)/2) mod p` (45_sqrt_engine.md R208, R210). -/
def eulerV (f : Field) (a : Nat) : Nat := powMod f.p a ((f.p - 1) / 2)

/-- `SQRTV(a)` in class 0 (45_sqrt_engine.md R200). -/
def sqrtV0 (f : Field) (a : Nat) : Nat := powMod f.p a ((f.p + 1) / 4)

/-- `SQRTV(a)` in class 1 (45_sqrt_engine.md R202), with the OPEN `SQRT_NONRES(a)` for a non-residue (R205). -/
def sqrtV1 (f : Field) (a : Nat) : Nat :=
  let x := powMod f.p a ((f.p + 3) / 8)
  let q := quarticV f a
  if a = 0 then 0
  else if q = 1 then x
  else if q = f.p - 1 then x * f.sqrtCoeffM1 % f.p
  else Config.sqrtNonres f a % f.p

/-- `SQRTV(a)` (45_sqrt_engine.md R201). -/
def sqrtV (f : Field) (a : Nat) : Nat := if f.sqrtClass = .class0 then sqrtV0 f a else sqrtV1 f a

/-- `ISQRTV(a)` (45_sqrt_engine.md R208), with the OPEN `ISQRT_NONRES(a)` for a non-residue (R209). -/
def isqrtV (f : Field) (a : Nat) : Nat :=
  if a = 0 then 0
  else if eulerV f a = 1 then invV f (sqrtV f a)
  else Config.isqrtNonres f a % f.p

/-- The integer of a three-valued sign. -/
def signInt : Sign3 → Int
  | .minusOne => -1
  | .zero => 0
  | .plusOne => 1

/-- `LEGV(a)` (45_sqrt_engine.md R210), with the OPEN `LEG_ZERO` where the chain gives 0 (R214). -/
def legV (f : Field) (a : Nat) : Int :=
  if eulerV f a = 1 then 1 else if eulerV f a = f.p - 1 then -1 else signInt (Config.legZero f)

/-- `LEGQV(a)` (45_sqrt_engine.md R215), with the OPEN `LEGQ_OTHER(a)` where the chain gives neither 1 nor `p - 1`
(R219). -/
def legqV (f : Field) (a : Nat) : Int :=
  if quarticV f a = 1 then 1 else if quarticV f a = f.p - 1 then -1 else signInt (Config.legqOther f a)

end Sys2Proof.Machine
end

