-- ==== Sys2Proof/Machine/Flags.lean ====
section
/-! DEFINITION. The status side of the unit: the words STATUS and CTRL read as (10_state.md R36, R40), the interrupt
output (R49), the error codes (60_exceptions.md R301), and the scalar results written to SRES (10_state.md R34). The
unit has no condition codes (R47). -/

namespace Sys2Proof.Machine

/-- The code of an error, as ECODE holds it (60_exceptions.md R301). -/
def ErrorCode.code : ErrorCode → BitVec 8
  | .illegalOpcode => 0x01
  | .reservedField => 0x02
  | .notApplicable => 0x03
  | .busyCmd => 0x04
  | .busyAccess => 0x05
  | .badAddress => 0x06
  | .badAccess => 0x07
  | .roWrite => 0x08

/-- STATUS.BUSY: a command is in flight (10_state.md R37, R48). -/
def State.busy (s : State) : Bool := s.inflight.isSome

/-- The word STATUS reads as (10_state.md R36): BUSY in bit 0, DONE in bit 1, ERR in bit 2, ECODE in bits 15:8, every
reserved bit 0. -/
def State.statusWord (s : State) : Word :=
  0#48 ++ s.ecode ++ 0#5 ++ BitVec.ofBool s.err ++ BitVec.ofBool s.done ++ BitVec.ofBool s.busy

/-- The word CTRL reads as (10_state.md R40): IE in bit 0, every other bit 0. -/
def State.ctrlWord (s : State) : Word := 0#63 ++ BitVec.ofBool s.ie

/-- The interrupt output: `irq = STATUS.DONE AND CTRL.IE` (10_state.md R49, 60_exceptions.md R317). -/
def State.irq (s : State) : Bool := s.done && s.ie

/-- A truth value as a scalar result, 1 or 0 (47_transfer_compare.md R252 to R257). -/
def boolWord (b : Bool) : Word := if b then 1 else 0

/-- SIGN's result: is `modp(A) > (p-1)/2`? (47_transfer_compare.md R254) -/
def signBit (f : Field) (r : Nat) : Bool := decide ((f.p - 1) / 2 < r)

/-- SIGNN's carry-out (47_transfer_compare.md R255). -/
def signCarry (f : Field) (v : DigitVec) : Int := (val f v + f.signConst) / 2 ^ f.n

/-- BIT's result (47_transfer_compare.md R256): an index at or above `n` gives 0. -/
def valueBit (f : Field) (v : DigitVec) (i : Nat) : Bool := decide (i < f.n) && (modp f v).testBit i

/-- BITN's result (47_transfer_compare.md R257): an index at or above `n` gives 0. -/
def digitBit (f : Field) (v : DigitVec) (i : Nat) : Bool := decide (i < f.n) && storedBit f v i

/-- ABS's value (47_transfer_compare.md R258). -/
def absV (f : Field) (r : Nat) : Nat := if r ≤ (f.p - 1) / 2 then r else f.p - r

end Sys2Proof.Machine
end

