-- ==== Sys2Proof/Machine/Ops.lean ====
section
/-! DEFINITION. The named operations every meaning and every host access is written with: the packed buffer, the
vector registers, recording and acknowledging an error, acceptance of a command and its completion, and reset. -/

namespace Sys2Proof.Machine

/-! ### The packed buffer -/

/-- What a byte of PB that no pair lists reads as: 0, PB's reset value (10_state.md R55). -/
def Memory.blank : Byte := 0

/-- Byte `j` of PB. -/
def Memory.read : Memory → Nat → Byte
  | [], _ => Memory.blank
  | c :: m, j => if c.1 = j then c.2 else Memory.read m j

/-- A pair for byte `j`, or none where the value is the blank one, before the pairs of `m`. -/
def Memory.put (m : Memory) (j : Nat) (b : Byte) : Memory := if b = Memory.blank then m else (j, b) :: m

/-- PB with byte `j` set to `b`, in canonical form. -/
def Memory.write : Memory → Nat → Byte → Memory
  | [], j, b => Memory.put [] j b
  | c :: m, j, b =>
    if c.1 < j then c :: Memory.write m j b
    else if c.1 = j then Memory.put m j b
    else Memory.put (c :: m) j b

/-- Every pair of `m` lies above byte `j`. -/
def Memory.above (j : Nat) (m : Memory) : Bool := m.all fun c => decide (j < c.1)

/-- The canonical form: byte numbers strictly rising, no pair with the blank value. -/
def Memory.wf : Memory → Bool
  | [] => true
  | c :: m => (c.2 != Memory.blank) && Memory.above c.1 m && Memory.wf m

/-- PB with its bytes 0 to `k - 1` set to `g 0` to `g (k-1)`. -/
def Memory.fill (m : Memory) (g : Nat → Byte) : Nat → Memory
  | 0 => m
  | k + 1 => Memory.write (Memory.fill m g k) k (g k)

/-- `unpackint` over the `k` low bytes (46_codec.md R230). -/
def Memory.bytesValue (m : Memory) : Nat → Nat
  | 0 => 0
  | k + 1 => Memory.bytesValue m k + (Memory.read m k).toNat * 2 ^ (8 * k)

/-- `unpackint(PB)` (46_codec.md R230). -/
def unpackInt (f : Field) (m : Memory) : Nat := Memory.bytesValue m f.packedBytes

/-! ### The vector registers -/

/-- `x[r]` (10_state.md R30). -/
def State.reg (s : State) (r : Reg) : DigitVec := s.x[r.toNat]'(r.isLt)

/-- `x[r] <- v` (00_scope.md R16). -/
def State.setReg (s : State) (r : Reg) (v : DigitVec) : State := { s with x := s.x.set r.toNat v r.isLt }

/-! ### Errors

The unit takes no trap: an error records its code and cancels the action that caused it (60_exceptions.md R300, R315).
`raiseError` is the whole of what taking an error does to STATUS, and the STATUS write of R316 is the only
acknowledgement. -/

/-- An error with code `e` occurs: the first one since ERR was clear is kept (10_state.md R39). -/
def State.raiseError (e : ErrorCode) (s : State) : State :=
  if s.err then s else { s with err := true, ecode := e.code }

/-- A command word ends in a decode error (60_exceptions.md R310): the error is recorded, DONE is set (10_state.md
R38), and no command is in flight. -/
def State.commandError (e : ErrorCode) (s : State) : State :=
  { State.raiseError e s with done := true, inflight := none }

/-- DONE is acknowledged by a STATUS write with bit 1 set (10_state.md R36). -/
def State.ackDone (s : State) : State := { s with done := false }

/-- An error is acknowledged by a STATUS write with bit 2 set (10_state.md R36, 60_exceptions.md R316). -/
def State.ackError (s : State) : State := { s with err := false, ecode := 0 }

/-- The error code of a decode error (30_encoding.md R109). -/
def decodeErrorCode : DecodeError → ErrorCode
  | .illegalOpcode => .illegalOpcode
  | .reservedField => .reservedField

/-! ### Acceptance and completion of a command -/

/-- The snapshot of the sources that the fields VA and VB of a command word name (60_exceptions.md R310). -/
def State.snapshot (s : State) (w : Word) : Snapshot :=
  { a := s.reg (vaField w), b := s.reg (vbField w), sres0 := s.sres.getLsbD 0, pb := s.pb }

/-- A decoded and applicable command is accepted (60_exceptions.md R310): its word, the snapshot of its sources and
its latency go in flight, so BUSY is 1. -/
def State.accept (i : Instr) (w : Word) (s : State) : State :=
  { s with inflight := some { word := w, snap := s.snapshot w, remaining := Config.lat i.op s.field } }

/-- A command word is issued while BUSY = 0 (30_encoding.md R109, 60_exceptions.md R310): decoded, then checked for
applicability, then accepted. The first check that fails decides the error. -/
def State.issue (w : Word) (s : State) : State :=
  match decode w with
  | .error e => s.commandError (decodeErrorCode e)
  | .ok i => if s.field.hasOp i.op then s.accept i w else s.commandError .notApplicable

/-- The source operand `A`: the snapshot's while a command is in flight (10_state.md R48), else `x[va]` as it is now
(the moment of issue, 00_scope.md R17). -/
def State.sourceA (s : State) (va : Reg) : DigitVec :=
  match s.inflight with
  | some r => r.snap.a
  | none => s.reg va

/-- The source operand `B`, as `sourceA`. -/
def State.sourceB (s : State) (vb : Reg) : DigitVec :=
  match s.inflight with
  | some r => r.snap.b
  | none => s.reg vb

/-- The mask bit `SRES[0]` as it was at acceptance (47_transfer_compare.md R260), as `sourceA`. -/
def State.sourceSres0 (s : State) : Bool :=
  match s.inflight with
  | some r => r.snap.sres0
  | none => s.sres.getLsbD 0

/-- PB as it was at acceptance (60_exceptions.md R310), as `sourceA`. -/
def State.sourcePb (s : State) : Memory :=
  match s.inflight with
  | some r => r.snap.pb
  | none => s.pb

/-- The unspecified contents of S0 to S2 after a command (10_state.md R50): the free values of draw `k`. -/
def freeScratch (f : Field) (k : Nat) : Vector DigitVec 3 :=
  Vector.ofFn fun i => build f.K fun j => Config.scratchWord k i.val j

/-- Completion of a command that ended without an error (60_exceptions.md R310): nothing in flight, so BUSY is 0, DONE
set, CMDCNT counted (10_state.md R42); S0 to S2 hold unspecified values (R50). -/
def State.complete (s : State) : State :=
  { s with
    inflight := none
    done := true
    cmdcnt := s.cmdcnt + 1
    scratch := freeScratch s.field s.draws
    draws := s.draws + 1 }

/-- Completion of a command whose result is a vector register (10_state.md R32). -/
def State.completeReg (vd : Reg) (v : DigitVec) (s : State) : State := (s.setReg vd v).complete

/-- Completion of a command whose result is SRES (10_state.md R34, R35). -/
def State.completeSres (w : Word) (s : State) : State := ({ s with sres := w }).complete

/-- Completion of a command whose result is PB: all PACKED_BYTES bytes of `packint(r)` (46_codec.md R231, R232). -/
def State.completePb (r : Nat) (s : State) : State :=
  ({ s with pb := Memory.fill s.pb (packByte r) s.field.packedBytes }).complete

/-- A command that some fields do not have: completed by `done` where the field has it, and otherwise refused with
NOT_APPLICABLE (30_encoding.md R108, 60_exceptions.md R303). -/
def State.ifApplicable (op : Op) (done : State → State) (s : State) : State :=
  if s.field.hasOp op then done s else s.commandError .notApplicable

/-! ### Reset and time -/

/-- Reset, by `rst` or by CTRL.SRST (70_reset_and_hazards.md R340): every piece of the unit's state takes its reset
value, a command in flight is abandoned (R341), and FIELD stays. The model's own record of the host goes on. -/
def State.hardReset (s : State) : State :=
  { State.resetOf s.field with inputs := s.inputs, readData := s.readData, draws := s.draws }

/-- One tick of the unit's clock (70_reset_and_hazards.md R360): the latency of the command in flight runs down. -/
def State.tick (s : State) : State :=
  match s.inflight with
  | some r => { s with inflight := some { r with remaining := r.remaining - 1 } }
  | none => s

/-- The word of the command whose latency has elapsed, if there is one: its completion is the next event
(70_reset_and_hazards.md R360, 60_exceptions.md R314). -/
def State.dueWord (s : State) : Option Word :=
  match s.inflight with
  | some r => if r.remaining = 0 then some r.word else none
  | none => none

end Sys2Proof.Machine
end

