-- ==== Sys2Proof/Machine/Adder.lean ====
section
/-! DEFINITION. The modular_adder (40_adder.md): ADD, SUB, ADDS, NEG. -/

namespace Sys2Proof.Machine

/-- ADD (R122): `x[vd] <- ADDCORE(A, B, +1)`. -/
def execAdd (vd va vb : Reg) (s : State) : Host.Outcome State Fault Refusal :=
  .next (s.completeReg vd (addCore s.field (s.sourceA va) (s.sourceB vb) 1))

/-- SUB (R123): `x[vd] <- ADDCORE(A, B, -1)`. -/
def execSub (vd va vb : Reg) (s : State) : Host.Outcome State Fault Refusal :=
  .next (s.completeReg vd (addCore s.field (s.sourceA va) (s.sourceB vb) (-1)))

/-- ADDS (R124): `x[vd] <- ADDCORE(A, Bs, +1)` with `Bs` the vector of the signed immediate. -/
def execAdds (vd va : Reg) (imm : Imm) (s : State) : Host.Outcome State Fault Refusal :=
  .next (s.completeReg vd (addCore s.field (s.sourceA va) (smallVec s.field (immSigned imm)) 1))

/-- NEG (R125): `x[vd] <- ADDCORE(canon(0), A, -1)`. -/
def execNeg (vd va : Reg) (s : State) : Host.Outcome State Fault Refusal :=
  .next (s.completeReg vd (addCore s.field (canon s.field 0) (s.sourceA va) (-1)))

end Sys2Proof.Machine
end

