-- ==== Sys2Proof/Machine/Codec.lean ====
section
/-! DEFINITION. The codec (46_codec.md): PACK, NPACK, UNPACK. -/

namespace Sys2Proof.Machine

/-- PACK (R231): `PB <- packint(modp(A))`. -/
def execPack (va : Reg) (s : State) : Host.Outcome State Fault Refusal :=
  .next (s.completePb (modp s.field (s.sourceA va)))

/-- NPACK (R232): `PB <- packint(r)` with `r` the integer of the value bits alone. -/
def execNpack (va : Reg) (s : State) : Host.Outcome State Fault Refusal :=
  .next (s.completePb (valueBits s.field (s.sourceA va)))

/-- UNPACK (R233): `x[vd] <- canon(unpackint(PB) mod 2^n)`. -/
def execUnpack (vd : Reg) (s : State) : Host.Outcome State Fault Refusal :=
  .next (s.completeReg vd (canon s.field (unpackInt s.field s.sourcePb % 2 ^ s.field.n)))

end Sys2Proof.Machine
end

