-- ==== Sys2Proof/Machine/Inverse.lean ====
section
/-! DEFINITION. The modular_inverse_engine (44_inverse_engine.md): INV, DIV. -/

namespace Sys2Proof.Machine

/-- INV (R183): `x[vd] <- canon(modp(A)^(p-2) mod p)`; the inverse of zero is zero. -/
def execInv (vd va : Reg) (s : State) : Host.Outcome State Fault Refusal :=
  .next (s.completeReg vd (canon s.field (invV s.field (modp s.field (s.sourceA va)))))

/-- DIV (R184): `x[vd] <- canon((modp(A) * (modp(B)^(p-2) mod p)) mod p)`. -/
def execDiv (vd va vb : Reg) (s : State) : Host.Outcome State Fault Refusal :=
  .next (s.completeReg vd (canon s.field
    (modp s.field (s.sourceA va) * invV s.field (modp s.field (s.sourceB vb)) % s.field.p)))

end Sys2Proof.Machine
end

