-- ==== Sys2Proof/Machine/Multiplier.lean ====
section
/-! DEFINITION. The modular_multiplier (41_multiplier.md) and the modular_squarer (42_squarer.md): MUL, MULS, SQR. -/

namespace Sys2Proof.Machine

/-- MUL (R141): `x[vd] <- canon(fold(val(A) * val(B)))`. -/
def execMul (vd va vb : Reg) (s : State) : Host.Outcome State Fault Refusal :=
  .next (s.completeReg vd (mulOut s.field (val s.field (s.sourceA va) * val s.field (s.sourceB vb))))

/-- MULS (R142): `x[vd] <- canon(fold(val(A) * s))` with `s` the signed immediate. -/
def execMuls (vd va : Reg) (imm : Imm) (s : State) : Host.Outcome State Fault Refusal :=
  .next (s.completeReg vd (mulOut s.field (val s.field (s.sourceA va) * immSigned imm)))

/-- SQR (R155): `x[vd] <- canon(fold(val(A) * val(A)))`. -/
def execSqr (vd va : Reg) (s : State) : Host.Outcome State Fault Refusal :=
  .next (s.completeReg vd (mulOut s.field (val s.field (s.sourceA va) * val s.field (s.sourceA va))))

end Sys2Proof.Machine
end

