-- ==== Sys2Proof/Machine/Reducer.lean ====
section
/-! DEFINITION. The modular_reducer (43_reducer.md): NORM. -/

namespace Sys2Proof.Machine

/-- NORM (R167): `x[vd] <- canon(val(A) mod p)`. -/
def execNorm (vd va : Reg) (s : State) : Host.Outcome State Fault Refusal :=
  .next (s.completeReg vd (canon s.field (modp s.field (s.sourceA va))))

end Sys2Proof.Machine
end

