-- ==== Sys2Proof/Machine/Sqrt.lean ====
section
/-! DEFINITION. The modular_sqrt_engine (45_sqrt_engine.md): SQRT, ISQRT, LEG, LEGQ. The engine reduces its input by
value (44_inverse_engine.md R182). -/

namespace Sys2Proof.Machine

/-- SQRT (R201): `x[vd] <- canon(SQRTV(a))`; NOT_APPLICABLE in a field of neither class (30_encoding.md R108). -/
def execSqrt (vd va : Reg) (s : State) : Host.Outcome State Fault Refusal :=
  .next (s.ifApplicable .sqrt
    (State.completeReg vd (canon s.field (sqrtV s.field (modp s.field (s.sourceA va))))))

/-- ISQRT (R207): `x[vd] <- canon(ISQRTV(a))`; NOT_APPLICABLE in a field of neither class (30_encoding.md R108). -/
def execIsqrt (vd va : Reg) (s : State) : Host.Outcome State Fault Refusal :=
  .next (s.ifApplicable .isqrt
    (State.completeReg vd (canon s.field (isqrtV s.field (modp s.field (s.sourceA va))))))

/-- LEG (R211): `SRES <- word(LEGV(a))`. -/
def execLeg (va : Reg) (s : State) : Host.Outcome State Fault Refusal :=
  .next (s.completeSres (wordOf (legV s.field (modp s.field (s.sourceA va)))))

/-- LEGQ (R216): `SRES <- word(LEGQV(a))`; NOT_APPLICABLE outside class 1 (R217, 30_encoding.md R108). -/
def execLegq (va : Reg) (s : State) : Host.Outcome State Fault Refusal :=
  .next (s.ifApplicable .legq
    (State.completeSres (wordOf (legqV s.field (modp s.field (s.sourceA va))))))

end Sys2Proof.Machine
end

