-- ==== Sys2Proof/Machine/Transfer.lean ====
section
/-! DEFINITION. Transfer, compare and select (47_transfer_compare.md): MOV, LDI, EQ, EQN, SIGN, SIGNN, BIT, BITN, ABS,
MASK, MASKS, OR. -/

namespace Sys2Proof.Machine

/-- MOV (R250): `x[vd] <- A`, word for word. -/
def execMov (vd va : Reg) (s : State) : Host.Outcome State Fault Refusal :=
  .next (s.completeReg vd (s.sourceA va))

/-- LDI (R251): `x[vd] <- canon(s mod p)` with `s` the signed immediate. -/
def execLdi (vd : Reg) (imm : Imm) (s : State) : Host.Outcome State Fault Refusal :=
  .next (s.completeReg vd (canon s.field (immSigned imm % s.field.p).toNat))

/-- EQ (R252): SRES is 1 exactly when the operands represent the same field element. -/
def execEq (va vb : Reg) (s : State) : Host.Outcome State Fault Refusal :=
  .next (s.completeSres (boolWord
    (modp s.field (s.sourceA va) == modp s.field (s.sourceB vb))))

/-- EQN (R253): SRES is 1 exactly when the stored words agree. -/
def execEqn (va vb : Reg) (s : State) : Host.Outcome State Fault Refusal :=
  .next (s.completeSres (boolWord (sameDigits s.field (s.sourceA va) (s.sourceB vb))))

/-- SIGN (R254): SRES is 1 exactly when `modp(A) > (p-1)/2`. -/
def execSign (va : Reg) (s : State) : Host.Outcome State Fault Refusal :=
  .next (s.completeSres (boolWord (signBit s.field (modp s.field (s.sourceA va)))))

/-- SIGNN (R255): SRES is the carry-out of `val(A) + SIGN_CONST`. -/
def execSignn (va : Reg) (s : State) : Host.Outcome State Fault Refusal :=
  .next (s.completeSres (wordOf (signCarry s.field (s.sourceA va))))

/-- BIT (R256): SRES is bit `i` of `modp(A)`, 0 for an index at or above `n`. -/
def execBit (va : Reg) (imm : Imm) (s : State) : Host.Outcome State Fault Refusal :=
  .next (s.completeSres (boolWord (valueBit s.field (s.sourceA va) (immIndex imm))))

/-- BITN (R257): SRES is the stored value bit at index `i`, 0 for an index at or above `n`. -/
def execBitn (va : Reg) (imm : Imm) (s : State) : Host.Outcome State Fault Refusal :=
  .next (s.completeSres (boolWord (digitBit s.field (s.sourceA va) (immIndex imm))))

/-- ABS (R258): `x[vd] <- canon((r <= (p-1)/2) ? r : p - r)` with `r = modp(A)`. -/
def execAbs (vd va : Reg) (s : State) : Host.Outcome State Fault Refusal :=
  .next (s.completeReg vd (canon s.field (absV s.field (modp s.field (s.sourceA va)))))

/-- MASK (R259): `A` where the immediate is 1, zero where it is 0. -/
def execMask (vd va : Reg) (imm : Imm) (s : State) : Host.Outcome State Fault Refusal :=
  .next (s.completeReg vd (maskVec s.field (s.sourceA va) (imm == 1)))

/-- MASKS (R260): `A` where bit 0 of SRES was 1 at acceptance, zero where it was 0. -/
def execMasks (vd va : Reg) (s : State) : Host.Outcome State Fault Refusal :=
  .next (s.completeReg vd (maskVec s.field (s.sourceA va) s.sourceSres0))

/-- OR (R261): `x[vd][j] <- A[j] | B[j]`. -/
def execOr (vd va vb : Reg) (s : State) : Host.Outcome State Fault Refusal :=
  .next (s.completeReg vd (orVec s.field (s.sourceA va) (s.sourceB vb)))

end Sys2Proof.Machine
end

