-- ==== Sys2Proof/Machine/Dispatch.lean ====
section
/-! DEFINITION. The dispatch of a command to its meaning: one arm per row of the opcode map (30_encoding.md R105). -/

namespace Sys2Proof.Machine

/-- The effect of a command, from its sources to its completion (60_exceptions.md R310). -/
def exec (i : Instr) (s : State) : Host.Outcome State Fault Refusal :=
  match i with
  | .add vd va vb => Sys2Proof.Machine.execAdd vd va vb s
  | .sub vd va vb => Sys2Proof.Machine.execSub vd va vb s
  | .adds vd va imm => Sys2Proof.Machine.execAdds vd va imm s
  | .neg vd va => Sys2Proof.Machine.execNeg vd va s
  | .mul vd va vb => Sys2Proof.Machine.execMul vd va vb s
  | .muls vd va imm => Sys2Proof.Machine.execMuls vd va imm s
  | .sqr vd va => Sys2Proof.Machine.execSqr vd va s
  | .norm vd va => Sys2Proof.Machine.execNorm vd va s
  | .inv vd va => Sys2Proof.Machine.execInv vd va s
  | .div vd va vb => Sys2Proof.Machine.execDiv vd va vb s
  | .sqrt vd va => Sys2Proof.Machine.execSqrt vd va s
  | .isqrt vd va => Sys2Proof.Machine.execIsqrt vd va s
  | .leg va => Sys2Proof.Machine.execLeg va s
  | .legq va => Sys2Proof.Machine.execLegq va s
  | .pack va => Sys2Proof.Machine.execPack va s
  | .npack va => Sys2Proof.Machine.execNpack va s
  | .unpack vd => Sys2Proof.Machine.execUnpack vd s
  | .mov vd va => Sys2Proof.Machine.execMov vd va s
  | .ldi vd imm => Sys2Proof.Machine.execLdi vd imm s
  | .eq va vb => Sys2Proof.Machine.execEq va vb s
  | .eqn va vb => Sys2Proof.Machine.execEqn va vb s
  | .sign va => Sys2Proof.Machine.execSign va s
  | .signn va => Sys2Proof.Machine.execSignn va s
  | .bit va imm => Sys2Proof.Machine.execBit va imm s
  | .bitn va imm => Sys2Proof.Machine.execBitn va imm s
  | .abs vd va => Sys2Proof.Machine.execAbs vd va s
  | .mask vd va imm => Sys2Proof.Machine.execMask vd va imm s
  | .masks vd va => Sys2Proof.Machine.execMasks vd va s
  | .or vd va vb => Sys2Proof.Machine.execOr vd va vb s

end Sys2Proof.Machine
end

