-- ==== Sys2Proof/Machine/Window.lean ====
section
/-! DEFINITION. The host window (20_memory.md): its address map, host reads and host writes with their errors
(60_exceptions.md R305 to R309, R313), and the busy window (70_reset_and_hazards.md R350 to R353). -/

namespace Sys2Proof.Machine

/-- A well-formed access is 64 bits wide at an address that is a multiple of 8 (20_memory.md R71). -/
def accessOk (addr : BitVec 16) (width : Nat) : Bool := width == 64 && addr.toNat % 8 == 0

/-- The address map of the host window (20_memory.md R73, R74, R76). -/
def windowReg (addr : BitVec 16) : Option WindowReg :=
  let a := addr.toNat
  if a = 0x0000 then some .id0
  else if a = 0x0008 then some .id1
  else if a = 0x0010 then some .status
  else if a = 0x0018 then some .ctrl
  else if a = 0x0020 then some .cmd
  else if a = 0x0028 then some .sres
  else if a = 0x0030 then some .cmdcnt
  else if 0x0100 ≤ a ∧ a ≤ 0x0147 then some (.pbuf ((a - 0x0100) / 8))
  else if 0x1000 ≤ a ∧ a ≤ 0x17ff then
    some (.vreg (BitVec.ofNat 4 ((a - 0x1000) / 0x80)) ((a - 0x1000) % 0x80 / 8))
  else none

/-- The registers a write is refused for with RO_WRITE (20_memory.md R79). -/
def WindowReg.readOnly : WindowReg → Bool
  | .id0 | .id1 | .sres | .cmdcnt => true
  | .status | .ctrl | .cmd | .pbuf _ | .vreg _ _ => false

/-- The addresses whose value a read while busy leaves open (70_reset_and_hazards.md R352). -/
def WindowReg.openWhileBusy : WindowReg → Bool
  | .sres | .pbuf _ | .vreg _ _ => true
  | .id0 | .id1 | .status | .ctrl | .cmd | .cmdcnt => false

/-- Byte lane `k` of PBUF word `w`: byte `PB[8w+k]`, and 0 at or beyond PACKED_BYTES (20_memory.md R76, R77). -/
def State.lane (s : State) (w k : Nat) : Byte :=
  if 8 * w + k < s.field.packedBytes then s.pb.read (8 * w + k) else 0

/-- The word PBUF word `w` reads as, lane 0 least significant (20_memory.md R76). -/
def State.pbufWord (s : State) (w : Nat) : Word :=
  s.lane w 7 ++ s.lane w 6 ++ s.lane w 5 ++ s.lane w 4 ++ s.lane w 3 ++ s.lane w 2 ++ s.lane w 1 ++ s.lane w 0

/-- The lanes 0 to `k - 1` of PBUF word `w` take the bytes of `d`; lanes that hold no state ignore it (R76, R77). -/
def State.writeLanes (s : State) (w : Nat) (d : Word) : Nat → Memory
  | 0 => s.pb
  | k + 1 =>
    if 8 * w + k < s.field.packedBytes then
      (s.writeLanes w d k).write (8 * w + k) (d.extractLsb' (8 * k) 8)
    else s.writeLanes w d k

/-- Slot `j` of vector register `i`: digit `x[i][j]`, and 0 for a slot that holds no state (20_memory.md R74, R75). -/
def State.slot (s : State) (i : Reg) (j : Nat) : Word := if j < s.field.K then digit (s.reg i) j else 0

/-- `x[i][j] <- d`, changing only that word; a slot that holds no state ignores it (20_memory.md R74, R75). -/
def State.writeSlot (s : State) (i : Reg) (j : Nat) (d : Word) : State :=
  if j < s.field.K then s.setReg i ((s.reg i).set j d) else s

/-- The value a mapped address reads as while no command is in flight (20_memory.md R73 to R77). -/
def State.windowValue (s : State) : WindowReg → Word
  | .id0 => s.field.id0
  | .id1 => s.field.id1
  | .status => s.statusWord
  | .ctrl => s.ctrlWord
  | .cmd => s.lastcmd
  | .sres => s.sres
  | .cmdcnt => s.cmdcnt
  | .pbuf w => s.pbufWord w
  | .vreg i j => s.slot i j

/-- The host's read returns `d`. -/
def State.reply (d : Word) (s : State) : State := { s with readData := d }

/-- A host read (20_memory.md R72, R73, R78; 60_exceptions.md R313 (c)): a refused read returns 0, and a read of
VREG, PBUF or SRES while busy returns `BUSY_READ`, a free value (70_reset_and_hazards.md R352). -/
def State.hostRead (addr : BitVec 16) (width : Nat) (s : State) : State :=
  if accessOk addr width then
    match windowReg addr with
    | none => (s.raiseError .badAddress).reply 0
    | some r =>
      if s.busy && r.openWhileBusy then
        { s.reply (Config.busyRead s.draws addr) with draws := s.draws + 1 }
      else s.reply (s.windowValue r)
  else (s.raiseError .badAccess).reply 0

/-- A write to STATUS (10_state.md R36): bit 1 clears DONE, bit 2 clears ERR and ECODE. -/
def State.writeStatus (d : Word) (s : State) : State :=
  let t := if d.getLsbD 1 then s.ackDone else s
  if d.getLsbD 2 then t.ackError else t

/-- A write to CTRL (10_state.md R40): SRST resets the unit and the IE bit of that write is discarded. -/
def State.writeCtrl (d : Word) (s : State) : State :=
  if d.getLsbD 1 then s.hardReset else { s with ie := d.getLsbD 0 }

/-- A write to CMD (60_exceptions.md R310): dropped with BUSY_CMD while busy (R305), else recorded in LASTCMD and
issued. -/
def State.writeCmd (w : Word) (s : State) : State :=
  if s.busy then s.raiseError .busyCmd else State.issue w { s with lastcmd := w }

/-- A write to a mapped register (20_memory.md R73 to R79), in the order of 60_exceptions.md R313 (c): RO_WRITE, then
BUSY_ACCESS or BUSY_CMD. -/
def State.windowWrite (d : Word) (s : State) : WindowReg → State
  | .id0 | .id1 | .sres | .cmdcnt => s.raiseError .roWrite
  | .status => s.writeStatus d
  | .ctrl => s.writeCtrl d
  | .cmd => s.writeCmd d
  | .pbuf w => if s.busy then s.raiseError .busyAccess else { s with pb := s.writeLanes w d 8 }
  | .vreg i j => if s.busy then s.raiseError .busyAccess else s.writeSlot i j d

/-- A host write (20_memory.md R72, R78; 60_exceptions.md R313 (c)): BAD_ACCESS, then BAD_ADDRESS, then the errors of
the register. -/
def State.hostWrite (addr : BitVec 16) (width : Nat) (d : Word) (s : State) : State :=
  if accessOk addr width then
    match windowReg addr with
    | none => s.raiseError .badAddress
    | some r => s.windowWrite d r
  else s.raiseError .badAccess

/-- What one event does (20_memory.md R85, 60_exceptions.md R314, 70_reset_and_hazards.md R340, R360). -/
def State.event (s : State) : HostEvent → State
  | .read addr width => s.hostRead addr width
  | .write addr width d => s.hostWrite addr width d
  | .tick => s.tick
  | .rst => s.hardReset

/-- The unit with no completion due: the next event of the host is served (20_memory.md R85), and while the host does
nothing, time passes (70_reset_and_hazards.md R360). -/
def State.advance (s : State) : State :=
  match s.inputs with
  | [] => s.tick
  | e :: rest => State.event { s with inputs := rest } e

end Sys2Proof.Machine
end

