-- ==== Sys2Proof/Machine/Run.lean ====
section
/-! DEFINITION. Completion of the command in flight by running it, and the placing of a command whose latency has
elapsed. -/

namespace Sys2Proof.Machine

/-- The command in flight completes (60_exceptions.md R310): its word is the command to run, on the snapshot of its
sources. A word in flight always decodes (acceptance checked it). In a state no run reaches, one that does not ends as
the same word written to CMD does, in its decode error. -/
def runWord (w : Word) (s : State) : Host.Outcome State Fault Refusal :=
  match decode w with
  | .ok i => exec i s
  | .error e => .next (s.commandError (decodeErrorCode e))

/-- `s` with the command word `w` in flight, its sources snapshotted and its latency elapsed, and `w` in LASTCMD, as an
accepted CMD write leaves them (10_state.md R41, R48). -/
def State.placeWord (w : Word) (s : State) : State :=
  { s with lastcmd := w, inflight := some { word := w, snap := s.snapshot w, remaining := 0 } }

end Sys2Proof.Machine
end

