-- ==== Sys2Proof/Machine/Step.lean ====
section
/-! DEFINITION. One step of the unit, and where its next command is placed. -/

namespace Sys2Proof.Machine

/-- One step: the completion of a command whose latency has elapsed comes before anything else, and otherwise the next
event of the host is served or time passes (60_exceptions.md R310, R314; 70_reset_and_hazards.md R360). -/
def step (s : State) : Host.Outcome State Fault Refusal :=
  match s.dueWord with
  | some w => runWord w s
  | none => .next s.advance

/-- `s` with a command word in flight so that the next step runs it. The unit fetches nothing (10_state.md R33): the
command record is where it takes its command from. Log entry 10. -/
def State.withFetchWord (s : State) (nbits w : Nat) : State := s.placeWord (BitVec.ofNat 64 (w % 2 ^ nbits))

end Sys2Proof.Machine
end

