-- ==== Sys2Proof/Safety.lean ====
section
/-! DEFINITION. The terms the claims are stated in: the invariant every step keeps, what a completed command leaves
unchanged, which events reset the unit, and what of the state an observer of the timing sees. -/

namespace Sys2Proof.Machine

/-! ### The invariant -/

/-- Every vector register and every scratch vector holds exactly `K` words (10_state.md R30, R50). -/
def State.RegsShaped (s : State) : Prop :=
  (∀ r, (s.reg r).length = s.field.K) ∧ ∀ i : Fin 3, (s.scratch[i]).length = s.field.K

/-- PB is in canonical form and holds no byte at or beyond PACKED_BYTES (10_state.md R46, 20_memory.md R77). -/
def State.PbShaped (s : State) : Prop :=
  s.pb.wf = true ∧ ∀ j, s.field.packedBytes ≤ j → s.pb.read j = 0

/-- ERR is clear exactly when ECODE is 0, and ECODE is never above 0x08 (10_state.md R36, R39, 60_exceptions.md
R301). -/
def State.StatusShaped (s : State) : Prop := (s.err = false ↔ s.ecode = 0) ∧ s.ecode ≤ 8

/-- The command in flight (10_state.md R48): its word is LASTCMD and decodes to a command the field has, its snapshot
is what its sources still hold, and its remaining latency is at most the command's. -/
def State.InflightShaped (s : State) : Prop :=
  ∀ r, s.inflight = some r →
    r.word = s.lastcmd ∧ r.snap = s.snapshot r.word ∧
      ∃ i, decode r.word = .ok i ∧ s.field.hasOp i.op = true ∧ r.remaining ≤ Config.lat i.op s.field

/-- The invariant of the machine. -/
def State.Inv (s : State) : Prop := s.RegsShaped ∧ s.PbShaped ∧ s.StatusShaped ∧ s.InflightShaped

/-- Every vector register, and every source in the snapshot of a command in flight, is Carried (00_scope.md R23). -/
def State.AllCarried (s : State) : Prop :=
  (∀ r, Carried s.field (s.reg r)) ∧
    ∀ q, s.inflight = some q → Carried s.field q.snap.a ∧ Carried s.field q.snap.b

/-! ### What a completed command leaves unchanged

Each predicate names everything that stays and the completion's own effects (60_exceptions.md R310), for a command
with one kind of result. The scratch vectors hold unspecified values after a command (10_state.md R50). -/

/-- What every completed command does to the command interface and leaves of the rest: nothing in flight, DONE set,
CMDCNT counted; FIELD, ERR, ECODE, IE, LASTCMD, the host's events and its last read unchanged. -/
def CompletedFrom (s t : State) : Prop :=
  t.inflight = none ∧ t.done = true ∧ t.cmdcnt = s.cmdcnt + 1 ∧ t.field = s.field ∧ t.err = s.err ∧
    t.ecode = s.ecode ∧ t.ie = s.ie ∧ t.lastcmd = s.lastcmd ∧ t.inputs = s.inputs ∧ t.readData = s.readData

/-- PB reads in `t` as in `s`, at every byte. -/
def SamePb (s t : State) : Prop := ∀ j, t.pb.read j = s.pb.read j

/-- Every vector register holds in `t` what it holds in `s`. -/
def SameRegs (s t : State) : Prop := ∀ r, t.reg r = s.reg r

/-- A completed command whose one result is `x[vd] = v`. -/
def CompletedReg (s t : State) (vd : Reg) (v : DigitVec) : Prop :=
  CompletedFrom s t ∧ t.reg vd = v ∧ (∀ r, r ≠ vd → t.reg r = s.reg r) ∧ t.sres = s.sres ∧ SamePb s t

/-- A completed command whose one result is SRES `= w`. -/
def CompletedSres (s t : State) (w : Word) : Prop :=
  CompletedFrom s t ∧ t.sres = w ∧ SameRegs s t ∧ SamePb s t

/-- A completed command whose one result is PB: byte `j` is `g j` below PACKED_BYTES, every other byte as before. -/
def CompletedPb (s t : State) (g : Nat → Byte) : Prop :=
  CompletedFrom s t ∧ t.sres = s.sres ∧ SameRegs s t ∧ (∀ j, j < s.field.packedBytes → t.pb.read j = g j) ∧
    ∀ j, s.field.packedBytes ≤ j → t.pb.read j = s.pb.read j

/-- A command word that ends in the error `e` (60_exceptions.md R311): ERR and ECODE record it unless an earlier error
stands (10_state.md R39), DONE is set, nothing is in flight, and nothing else changes. -/
def RefusedWith (s t : State) (e : ErrorCode) : Prop :=
  t = { s with
        err := true
        ecode := if s.err then s.ecode else e.code
        done := true
        inflight := none }

/-! ### Events -/

/-- The events that reset the unit (70_reset_and_hazards.md R340): `rst`, and a well-formed write to CTRL with SRST. -/
def HostEvent.resets : HostEvent → Bool
  | .rst => true
  | .write addr width d => accessOk addr width && windowReg addr == some .ctrl && d.getLsbD 1
  | .read _ _ => false
  | .tick => false

/-- The events that store a word of a vector register: a well-formed write to a VREG address (20_memory.md R74). -/
def HostEvent.writesVreg : HostEvent → Bool
  | .write addr width _ =>
    accessOk addr width &&
      match windowReg addr with
      | some (.vreg _ _) => true
      | _ => false
  | .read _ _ => false
  | .tick => false
  | .rst => false

/-! ### What does not depend on data -/

/-- The part of the state the timing and the error reporting of the unit may depend on (00_scope.md R25,
70_reset_and_hazards.md R361): everything but the digits, PB, SRES, the words read, and the free values. -/
structure Timing where
  field : Field
  word : Option Word
  remaining : Option Nat
  done : Bool
  err : Bool
  ecode : BitVec 8
  ie : Bool
  lastcmd : Word
  cmdcnt : Word
  inputs : List HostEvent
deriving DecidableEq, Repr

/-- The timing part of a state. -/
def State.timing (s : State) : Timing where
  field := s.field
  word := s.inflight.map Inflight.word
  remaining := s.inflight.map Inflight.remaining
  done := s.done
  err := s.err
  ecode := s.ecode
  ie := s.ie
  lastcmd := s.lastcmd
  cmdcnt := s.cmdcnt
  inputs := s.inputs

/-- Is `a` a quadratic residue mod `p`, 0 included? -/
def IsSquareMod (p a : Nat) : Prop := ∃ b, b ^ 2 % p = a % p

/-- Is `a` a fourth power mod `p`, 0 included? -/
def IsFourthPowerMod (p a : Nat) : Prop := ∃ b, b ^ 4 % p = a % p

end Sys2Proof.Machine
end

