-- ==== Sys2Proof/Certificates/Slice0/Obligations.lean ====
section
/-! DEFINITION. The statements for the provers, from the numbered rules of spec/. In a statement about a command, `A`
and `B` are its source operands (00_scope.md R17): `s.sourceA va` and `s.sourceB vb`, the snapshot's while the command
is in flight and the registers' where it is issued and completed at once. -/

open Sys2Proof Sys2Proof.Machine

/-! ### Encoding -/

/-- Decoding the command word of a well-formed command gives the command back (30_encoding.md R109, R112). -/
def Obligations.DecodeOfEncodeIsTheCommand : Prop :=
  ∀ i : Instr, i.wellFormed = true → decode (encode i) = .ok i

/-- A word that decodes is the command word of the command it decodes to, and that command is well-formed: no bit is
ignored (30_encoding.md R104, R110). -/
def Obligations.EncodeOfDecodeIsTheWord : Prop :=
  ∀ (w : Word) (i : Instr), decode w = .ok i → encode i = w ∧ i.wellFormed = true

/-- A word decodes to a row's command exactly when `w & mask = match` for that row (30_encoding.md R105). -/
def Obligations.DecoderFollowsTheOpcodeMap : Prop :=
  ∀ (w : Word) (op : Op),
    (∃ i, decode w = .ok i ∧ i.op = op) ↔ w &&& op.fixedBits.mask = op.fixedBits.value

/-- A word is refused with ILLEGAL_OPCODE exactly when its OPC is in one of the ranges of 30_encoding.md R106, whatever
its other fields hold. -/
def Obligations.IllegalOpcodesAreTheUnlistedOnes : Prop :=
  ∀ w : Word,
    decode w = .error .illegalOpcode ↔
      (opcField w).toNat ≤ 0x0f ∨ (0x14 ≤ (opcField w).toNat ∧ (opcField w).toNat ≤ 0x1f) ∨
      (0x23 ≤ (opcField w).toNat ∧ (opcField w).toNat ≤ 0x2f) ∨
      (0x31 ≤ (opcField w).toNat ∧ (opcField w).toNat ≤ 0x3f) ∨
      (0x42 ≤ (opcField w).toNat ∧ (opcField w).toNat ≤ 0x47) ∨
      (0x4c ≤ (opcField w).toNat ∧ (opcField w).toNat ≤ 0x4f) ∨
      (0x53 ≤ (opcField w).toNat ∧ (opcField w).toNat ≤ 0x5f) ∨ 0x6c ≤ (opcField w).toNat

/-- The worked encodings of 30_encoding.md R112, and one word for each remaining family, decode to the command they
stand for. -/
def Obligations.WorkedEncodingsDecode : Prop :=
  decode 0x0000000000021310 = .ok (.add 3 1 2) ∧
  decode 0xFFFFFFFF00001112 = .ok (.adds 1 1 (BitVec.ofInt 32 (-1))) ∧
  decode 0x0000000100000061 = .ok (.ldi 0 1) ∧
  decode 0x000000000000504A = .ok (.leg 5) ∧
  decode 0x0000000700002066 = .ok (.bit 2 7) ∧
  decode 0x0000000000021320 = .ok (.mul 3 1 2) ∧
  decode 0x0000000000001322 = .ok (.sqr 3 1) ∧
  decode 0x0000000000001330 = .ok (.norm 3 1) ∧
  decode 0x0000000000021341 = .ok (.div 3 1 2) ∧
  decode 0x0000000000000352 = .ok (.unpack 3)

/-! ### The life of a command -/

/-- When the latency of the command in flight has elapsed, the step is the effect of the command its word decodes to
(60_exceptions.md R310; that completion is a step of its own is the model's, log entry 11). -/
def Obligations.StepRunsTheDecodedCommand : Prop :=
  ∀ (s : State) (r : Inflight) (i : Instr),
    s.inflight = some r → r.remaining = 0 → decode r.word = .ok i → step s = exec i s

/-- A CMD write while idle whose word decodes to a command the field has is accepted: LASTCMD records the word, and the
word, the snapshot of its sources and its latency go in flight; nothing else changes (60_exceptions.md R310,
10_state.md R41). -/
def Obligations.CmdWriteIsAccepted : Prop :=
  ∀ (s : State) (w : Word) (i : Instr) (rest : List HostEvent),
    s.inflight = none → s.inputs = .write 0x0020 64 w :: rest → decode w = .ok i →
    s.field.hasOp i.op = true →
    step s = .next { s with
      inputs := rest
      lastcmd := w
      inflight := some
        { word := w
          snap := { a := s.reg (vaField w), b := s.reg (vbField w), sres0 := s.sres.getLsbD 0, pb := s.pb }
          remaining := Config.lat i.op s.field } }

/-- A CMD write while idle whose word is refused at decode changes only ERR, ECODE, DONE and LASTCMD: ILLEGAL_OPCODE and
RESERVED_FIELD as the decoder says, NOT_APPLICABLE where the field lacks the command (60_exceptions.md R310, R311). -/
def Obligations.RefusedCommandWordIsPrecise : Prop :=
  ∀ (s : State) (w : Word) (rest : List HostEvent) (e : ErrorCode),
    s.inflight = none → s.inputs = .write 0x0020 64 w :: rest →
    (decode w = .error .illegalOpcode ∧ e = .illegalOpcode ∨
      decode w = .error .reservedField ∧ e = .reservedField ∨
      (∃ i, decode w = .ok i ∧ s.field.hasOp i.op = false) ∧ e = .notApplicable) →
    step s = .next { s with
      inputs := rest
      lastcmd := w
      err := true
      ecode := if s.err then s.ecode else e.code
      done := true }

/-- From an idle unit, a CMD write followed by `LAT` ticks completes as the command's effect on the sources as they
were at the write, whatever the latency is (60_exceptions.md R310, 70_reset_and_hazards.md R360; that the write and the
completion are a step each is the model's, log entry 11). -/
def Obligations.AcceptedCommandCompletesAfterItsLatency : Prop :=
  ∀ (s : State) (w : Word) (i : Instr) (rest : List HostEvent),
    s.inflight = none → decode w = .ok i → s.field.hasOp i.op = true →
    s.inputs = .write 0x0020 64 w :: (List.replicate (Config.lat i.op s.field) .tick ++ rest) →
    Host.Core.run core (Config.lat i.op s.field + 2) s = exec i (State.placeWord w { s with inputs := rest })

/-- A command in flight always completes unless a reset comes: within as many steps as the host has events and the
command has ticks left, and one more, nothing is in flight, DONE is set and CMDCNT has counted it (60_exceptions.md
R310). The premise `Inv` rules out states no run reaches. That time passes where the host has no event left is the
model's (log entry 9). -/
def Obligations.CommandInFlightCompletesUnlessReset : Prop :=
  ∀ (s : State) (r : Inflight),
    s.Inv → s.inflight = some r → (∀ e ∈ s.inputs, e.resets = false) →
    ∃ k t, k ≤ s.inputs.length + r.remaining + 1 ∧ Host.Core.run core k s = .next t ∧
      t.inflight = none ∧ t.done = true ∧ t.cmdcnt = s.cmdcnt + 1

/-- Running a command on the snapshot of its sources is running it on the registers as they are now: the busy window
keeps them (10_state.md R48, 70_reset_and_hazards.md R351). -/
def Obligations.SnapshotIsUnobservable : Prop :=
  ∀ (s : State) (r : Inflight) (i : Instr),
    s.Inv → s.inflight = some r → decode r.word = .ok i →
    exec i s = exec i { s with inflight := none }

/-- Every command the field has completes in every state: nothing in flight, DONE set, CMDCNT counted, no error
recorded, whatever its operands hold (00_scope.md R24, 60_exceptions.md R310, R312). -/
def Obligations.EveryApplicableCommandCompletes : Prop :=
  ∀ (i : Instr) (s : State), s.field.hasOp i.op = true → ∃ t, exec i s = .next t ∧ CompletedFrom s t

/-- The effect of SQRT and ISQRT in a field with `p ≡ 1 (mod 8)`, and of LEGQ outside class 1, is NOT_APPLICABLE: ERR and
ECODE record it, DONE is set, nothing is in flight and nothing else changes (30_encoding.md R108, 60_exceptions.md
R303). In the five fields of the table only LEGQ in E-130, Curve41417 and E-521 is such. A CMD write is refused before
acceptance (`RefusedCommandWordIsPrecise`); that `exec` refuses the command too, also with a record in flight, which it
drops, is the model's choice (log entries 10, 15 and 16). -/
def Obligations.MissingOperationIsNotApplicable : Prop :=
  (∀ (row : FieldId) (op : Op),
    (Field.table row).hasOp op = false ↔ op = .legq ∧ (row = .e130 ∨ row = .curve41417 ∨ row = .e521)) ∧
  ∀ (s : State) (vd va : Reg),
    (s.field.p % 8 = 1 →
      (∃ t, exec (.sqrt vd va) s = .next t ∧ RefusedWith s t .notApplicable) ∧
      (∃ t, exec (.isqrt vd va) s = .next t ∧ RefusedWith s t .notApplicable)) ∧
    (s.field.p % 4 = 3 ∨ s.field.p % 8 = 1 →
      ∃ t, exec (.legq va) s = .next t ∧ RefusedWith s t .notApplicable)

/-- Exactly LEG, LEGQ, EQ, EQN, SIGN, SIGNN, BIT and BITN write SRES (10_state.md R35): each of them, where the field
has it, has SRES as its one result, the same word whatever SRES held before, and every other command, and a command that
ends in an error, leaves it. MASKS reads SRES bit 0: it is MASK by that bit. -/
def Obligations.ScalarCommandsAloneWriteSres : Prop :=
  (∀ (s : State) (vd va : Reg), s.inflight = none →
    exec (.masks vd va) s = exec (.mask vd va (if s.sres.getLsbD 0 then 1 else 0)) s) ∧
  ∀ (i : Instr) (s : State),
    if i.op ∈ [Op.leg, .legq, .eq, .eqn, .sign, .signn, .bit, .bitn] ∧ s.field.hasOp i.op = true then
      ∃ w, ∀ old : Word, ∃ t,
        exec i { s with sres := old } = .next t ∧ CompletedSres { s with sres := old } t w
    else ∃ t, exec i s = .next t ∧ t.sres = s.sres

/-! ### Invariants and noninterference -/

/-- The invariant holds at reset, in every field. -/
def Obligations.InvariantHoldsAtReset : Prop := (∀ f, (State.resetOf f).Inv) ∧ State.reset.Inv

/-- Every step keeps the invariant: the shapes of the registers and of PB, ERR against ECODE, and the command in flight
against LASTCMD and its sources (10_state.md R30, R39, R46, R48). -/
def Obligations.EveryStepKeepsTheInvariant : Prop := ∀ s t : State, s.Inv → step s = .next t → t.Inv

/-- Only a host write through the VREG window can store a vector that is not Carried (00_scope.md R23): every step from
registers that are all Carried leaves them all Carried, unless it serves a VREG write while no command is in flight. A
completion with a VREG write next in the queue, and a VREG write that is dropped while busy, are among those that do. -/
def Obligations.OnlyVregWritesBreakCarried : Prop :=
  ∀ s t : State,
    s.field.shapeOk = true → s.AllCarried →
    (s.busy = false → ∀ e rest, s.inputs = e :: rest → e.writesVreg = false) →
    step s = .next t → t.AllCarried

/-- Constant time (00_scope.md R25, 70_reset_and_hazards.md R361): two states with the same timing part step to states
with the same timing part, whatever their registers, PB, SRES and snapshots hold. -/
def Obligations.TimingDoesNotDependOnData : Prop :=
  ∀ s s' t : State,
    s.timing = s'.timing → step s = .next t → ∃ t', step s' = .next t' ∧ t.timing = t'.timing

/-- No command reads a value that an earlier command left in S0 to S2, and no host access reaches them (10_state.md
R50): changing them changes nothing else in the next state. -/
def Obligations.ScratchVectorsAreUnobservable : Prop :=
  ∀ (s t : State) (v : Vector DigitVec 3),
    step s = .next t → ∃ u, step { s with scratch := v } = .next u ∧ { u with scratch := t.scratch } = t

/-! ### Reset -/

/-- Reset, by the reset input or by a CTRL write with SRST, puts every piece of state into the value of the table of
10_state.md R55, from every state. -/
def Obligations.ResetPutsEveryRegisterToItsTableValue : Prop :=
  ∀ s : State,
    (∀ r j, j < s.field.K → digit (s.hardReset.reg r) j = 0) ∧
    (∀ r, s.hardReset.reg r = canon s.field 0) ∧
    (∀ j, j < s.field.packedBytes → s.hardReset.pb.read j = 0) ∧ s.hardReset.sres = 0 ∧ s.hardReset.statusWord = 0 ∧
    s.hardReset.ie = false ∧ s.hardReset.lastcmd = 0 ∧ s.hardReset.cmdcnt = 0 ∧
    s.hardReset.inflight = none ∧ s.hardReset.irq = false ∧ s.hardReset.field = s.field ∧
    s.event .rst = s.hardReset ∧ ∀ d : Word, d.getLsbD 1 = true → s.event (.write 0x0018 64 d) = s.hardReset

/-- The reset input, and a CTRL write with SRST set, also while a command is in flight, reset the unit: the command is
abandoned, none of its results are written, and the IE bit of the write is discarded (70_reset_and_hazards.md R340,
R341); nothing is said of S0 to S2 (10_state.md R55). A command whose latency has elapsed completes first (log entry
11). -/
def Obligations.SoftResetAndRstAbandonTheCommand : Prop :=
  ∀ (s : State) (d : Word) (rest : List HostEvent),
    s.dueWord = none → d.getLsbD 1 = true →
    (s.inputs = .rst :: rest ∨ s.inputs = .write 0x0018 64 d :: rest) →
    ∃ v, step s = .next { State.resetOf s.field with
      inputs := rest, readData := s.readData, draws := s.draws, scratch := v }

/-! ### The host window -/

/-- The host window map (20_memory.md R73, R74, R76): the seven scalar registers, the nine PBUF words, the sixteen slots
of each of the sixteen registers, and no other aligned address. -/
def Obligations.WindowMapIsTheSpecs : Prop :=
  windowReg 0x0000 = some .id0 ∧ windowReg 0x0008 = some .id1 ∧ windowReg 0x0010 = some .status ∧
  windowReg 0x0018 = some .ctrl ∧ windowReg 0x0020 = some .cmd ∧ windowReg 0x0028 = some .sres ∧
  windowReg 0x0030 = some .cmdcnt ∧
  (∀ w, w < 9 → windowReg (BitVec.ofNat 16 (0x0100 + 8 * w)) = some (.pbuf w)) ∧
  (∀ (i : Reg) (j : Nat), j < 16 →
    windowReg (BitVec.ofNat 16 (0x1000 + 0x80 * i.toNat + 8 * j)) = some (.vreg i j)) ∧
  ∀ a : BitVec 16, a.toNat % 8 = 0 →
    (windowReg a = none ↔
      0x0030 < a.toNat ∧ a.toNat < 0x0100 ∨ 0x0147 < a.toNat ∧ a.toNat < 0x1000 ∨ 0x17ff < a.toNat)

/-- A refused host access changes nothing but ERR and ECODE, in the priority BAD_ACCESS, BAD_ADDRESS, RO_WRITE,
BUSY_CMD or BUSY_ACCESS, and a refused read returns 0 (60_exceptions.md R305 to R309, R311, R313). -/
def Obligations.RefusedHostAccessIsPrecise : Prop :=
  ∀ (s : State) (a : BitVec 16) (width : Nat) (d : Word) (rest : List HostEvent),
    s.dueWord = none →
    (s.inputs = .read a width :: rest →
      (¬(width = 64 ∧ a.toNat % 8 = 0) →
        step s = .next { s with
          inputs := rest, readData := 0, err := true
          ecode := if s.err then s.ecode else ErrorCode.badAccess.code }) ∧
      (width = 64 ∧ a.toNat % 8 = 0 → windowReg a = none →
        step s = .next { s with
          inputs := rest, readData := 0, err := true
          ecode := if s.err then s.ecode else ErrorCode.badAddress.code })) ∧
    (s.inputs = .write a width d :: rest →
      (¬(width = 64 ∧ a.toNat % 8 = 0) →
        step s = .next { s with
          inputs := rest, err := true
          ecode := if s.err then s.ecode else ErrorCode.badAccess.code }) ∧
      (width = 64 ∧ a.toNat % 8 = 0 → windowReg a = none →
        step s = .next { s with
          inputs := rest, err := true
          ecode := if s.err then s.ecode else ErrorCode.badAddress.code }) ∧
      (width = 64 → a = 0x0000 ∨ a = 0x0008 ∨ a = 0x0028 ∨ a = 0x0030 →
        step s = .next { s with
          inputs := rest, err := true
          ecode := if s.err then s.ecode else ErrorCode.roWrite.code }) ∧
      (width = 64 → a = 0x0020 → s.busy = true →
        step s = .next { s with
          inputs := rest, err := true
          ecode := if s.err then s.ecode else ErrorCode.busyCmd.code }) ∧
      (∀ v, width = 64 ∧ a.toNat % 8 = 0 → s.busy = true →
        (∃ w, v = .pbuf w) ∨ (∃ i j, v = .vreg i j) → windowReg a = some v →
        step s = .next { s with
          inputs := rest, err := true
          ecode := if s.err then s.ecode else ErrorCode.busyAccess.code }))

/-- A well-formed read of a mapped address returns what the address names and changes nothing else (20_memory.md R73,
R84, 70_reset_and_hazards.md R353), except that a read of VREG, PBUF or SRES while busy returns some word, a free value
(R352). -/
def Obligations.MappedReadsHaveNoSideEffects : Prop :=
  ∀ (s : State) (a : BitVec 16) (rest : List HostEvent) (r : WindowReg),
    s.dueWord = none → s.inputs = .read a 64 :: rest → a.toNat % 8 = 0 → windowReg a = some r →
    (s.busy = false ∨ r = .id0 ∨ r = .id1 ∨ r = .status ∨ r = .ctrl ∨ r = .cmd ∨ r = .cmdcnt →
      ∃ d, step s = .next { s with inputs := rest, readData := d } ∧
        (r = .id0 → d = s.field.id0) ∧ (r = .id1 → d = s.field.id1) ∧ (r = .status → d = s.statusWord) ∧
        (r = .ctrl → d = s.ctrlWord) ∧ (r = .cmd → d = s.lastcmd) ∧ (r = .sres → d = s.sres) ∧
        (r = .cmdcnt → d = s.cmdcnt) ∧ (∀ w, r = .pbuf w → d = s.pbufWord w) ∧
        ∀ i j, r = .vreg i j → d = s.slot i j) ∧
    ∃ w k, step s = .next { s with inputs := rest, readData := w, draws := k }

/-- While no command is in flight, slot `j` of the VREG window of register `i` is digit `x[i][j]`: a read returns it, a
write changes only it, and a slot at or beyond `K` reads as 0 and ignores a write (20_memory.md R74, R75). The premise on
the registers' shape holds in every state a run reaches. -/
def Obligations.VregWindowIsTheDigits : Prop :=
  ∀ (s : State) (i : Reg) (j : Nat) (rest : List HostEvent),
    s.RegsShaped → s.inflight = none → j < 16 →
    (s.inputs = .read (BitVec.ofNat 16 (0x1000 + 0x80 * i.toNat + 8 * j)) 64 :: rest →
      step s = .next { s with inputs := rest, readData := if j < s.field.K then digit (s.reg i) j else 0 }) ∧
    ∀ d, s.inputs = .write (BitVec.ofNat 16 (0x1000 + 0x80 * i.toNat + 8 * j)) 64 d :: rest →
      ∃ t, step s = .next t ∧ t = { s with inputs := rest, x := t.x } ∧
        (j < s.field.K → digit (t.reg i) j = d) ∧ (s.field.K ≤ j → t.reg i = s.reg i) ∧
        ∀ (i' : Reg) (j' : Nat), ¬(i' = i ∧ j' = j) → digit (t.reg i') j' = digit (s.reg i') j'

/-- While no command is in flight, PBUF word `w` is the bytes `PB[8w]` to `PB[8w+7]`, lane 0 least significant: a read
returns them, a write stores them, a lane at or beyond PACKED_BYTES reads as 0 and ignores a write, and every other byte
of PB is as before (20_memory.md R76, R77). -/
def Obligations.PbufWindowIsTheBytes : Prop :=
  ∀ (s : State) (w : Nat) (rest : List HostEvent),
    s.PbShaped → s.inflight = none → w < 9 →
    (s.inputs = .read (BitVec.ofNat 16 (0x0100 + 8 * w)) 64 :: rest →
      ∃ d, step s = .next { s with inputs := rest, readData := d } ∧
        ∀ k, k < 8 → d.extractLsb' (8 * k) 8 =
          if 8 * w + k < s.field.packedBytes then s.pb.read (8 * w + k) else 0) ∧
    ∀ d, s.inputs = .write (BitVec.ofNat 16 (0x0100 + 8 * w)) 64 d :: rest →
      ∃ t, step s = .next t ∧ t = { s with inputs := rest, pb := t.pb } ∧
        (∀ k, k < 8 → 8 * w + k < s.field.packedBytes → t.pb.read (8 * w + k) = d.extractLsb' (8 * k) 8) ∧
        ∀ j, j / 8 ≠ w ∨ s.field.packedBytes ≤ j → t.pb.read j = s.pb.read j

/-- STATUS and CTRL writes are taken even while busy and are never an error (10_state.md R36, R40): a STATUS write
clears DONE by its bit 1 and ERR with ECODE by its bit 2; a CTRL write without SRST sets IE to its bit 0. -/
def Obligations.StatusAndCtrlWritesAreTaken : Prop :=
  ∀ (s : State) (d : Word) (rest : List HostEvent),
    s.dueWord = none →
    (s.inputs = .write 0x0010 64 d :: rest →
      step s = .next { s with
        inputs := rest
        done := s.done && !d.getLsbD 1
        err := s.err && !d.getLsbD 2
        ecode := if d.getLsbD 2 then 0 else s.ecode }) ∧
    (s.inputs = .write 0x0018 64 d :: rest → d.getLsbD 1 = false →
      step s = .next { s with inputs := rest, ie := d.getLsbD 0 })

/-- STATUS reads as its fields at their places, every reserved bit 0, and CTRL as IE in bit 0 (10_state.md R36, R40);
the interrupt output is DONE and IE (R49). -/
def Obligations.StatusWordHoldsItsFields : Prop :=
  ∀ s : State,
    s.statusWord.getLsbD 0 = s.inflight.isSome ∧ s.statusWord.getLsbD 1 = s.done ∧
    s.statusWord.getLsbD 2 = s.err ∧ s.statusWord.extractLsb' 8 8 = s.ecode ∧
    (∀ k, 3 ≤ k ∧ k ≤ 7 ∨ 16 ≤ k → s.statusWord.getLsbD k = false) ∧
    s.ctrlWord.getLsbD 0 = s.ie ∧ (∀ k, 1 ≤ k → s.ctrlWord.getLsbD k = false) ∧
    (s.irq = true ↔ s.statusWord.getLsbD 1 = true ∧ s.ctrlWord.getLsbD 0 = true)

/-! ### Fields and their constants -/

/-- Every row of the parameter table satisfies the identities of 00_scope.md R8, and has the square-root class of R10
and the ID0 and ID1 of 10_state.md R43. -/
def Obligations.TableRowsHaveTheirDerivedConstants : Prop :=
  (∀ row, (Field.table row).shapeOk = true) ∧
  (Field.table .e130).sqrtClass = .class0 ∧ (Field.table .m221).sqrtClass = .class1 ∧
  (Field.table .curve41417).sqrtClass = .class0 ∧ (Field.table .m511).sqrtClass = .class1 ∧
  (Field.table .e521).sqrtClass = .class0 ∧
  (Field.table .e130).id0 = 0x1D0E3A0300050082 ∧ (Field.table .e130).id1 = 0x0000000100001011 ∧
  (Field.table .m221).id0 = 0x1D2F3A04000300DD ∧ (Field.table .m221).id1 = 0x000000010101101C ∧
  (Field.table .curve41417).id0 = 0x1C1638080011019E ∧ (Field.table .curve41417).id1 = 0x0000000100021034 ∧
  (Field.table .m511).id0 = 0x1B19360A00BB01FF ∧ (Field.table .m511).id1 = 0x0000000101031040 ∧
  (Field.table .e521).id0 = 0x1B23360A00010209 ∧ (Field.table .e521).id1 = 0x0000000100041042

/-- `SQRT_COEFF_M1` is `2^((p-1)/4) mod p`, present in class-1 fields only; in the class-1 rows it has the value of
10_state.md R53 and is a square root of -1, and `INV_SQRT_COEFF_M1` has the value of R54. -/
def Obligations.SqrtCoefficientsAreTheSpecs : Prop :=
  (Field.table .m221).sqrtCoeffM1 = 0x8c06d788863cdd6e73800ee6c4e4e461267b23c06b158a371015618 ∧
  (Field.table .m511).sqrtCoeffM1 =
    0xecda5605ac73ca62d360dd35afc67fcb2d9d627c653c0cdcff56cdde9b115862a4216356433c83fdf4744e63847e9b2a6526b3ddabf1019abca2025f19a0806 ∧
  (Field.table .m221).invSqrtCoeffM1 = 0x173f9287779c322918c7ff1193b1b1b9ed984dc3f94ea75c8efea9e5 ∧
  (Field.table .m511).invSqrtCoeffM1 =
    0x71325a9fa538c359d2c9f22ca50398034d2629d839ac3f32300a9322164eea79d5bde9ca9bcc37c020b8bb19c7b8164d59ad94c22540efe65435dfda0e65f73f ∧
  (∀ f : Field, f.sqrtCoeffM1 = 2 ^ ((f.p - 1) / 4) % f.p) ∧
  (∀ f : Field, (constSqrtCoeff f).isSome = true ↔ f.sqrtClass = .class1) ∧
  ∀ row, (Field.table row).sqrtClass = .class1 →
    (Field.table row).sqrtCoeffM1 ^ 2 % (Field.table row).p = (Field.table row).p - 1

/-! ### Digit vectors -/

/-- `canon(r)` for `r < 2^n` (00_scope.md R20): its digits, its top digit below `2^H`, its other digits below `2^W`, and
`val(canon(r)) = r`. -/
def Obligations.CanonRepresentsItsInteger : Prop :=
  ∀ (f : Field) (r : Nat), f.shapeOk = true → r < 2 ^ f.n →
    (∀ j, j < f.K - 1 →
      digit (canon f r) j = BitVec.ofNat 64 (r / 2 ^ (f.W * j) % 2 ^ f.W) ∧ (digit (canon f r) j).toNat < 2 ^ f.W) ∧
    digit (canon f r) (f.K - 1) = BitVec.ofNat 64 (r / 2 ^ (f.W * (f.K - 1))) ∧
    (digit (canon f r) (f.K - 1)).toNat < 2 ^ f.H ∧ val f (canon f r) = r

/-- The representation law of ADDCORE in the five fields, for all input words (40_adder.md R121 (a) to (d)). -/
def Obligations.AdderCoreRepresentationLaw : Prop :=
  ∀ (row : FieldId) (f : Field) (a b : DigitVec) (sgn : Int),
    f = .table row → (sgn = 1 ∨ sgn = -1) →
    val f (addCore f a b sgn) = val f a + sgn * val f b - addCin f a b sgn * f.p ∧
    (modp f (addCore f a b sgn) : Int) = (modp f a + sgn * modp f b) % f.p ∧
    Carried f (addCore f a b sgn) ∧
    sdigit (addCore f a b sgn) (f.K - 1) = addTop f a b sgn ∧
    (Carried f a → Carried f b →
      (sgn = 1 → -1 ≤ sdigit (addCore f a b sgn) (f.K - 1) ∧ sdigit (addCore f a b sgn) (f.K - 1) ≤ 2 ^ (f.H + 1)) ∧
      (sgn = -1 → -2 ^ f.H - 1 ≤ sdigit (addCore f a b sgn) (f.K - 1) ∧
        sdigit (addCore f a b sgn) (f.K - 1) ≤ 2 ^ f.H))

/-- `fold` is the loop of 43_reducer.md R165, and has the properties of R166 (a) to (f). -/
def Obligations.FoldEndsInRangeAndKeepsTheResidue : Prop :=
  ∀ (f : Field) (x : Int), f.shapeOk = true →
    (fold f x : Int) = (if x < 0 ∨ 2 ^ f.n ≤ x then (fold f (x % 2 ^ f.n + f.c * (x / 2 ^ f.n)) : Int) else x) ∧
    (2 ^ f.n ≤ x → foldOnce f x < x) ∧ (x < 0 → x + (2 ^ f.n - f.c) ≤ foldOnce f x) ∧
    fold f x < 2 ^ f.n ∧ (fold f x : Int) % f.p = x % f.p ∧
    (0 ≤ x → x < 2 ^ f.n → (fold f x : Int) = x) ∧
    Carried f (canon f (fold f x)) ∧ (digit (canon f (fold f x)) (f.K - 1)).toNat < 2 ^ f.H ∧
    (f.p ≤ fold f x → fold f x - f.p < f.c)

/-- NORM's laws (43_reducer.md R169): idempotent, equal results exactly for the same field element, and the normalized
vectors exactly its fixed points. -/
def Obligations.NormIsCanonical : Prop :=
  ∀ (f : Field) (a b : DigitVec), f.shapeOk = true →
    canon f (modp f (canon f (modp f a))) = canon f (modp f a) ∧
    (canon f (modp f a) = canon f (modp f b) ↔ modp f a = modp f b) ∧
    (a.length = f.K → (Normalized f a ↔ canon f (modp f a) = a))

/-- The fixed left-to-right chain of squarer and multiplier steps on digit vectors computes the power
(44_inverse_engine.md R180). -/
def Obligations.FixedChainComputesThePower : Prop :=
  ∀ (f : Field) (a : DigitVec) (e : Nat), f.shapeOk = true → 0 < e →
    chainPow f a e = canon f (modp f a ^ e % f.p) ∧ powMod f.p (modp f a) e = modp f a ^ e % f.p

/-! ### The adder, the multiplier, the squarer and the reducer -/

/-- ADD, SUB, ADDS and NEG complete with the digits of ADDCORE on their operands, a Carried vector, and nothing else
changes (40_adder.md R122 to R125); in the five fields the result is the sum or difference of the operands mod `p` (in
other fields log entry 13). -/
def Obligations.AdderCommandsGiveSumAndDifference : Prop :=
  ∀ (s : State) (vd va vb : Reg) (imm : Imm), s.field.shapeOk = true →
    (∃ t v, exec (.add vd va vb) s = .next t ∧ CompletedReg s t vd v ∧ Carried s.field v ∧
      v = addCore s.field (s.sourceA va) (s.sourceB vb) 1 ∧
      ∀ row, s.field = .table row →
        modp s.field v = (modp s.field (s.sourceA va) + modp s.field (s.sourceB vb)) % s.field.p) ∧
    (∃ t v, exec (.sub vd va vb) s = .next t ∧ CompletedReg s t vd v ∧ Carried s.field v ∧
      v = addCore s.field (s.sourceA va) (s.sourceB vb) (-1) ∧
      ∀ row, s.field = .table row →
        (modp s.field v : Int) = ((modp s.field (s.sourceA va) : Int) - modp s.field (s.sourceB vb)) % s.field.p) ∧
    (∃ t v, exec (.adds vd va imm) s = .next t ∧ CompletedReg s t vd v ∧ Carried s.field v ∧
      v = addCore s.field (s.sourceA va) (smallVec s.field imm.toInt) 1 ∧
      ∀ row, s.field = .table row →
        (modp s.field v : Int) = ((modp s.field (s.sourceA va) : Int) + imm.toInt) % s.field.p) ∧
    (∃ t v, exec (.neg vd va) s = .next t ∧ CompletedReg s t vd v ∧ Carried s.field v ∧
      v = addCore s.field (canon s.field 0) (s.sourceA va) (-1) ∧
      ∀ row, s.field = .table row →
        (modp s.field v : Int) = (-(modp s.field (s.sourceA va) : Int)) % s.field.p)

/-- MUL, MULS and SQR complete with `canon(fold(x))` of the exact product, whose field element is the product mod `p`;
nothing else changes (41_multiplier.md R140 to R142, 42_squarer.md R155). -/
def Obligations.MultiplierCommandsGiveTheProduct : Prop :=
  ∀ (s : State) (vd va vb : Reg) (imm : Imm), s.field.shapeOk = true →
    (∃ t v, exec (.mul vd va vb) s = .next t ∧ CompletedReg s t vd v ∧ Carried s.field v ∧
      v = canon s.field (fold s.field (val s.field (s.sourceA va) * val s.field (s.sourceB vb))) ∧
      modp s.field v = modp s.field (s.sourceA va) * modp s.field (s.sourceB vb) % s.field.p) ∧
    (∃ t v, exec (.muls vd va imm) s = .next t ∧ CompletedReg s t vd v ∧ Carried s.field v ∧
      v = canon s.field (fold s.field (val s.field (s.sourceA va) * imm.toInt)) ∧
      (modp s.field v : Int) = (modp s.field (s.sourceA va) : Int) * imm.toInt % s.field.p) ∧
    (∃ t v, exec (.sqr vd va) s = .next t ∧ CompletedReg s t vd v ∧ Carried s.field v ∧
      v = canon s.field (fold s.field (val s.field (s.sourceA va) ^ 2)) ∧
      modp s.field v = modp s.field (s.sourceA va) ^ 2 % s.field.p)

/-- `SQR vd, va` and `MUL vd, va, va` write identical words for every `A` (42_squarer.md R157), and MUL is commutative
digit for digit (41_multiplier.md R146). The command in flight holds both sources, so the equality is stated where
none is in flight. -/
def Obligations.SquareIsTheProductWithItself : Prop :=
  ∀ (s : State) (vd va vb : Reg), s.inflight = none →
    exec (.sqr vd va) s = exec (.mul vd va va) s ∧ exec (.mul vd va vb) s = exec (.mul vd vb va) s

/-- NORM completes with the normalized vector of its operand's field element; nothing else changes (43_reducer.md
R167). -/
def Obligations.NormGivesTheCanonicalForm : Prop :=
  ∀ (s : State) (vd va : Reg), s.field.shapeOk = true →
    ∃ t v, exec (.norm vd va) s = .next t ∧ CompletedReg s t vd v ∧ Normalized s.field v ∧
      (val s.field v : Int) = val s.field (s.sourceA va) % s.field.p ∧
      modp s.field v = modp s.field (s.sourceA va)

/-- The additive inverse law (40_adder.md R126), on digit vectors, and as commands: after `ADD d, a, b; SUB e, d, a`,
`EQ e, b` writes 1. -/
def Obligations.AddThenSubtractGivesBack : Prop :=
  (∀ (row : FieldId) (f : Field) (a b : DigitVec), f = .table row →
    modp f (addCore f (addCore f a b 1) a (-1)) = modp f b) ∧
  ∀ (row : FieldId) (s : State) (va vb vd ve : Reg), s.field = .table row → s.inflight = none →
    vd ≠ va → vd ≠ vb → ve ≠ vb →
    ∃ t1 t2 t3, exec (.add vd va vb) s = .next t1 ∧ exec (.sub ve vd va) t1 = .next t2 ∧
      exec (.eq ve vb) t2 = .next t3 ∧ t3.sres = 1

/-! ### The inverse and square-root engines -/

/-- INV completes with the normalized `a^(p-2) mod p`, the inverse of a nonzero `a` and 0 for 0; nothing else changes
(44_inverse_engine.md R183). -/
def Obligations.InvGivesTheInverse : Prop :=
  ∀ (s : State) (vd va : Reg), s.field.Admissible →
    ∃ t v, exec (.inv vd va) s = .next t ∧ CompletedReg s t vd v ∧ Normalized s.field v ∧
      v = canon s.field (modp s.field (s.sourceA va) ^ (s.field.p - 2) % s.field.p) ∧
      (modp s.field (s.sourceA va) ≠ 0 → modp s.field v * modp s.field (s.sourceA va) % s.field.p = 1) ∧
      (modp s.field (s.sourceA va) = 0 → v = canon s.field 0)

/-- DIV completes with the normalized quotient, and 0 for a zero divisor; nothing else changes (44_inverse_engine.md
R184). -/
def Obligations.DivGivesTheQuotient : Prop :=
  ∀ (s : State) (vd va vb : Reg), s.field.Admissible →
    ∃ t v, exec (.div vd va vb) s = .next t ∧ CompletedReg s t vd v ∧ Normalized s.field v ∧
      v = canon s.field (modp s.field (s.sourceA va) *
        (modp s.field (s.sourceB vb) ^ (s.field.p - 2) % s.field.p) % s.field.p) ∧
      (modp s.field (s.sourceB vb) ≠ 0 →
        modp s.field v * modp s.field (s.sourceB vb) % s.field.p = modp s.field (s.sourceA va)) ∧
      (modp s.field (s.sourceB vb) = 0 → v = canon s.field 0)

/-- SQRT in a field that has it completes with a normalized vector, a square root of a square; in class 0 it is
`a^((p+1)/4) mod p` for every `a`, and in class 1 the value of 45_sqrt_engine.md R202, where a non-residue gives the
OPEN value and nothing is said of it (R200 to R202, R205). -/
def Obligations.SqrtGivesASquareRoot : Prop :=
  ∀ (s : State) (vd va : Reg) (a : Nat),
    s.field.Admissible → s.field.p % 4 = 3 ∨ s.field.p % 8 = 5 → a = modp s.field (s.sourceA va) →
    ∃ t v, exec (.sqrt vd va) s = .next t ∧ CompletedReg s t vd v ∧ Normalized s.field v ∧
      (IsSquareMod s.field.p a → modp s.field v ^ 2 % s.field.p = a) ∧
      (s.field.p % 4 = 3 → v = canon s.field (a ^ ((s.field.p + 1) / 4) % s.field.p)) ∧
      (s.field.p % 8 = 5 → a ≠ 0 → a ^ ((s.field.p - 1) / 4) % s.field.p = 1 →
        v = canon s.field (a ^ ((s.field.p + 3) / 8) % s.field.p)) ∧
      (s.field.p % 8 = 5 → a ^ ((s.field.p - 1) / 4) % s.field.p = s.field.p - 1 →
        v = canon s.field
          (a ^ ((s.field.p + 3) / 8) * 2 ^ ((s.field.p - 1) / 4) % s.field.p))

/-- ISQRT in a field that has it completes with a normalized vector: the inverse of the square root of a nonzero square,
and 0 for 0; a non-residue gives the OPEN value (45_sqrt_engine.md R207 to R209). -/
def Obligations.IsqrtGivesTheInverseSquareRoot : Prop :=
  ∀ (s : State) (vd va : Reg) (a : Nat),
    s.field.Admissible → s.field.p % 4 = 3 ∨ s.field.p % 8 = 5 → a = modp s.field (s.sourceA va) →
    ∃ t v, exec (.isqrt vd va) s = .next t ∧ CompletedReg s t vd v ∧ Normalized s.field v ∧
      (a = 0 → v = canon s.field 0) ∧
      (a ≠ 0 → IsSquareMod s.field.p a →
        modp s.field v ^ 2 * a % s.field.p = 1 ∧
          modp s.field v = sqrtV s.field a ^ (s.field.p - 2) % s.field.p)

/-- LEG completes with +1 in SRES for a nonzero square, -1 for a non-residue, and the OPEN `LEG_ZERO` for 0; no vector
register is written (45_sqrt_engine.md R210, R211, R214). -/
def Obligations.LegGivesTheLegendreSymbol : Prop :=
  ∀ (s : State) (va : Reg) (a : Nat), s.field.Admissible → a = modp s.field (s.sourceA va) →
    ∃ t w, exec (.leg va) s = .next t ∧ CompletedSres s t w ∧
      (a ≠ 0 → IsSquareMod s.field.p a → w = 0x0000000000000001) ∧
      (¬IsSquareMod s.field.p a → w = 0xFFFFFFFFFFFFFFFF) ∧
      (a = 0 → w = wordOf (signInt (Config.legZero s.field)))

/-- LEGQ in class 1 completes with +1 in SRES for a nonzero fourth power, -1 for any other nonzero square, and the OPEN
`LEGQ_OTHER(a)` for 0 and for a non-residue (45_sqrt_engine.md R215, R216, R219). -/
def Obligations.LegqGivesTheQuarticSymbol : Prop :=
  ∀ (s : State) (va : Reg) (a : Nat),
    s.field.Admissible → s.field.p % 8 = 5 → a = modp s.field (s.sourceA va) →
    ∃ t w, exec (.legq va) s = .next t ∧ CompletedSres s t w ∧
      (a ≠ 0 → IsFourthPowerMod s.field.p a → w = 0x0000000000000001) ∧
      (IsSquareMod s.field.p a → ¬IsFourthPowerMod s.field.p a → w = 0xFFFFFFFFFFFFFFFF) ∧
      (a = 0 ∨ ¬IsSquareMod s.field.p a → w = wordOf (signInt (Config.legqOther s.field a)))

/-- The residue law (45_sqrt_engine.md R213): on a nonzero element LEG writes +1 or -1, and where it writes +1 in a field
that has SQRT, SQRT `vd, va` then SQR `vd, vd` then NORM gives `canon(a)`; on 0 it writes `LEG_ZERO`. -/
def Obligations.ResidueLaw : Prop :=
  ∀ (s : State) (vd va : Reg) (a : Nat),
    s.field.Admissible → s.inflight = none → a = modp s.field (s.reg va) →
    ∃ t, exec (.leg va) s = .next t ∧
      (a = 0 → t.sres = wordOf (signInt (Config.legZero s.field))) ∧
      (a ≠ 0 → t.sres = 1 ∨ t.sres = 0xFFFFFFFFFFFFFFFF) ∧
      (s.field.p % 4 = 3 ∨ s.field.p % 8 = 5 → a ≠ 0 → t.sres = 1 →
        ∃ t1 t2 t3, exec (.sqrt vd va) t = .next t1 ∧ exec (.sqr vd vd) t1 = .next t2 ∧
          exec (.norm vd vd) t2 = .next t3 ∧ t3.reg vd = canon s.field a)

/-- The quartic residue law (45_sqrt_engine.md R218), for class 1 and a nonzero square `a`: LEG of the root SQRT gives
writes what LEGQ of `a` writes, and where that is +1 the root of the root is a fourth root of `a`. -/
def Obligations.QuarticResidueLaw : Prop :=
  ∀ (s : State) (vd va : Reg) (a : Nat),
    s.field.Admissible → s.field.p % 8 = 5 → s.inflight = none → a = modp s.field (s.reg va) → a ≠ 0 →
    IsSquareMod s.field.p a →
    ∃ t1 t2 t3, exec (.sqrt vd va) s = .next t1 ∧ exec (.leg vd) t1 = .next t2 ∧ exec (.legq va) s = .next t3 ∧
      t1.reg vd = canon s.field (sqrtV s.field a) ∧ t2.sres = t3.sres ∧
      (t3.sres = 1 → sqrtV s.field (sqrtV s.field a) ^ 4 % s.field.p = a)

/-- For `a` nonzero, INV of INV is NORM, also in place, `MUL` of `A` and its INV then NORM is `canon(1)`, and DIV of `A`
by itself is `canon(1)`; for 0 all three give `canon(0)` (44_inverse_engine.md R185). -/
def Obligations.InverseLaws : Prop :=
  ∀ (s : State) (va vi vd : Reg), s.field.Admissible → s.inflight = none →
    ∃ t1 t2 t3, exec (.inv vi va) s = .next t1 ∧ exec (.inv vd vi) t1 = .next t2 ∧
      exec (.div vd va va) s = .next t3 ∧
      t2.reg vd = canon s.field (modp s.field (s.reg va)) ∧
      t3.reg vd = canon s.field (if modp s.field (s.reg va) = 0 then 0 else 1) ∧
      (vi ≠ va → ∃ t4 t5, exec (.mul vd va vi) t1 = .next t4 ∧ exec (.norm vd vd) t4 = .next t5 ∧
        t5.reg vd = canon s.field (if modp s.field (s.reg va) = 0 then 0 else 1))

/-! ### The codec -/

/-- PACK completes with the bytes of `modp(A)` in PB, whose integer is `modp(A)`, so that the padding bits are 0; no
register is written (46_codec.md R231). -/
def Obligations.PackSerializesTheElement : Prop :=
  ∀ (s : State) (va : Reg), s.field.shapeOk = true → s.pb.wf = true →
    ∃ t, exec (.pack va) s = .next t ∧ CompletedPb s t (packByte (modp s.field (s.sourceA va))) ∧
      unpackInt s.field t.pb = modp s.field (s.sourceA va) ∧ unpackInt s.field t.pb < s.field.p

/-- NPACK completes with the bytes of the value bits alone, the carry bits dropped; for a normalized register PB is
what PACK gives; no register is written (46_codec.md R232). -/
def Obligations.NpackSerializesTheValueBits : Prop :=
  ∀ (s : State) (va : Reg), s.field.shapeOk = true → s.pb.wf = true →
    ∃ t r, exec (.npack va) s = .next t ∧ CompletedPb s t (packByte r) ∧ unpackInt s.field t.pb = r ∧
      (∀ j, j < s.field.K - 1 →
        r / 2 ^ (s.field.W * j) % 2 ^ s.field.W = (digit (s.sourceA va) j).toNat % 2 ^ s.field.W) ∧
      r / 2 ^ (s.field.W * (s.field.K - 1)) = (digit (s.sourceA va) (s.field.K - 1)).toNat % 2 ^ s.field.H ∧
      (Normalized s.field (s.sourceA va) → r = modp s.field (s.sourceA va))

/-- UNPACK completes with `canon(unpackint(PB) mod 2^n)`, whose value is that integer: Carried, the top digit below
`2^H`, the padding ignored, a value at or above `p` not reduced; PB is not modified (46_codec.md R233). -/
def Obligations.UnpackReadsTheBytes : Prop :=
  ∀ (s : State) (vd : Reg), s.field.shapeOk = true →
    ∃ t v, exec (.unpack vd) s = .next t ∧ CompletedReg s t vd v ∧
      val s.field v = (unpackInt s.field s.sourcePb % 2 ^ s.field.n : Nat) ∧ Carried s.field v ∧
      (digit v (s.field.K - 1)).toNat < 2 ^ s.field.H ∧
      (Normalized s.field v ↔ unpackInt s.field s.sourcePb % 2 ^ s.field.n < s.field.p)

/-- The round trip (46_codec.md R235): PACK `va` then UNPACK `vd` gives NORM of `A` word for word; UNPACK then PACK gives
the bytes of the value mod `2^n` mod `p`, which are the bytes there were where their value is below `p`. -/
def Obligations.PackUnpackRoundTrip : Prop :=
  ∀ (s : State) (va vd : Reg), s.field.shapeOk = true → s.pb.wf = true → s.inflight = none →
    (∃ t1 t2, exec (.pack va) s = .next t1 ∧ exec (.unpack vd) t1 = .next t2 ∧
      t2.reg vd = canon s.field (modp s.field (s.reg va)) ∧
      (Normalized s.field (s.reg va) → t2.reg vd = s.reg va)) ∧
    ∃ t1 t2, exec (.unpack vd) s = .next t1 ∧ exec (.pack vd) t1 = .next t2 ∧
      (∀ j, j < s.field.packedBytes →
        t2.pb.read j = packByte (unpackInt s.field s.pb % 2 ^ s.field.n % s.field.p) j) ∧
      (unpackInt s.field s.pb < s.field.p → SamePb s t2)

/-! ### Transfer, compare and select -/

/-- MOV copies its operand word for word, and LDI loads the normalized `s mod p` of its signed immediate; nothing else
changes (47_transfer_compare.md R250, R251). -/
def Obligations.MovCopiesAndLdiLoads : Prop :=
  ∀ (s : State) (vd va : Reg) (imm : Imm), s.field.shapeOk = true →
    (∃ t, exec (.mov vd va) s = .next t ∧ CompletedReg s t vd (s.sourceA va)) ∧
    ∃ t v, exec (.ldi vd imm) s = .next t ∧ CompletedReg s t vd v ∧ Normalized s.field v ∧
      (val s.field v : Int) = imm.toInt % s.field.p

/-- EQ writes 1 exactly when the operands represent the same field element, and EQN exactly when every stored word
agrees, 0 otherwise; for two normalized operands the two agree; no vector register is written (47_transfer_compare.md
R252, R253). -/
def Obligations.EqComparesElementsAndEqnWords : Prop :=
  ∀ (s : State) (va vb : Reg), s.field.shapeOk = true →
    ∃ t u w z, exec (.eq va vb) s = .next t ∧ CompletedSres s t w ∧
      exec (.eqn va vb) s = .next u ∧ CompletedSres s u z ∧
      w = (if val s.field (s.sourceA va) % s.field.p = val s.field (s.sourceB vb) % s.field.p then 1 else 0) ∧
      ((∀ j, j < s.field.K → digit (s.sourceA va) j = digit (s.sourceB vb) j) → z = 1) ∧
      ((∃ j, j < s.field.K ∧ digit (s.sourceA va) j ≠ digit (s.sourceB vb) j) → z = 0) ∧
      (Normalized s.field (s.sourceA va) → Normalized s.field (s.sourceB vb) → w = z)

/-- SIGN writes 1 exactly when `modp(A) > (p-1)/2` and 0 otherwise; SIGNN writes the carry-out of
`val(A) + (p-1)/2 + c`, which is SIGN's result for a normalized register (47_transfer_compare.md R254, R255). -/
def Obligations.SignAndItsCarryOut : Prop :=
  ∀ (s : State) (va : Reg), s.field.Admissible →
    ∃ t u w z, exec (.sign va) s = .next t ∧ CompletedSres s t w ∧
      exec (.signn va) s = .next u ∧ CompletedSres s u z ∧
      w = (if (s.field.p - 1) / 2 < modp s.field (s.sourceA va) then 1 else 0) ∧
      z = wordOf ((val s.field (s.sourceA va) + ((s.field.p - 1) / 2 + s.field.c : Nat)) / 2 ^ s.field.n) ∧
      (Normalized s.field (s.sourceA va) → z = w)

/-- BIT writes bit `i` of the canonical value, BITN the stored value bit of digit `i / W`, both 0 at or above `n`, and
the two agree for a normalized register (47_transfer_compare.md R256, R257). -/
def Obligations.BitTestsReadTheBit : Prop :=
  ∀ (s : State) (va : Reg) (imm : Imm), s.field.shapeOk = true →
    ∃ t u w z, exec (.bit va imm) s = .next t ∧ CompletedSres s t w ∧
      exec (.bitn va imm) s = .next u ∧ CompletedSres s u z ∧
      w = (if imm.toNat < s.field.n ∧ modp s.field (s.sourceA va) / 2 ^ imm.toNat % 2 = 1 then 1 else 0) ∧
      z = (if imm.toNat < s.field.n ∧
          (digit (s.sourceA va) (imm.toNat / s.field.W)).toNat / 2 ^ (imm.toNat % s.field.W) % 2 = 1 then 1 else 0) ∧
      (Normalized s.field (s.sourceA va) → z = w)

/-- ABS completes with the normalized `a` or `p - a`, whichever SIGN calls positive: the operand's element where its SIGN
is 0 and the element MULS by -1 gives where it is 1 (47_transfer_compare.md R258, R263). -/
def Obligations.AbsGivesThePositiveRepresentative : Prop :=
  ∀ (s : State) (vd va : Reg) (a : Nat), s.field.Admissible → a = modp s.field (s.sourceA va) →
    ∃ t v, exec (.abs vd va) s = .next t ∧ CompletedReg s t vd v ∧ Normalized s.field v ∧
      modp s.field v ≤ (s.field.p - 1) / 2 ∧
      (a ≤ (s.field.p - 1) / 2 → modp s.field v = a) ∧
      ((s.field.p - 1) / 2 < a → modp s.field v = s.field.p - a ∧
        modp s.field v = modp s.field (canon s.field (fold s.field (val s.field (s.sourceA va) * -1))))

/-- MASK and MASKS complete with the operand word for word where their mask bit is 1 and with zero words where it is 0,
and OR with the word-wise OR; MASKS takes bit 0 of SRES as it was at acceptance; nothing else changes
(47_transfer_compare.md R259, R260, R261). -/
def Obligations.MasksSelectAndOrMerges : Prop :=
  ∀ (s : State) (vd va vb : Reg),
    (∃ t v, exec (.mask vd va 1) s = .next t ∧ CompletedReg s t vd v ∧ v.length = s.field.K ∧
      ∀ j, j < s.field.K → digit v j = digit (s.sourceA va) j) ∧
    (∃ t v, exec (.mask vd va 0) s = .next t ∧ CompletedReg s t vd v ∧ v = canon s.field 0) ∧
    (∃ t v, exec (.masks vd va) s = .next t ∧ CompletedReg s t vd v ∧ v.length = s.field.K ∧
      (s.sourceSres0 = true → ∀ j, j < s.field.K → digit v j = digit (s.sourceA va) j) ∧
      (s.sourceSres0 = false → v = canon s.field 0)) ∧
    ∃ t v, exec (.or vd va vb) s = .next t ∧ CompletedReg s t vd v ∧ v.length = s.field.K ∧
      ∀ j, j < s.field.K → digit v j = digit (s.sourceA va) j ||| digit (s.sourceB vb) j

/-- The branch-free selects (47_transfer_compare.md R262): (a) in the five fields, SUB, MASKS and ADD give the element of
`A` where SRES bit 0 is 1 and of `B` where it is 0 (in other fields log entry 13); (b) in every field, two MASKs by `k` and
`1 - k` and an OR give the words of `A` or of `B`. -/
def Obligations.BranchFreeSelect : Prop :=
  (∀ (row : FieldId) (s : State) (va vb vt vd : Reg), s.field = .table row → s.inflight = none → vt ≠ vb →
    ∃ t1 t2 t3, exec (.sub vt va vb) s = .next t1 ∧ exec (.masks vt vt) t1 = .next t2 ∧
      exec (.add vd vb vt) t2 = .next t3 ∧
      modp s.field (t3.reg vd) = modp s.field (if s.sres.getLsbD 0 then s.reg va else s.reg vb)) ∧
  ∀ (s : State) (va vb vt vu vd : Reg) (k : Bool), s.RegsShaped → s.inflight = none → vt ≠ vb → vt ≠ vu →
    ∃ t1 t2 t3,
      exec (.mask vt va (if k then 1 else 0)) s = .next t1 ∧
      exec (.mask vu vb (if k then 0 else 1)) t1 = .next t2 ∧
      exec (.or vd vt vu) t2 = .next t3 ∧ t3.reg vd = if k then s.reg va else s.reg vb
end

