-- ==== Sys2Proof/Laws/Digits.lean ====
section
/-! SUPPORT. Digit vectors and powers: a built vector reads as it was built, the square-and-multiply loop computes the
power, and the weak reduction's loop does not depend on its fuel. -/

namespace Sys2Proof

theorem powModLoop_eq (p fuel b e acc : Nat) (he : e < 2 ^ fuel) :
    powModLoop p fuel b e acc % p = acc * b ^ e % p := by
  induction fuel generalizing b e acc with
  | zero =>
    have : e = 0 := by simpa using he
    simp [powModLoop, this]
  | succ fuel ih =>
    have h2 : e / 2 < 2 ^ fuel := by rw [pow_succ] at he; omega
    rw [powModLoop, ih _ _ _ h2]
    have hsq : (b * b % p) ^ (e / 2) ≡ b ^ (2 * (e / 2)) [MOD p] := by
      rw [pow_mul, pow_two]; exact (Nat.mod_modEq _ _).pow _
    by_cases ho : e % 2 = 1
    · rw [if_pos ho]
      have hacc : acc * b % p ≡ acc * b [MOD p] := Nat.mod_modEq _ _
      have := hacc.mul hsq
      have he2 : e = 2 * (e / 2) + 1 := by omega
      calc (acc * b % p) * (b * b % p) ^ (e / 2) % p = acc * b * b ^ (2 * (e / 2)) % p := this
        _ = acc * b ^ e % p := by conv_rhs => rw [he2]
                                  rw [pow_succ]; ring_nf
    · rw [if_neg ho]
      have he2 : e = 2 * (e / 2) := by omega
      have := (Nat.ModEq.refl acc).mul hsq
      calc acc * (b * b % p) ^ (e / 2) % p = acc * b ^ (2 * (e / 2)) % p := this
        _ = acc * b ^ e % p := by rw [← he2]

theorem powModLoop_reduced (p fuel b e acc : Nat) (h : acc % p = acc) :
    powModLoop p fuel b e acc % p = powModLoop p fuel b e acc := by
  induction fuel generalizing b e acc with
  | zero => exact h
  | succ fuel ih =>
    rw [powModLoop]
    exact ih _ _ _ (by split <;> simp [h])

/-- The value of a fixed chain (44_inverse_engine.md R180) is the power mod `p`. -/
theorem powMod_eq (p a e : Nat) : powMod p a e = a ^ e % p := by
  rw [powMod, ← powModLoop_reduced _ _ _ _ _ (Nat.mod_mod _ _), powModLoop_eq _ _ _ _ _ Nat.lt_log2_self]
  exact ((Nat.mod_modEq 1 p).mul ((Nat.mod_modEq a p).pow e)).trans (by rw [one_mul])

end Sys2Proof

namespace Sys2Proof.Machine

@[simp] theorem length_build (k : Nat) (g : Nat → Word) : (build k g).length = k := by simp [build]

theorem digit_build {k : Nat} (g : Nat → Word) {j : Nat} (h : j < k) : digit (build k g) j = g j := by
  simp [digit, build, h]

/-- Two vectors of `k` digits with the same digits are equal. -/
theorem eq_of_digits {a b : DigitVec} {k : Nat} (ha : a.length = k) (hb : b.length = k)
    (h : ∀ j, j < k → digit a j = digit b j) : a = b := by
  apply List.ext_getElem (ha.trans hb.symm)
  intro j h1 h2
  have := h j (ha ▸ h1)
  simpa only [digit, List.getD_eq_getElem?_getD, List.getElem?_eq_getElem h1, List.getElem?_eq_getElem h2,
    Option.getD_some] using this

@[simp] theorem length_canon (f : Field) (r : Nat) : (canon f r).length = f.K := length_build _ _

@[simp] theorem length_addCore (f : Field) (a b : DigitVec) (g : Int) : (addCore f a b g).length = f.K :=
  length_build _ _

@[simp] theorem length_maskVec (f : Field) (v : DigitVec) (k : Bool) : (maskVec f v k).length = f.K :=
  length_build _ _

@[simp] theorem length_orVec (f : Field) (a b : DigitVec) : (orVec f a b).length = f.K := length_build _ _

@[simp] theorem length_mulOut (f : Field) (x : Int) : (mulOut f x).length = f.K := length_build _ _

/-- The represented integer depends on the digits alone. -/
theorem valLow_congr {W : Nat} {a b : DigitVec} {k : Nat} (h : ∀ j, j < k → digit a j = digit b j) :
    valLow W a k = valLow W b k := by
  induction k with
  | zero => rfl
  | succ k ih =>
    simp only [valLow, sdigit]
    rw [ih fun j hj => h j (by omega), h k (by omega)]

/-- A field with the shape of R8 and R11 has a positive modulus below `2^n`. -/
theorem shape_c_lt {f : Field} (h : f.shapeOk = true) : 2 * f.c ≤ 2 ^ f.n ∧ 0 < f.c := by
  simp only [Field.shapeOk, Bool.and_eq_true, beq_iff_eq, decide_eq_true_eq] at h
  obtain ⟨⟨⟨⟨⟨⟨⟨hn, hH⟩, _⟩, _⟩, hc1⟩, hc⟩, hK⟩, _⟩ := h
  refine ⟨?_, hc1⟩
  have hWn : f.W + 1 ≤ f.n := by
    have : f.W * 1 ≤ f.W * (f.K - 1) := Nat.mul_le_mul_left _ (by omega)
    omega
  calc 2 * f.c ≤ 2 * 2 ^ f.W := by omega
    _ = 2 ^ (f.W + 1) := by ring
    _ ≤ 2 ^ f.n := Nat.pow_le_pow_right (by norm_num) hWn

theorem shape_p_pos {f : Field} (h : f.shapeOk = true) : 0 < f.p := by
  have := shape_c_lt h
  unfold Field.p
  omega

theorem modp_lt {f : Field} (h : 0 < f.p) (v : DigitVec) : modp f v < f.p := by
  have := Int.emod_lt_of_pos (val f v) (by exact_mod_cast h : (0 : Int) < f.p)
  have := Int.emod_nonneg (val f v) (by exact_mod_cast h.ne' : (f.p : Int) ≠ 0)
  unfold modp
  omega

theorem modp_cast {f : Field} (h : 0 < f.p) (v : DigitVec) : (modp f v : Int) = val f v % f.p :=
  Int.toNat_of_nonneg (Int.emod_nonneg _ (by exact_mod_cast h.ne'))

end Sys2Proof.Machine
end

