-- ==== Sys2Proof/Laws/Memory.lean ====
section
/-! SUPPORT. The packed buffer: every write keeps the canonical form, a read after a write gives the byte written and
leaves every other byte alone, and buffers in canonical form that read alike are equal. -/

namespace Sys2Proof.Machine

@[simp] theorem read_nil (j : Nat) : Memory.read [] j = 0 := rfl

theorem read_put_same {m : Memory} {j : Nat} {b : Byte} (h : Memory.read m j = 0) :
    Memory.read (Memory.put m j b) j = b := by
  unfold Memory.put
  split <;> simp_all [Memory.read, Memory.blank]

theorem read_put_ne {m : Memory} {j k : Nat} {b : Byte} (h : k ≠ j) :
    Memory.read (Memory.put m j b) k = Memory.read m k := by
  unfold Memory.put
  split
  · rfl
  · simp [Memory.read, Ne.symm h]

theorem above_mono {i j : Nat} {m : Memory} (hij : i ≤ j) (h : Memory.above j m = true) :
    Memory.above i m = true := by
  simp only [Memory.above, List.all_eq_true, decide_eq_true_eq] at *
  exact fun c hc => lt_of_le_of_lt hij (h c hc)

/-- A byte that every pair lies above reads as the blank byte. -/
theorem read_of_above {m : Memory} {j : Nat} (h : Memory.above j m = true) : Memory.read m j = 0 := by
  induction m with
  | nil => rfl
  | cons c m ih =>
    simp only [Memory.above, List.all_cons, Bool.and_eq_true, decide_eq_true_eq] at h
    simp only [Memory.read, if_neg (Nat.ne_of_gt h.1)]
    exact ih h.2

theorem above_put {m : Memory} {i j : Nat} {b : Byte} (hij : i < j) (h : Memory.above i m = true) :
    Memory.above i (Memory.put m j b) = true := by
  unfold Memory.put
  split
  · exact h
  · simp only [Memory.above, List.all_cons, Bool.and_eq_true, decide_eq_true_eq] at h ⊢
    exact ⟨hij, h⟩

theorem put_wf {m : Memory} {j : Nat} {b : Byte} (ha : Memory.above j m = true) (h : m.wf = true) :
    (Memory.put m j b).wf = true := by
  unfold Memory.put
  split
  · exact h
  · simp_all [Memory.wf]

theorem above_write {m : Memory} {i j : Nat} {b : Byte} (hij : i < j) (h : Memory.above i m = true) :
    Memory.above i (Memory.write m j b) = true := by
  induction m with
  | nil => exact above_put hij h
  | cons c m ih =>
    simp only [Memory.above, List.all_cons, Bool.and_eq_true, decide_eq_true_eq] at h
    unfold Memory.write
    split
    · simp only [Memory.above, List.all_cons, Bool.and_eq_true, decide_eq_true_eq]
      exact ⟨h.1, ih h.2⟩
    · split
      · exact above_put hij h.2
      · exact above_put hij (by simp [Memory.above, h.1]; simpa [Memory.above] using h.2)

/-- Every write keeps the canonical form. -/
theorem write_wf {m : Memory} (j : Nat) (b : Byte) (h : m.wf = true) : (Memory.write m j b).wf = true := by
  induction m with
  | nil => exact put_wf rfl rfl
  | cons c m ih =>
    have h0 := h
    simp only [Memory.wf, Bool.and_eq_true] at h
    obtain ⟨⟨hb, ha⟩, hm⟩ := h
    unfold Memory.write
    split
    · rename_i hlt
      simp only [Memory.wf, Bool.and_eq_true]
      exact ⟨⟨hb, above_write hlt ha⟩, ih hm⟩
    · split
      · rename_i heq
        exact put_wf (heq ▸ ha) hm
      · rename_i hnlt hne
        have hlt : j < c.1 := by omega
        refine put_wf ?_ h0
        simp only [Memory.above, List.all_cons, Bool.and_eq_true, decide_eq_true_eq]
        exact ⟨hlt, above_mono (le_of_lt hlt) ha⟩

/-- Reading the byte just written gives it back. -/
theorem read_write_same {m : Memory} (j : Nat) (b : Byte) (h : m.wf = true) :
    Memory.read (Memory.write m j b) j = b := by
  induction m with
  | nil => exact read_put_same rfl
  | cons c m ih =>
    simp only [Memory.wf, Bool.and_eq_true] at h
    obtain ⟨⟨_, ha⟩, hm⟩ := h
    unfold Memory.write
    split
    · rename_i hlt
      simp only [Memory.read, if_neg (Nat.ne_of_lt hlt)]
      exact ih hm
    · split
      · rename_i heq
        exact read_put_same (read_of_above (heq ▸ ha))
      · rename_i hnlt hne
        have hlt : j < c.1 := by omega
        refine read_put_same (read_of_above ?_)
        simp only [Memory.above, List.all_cons, Bool.and_eq_true, decide_eq_true_eq]
        exact ⟨hlt, above_mono (le_of_lt hlt) ha⟩

/-- A write leaves every other byte alone. -/
theorem read_write_ne (m : Memory) {j k : Nat} (b : Byte) (h : k ≠ j) :
    Memory.read (Memory.write m j b) k = Memory.read m k := by
  induction m with
  | nil => exact read_put_ne h
  | cons c m ih =>
    unfold Memory.write
    split
    · simp only [Memory.read, ih]
    · split
      · rename_i heq
        rw [read_put_ne h]
        simp [Memory.read, heq, Ne.symm h]
      · exact read_put_ne h

theorem fill_wf {m : Memory} (g : Nat → Byte) (n : Nat) (h : m.wf = true) : (Memory.fill m g n).wf = true := by
  induction n with
  | zero => exact h
  | succ n ih => exact write_wf _ _ ih

/-- What a filled buffer reads as: the new bytes below `n`, the old ones at and above it. -/
theorem read_fill {m : Memory} (g : Nat → Byte) (n j : Nat) (h : m.wf = true) :
    Memory.read (Memory.fill m g n) j = if j < n then g j else Memory.read m j := by
  induction n with
  | zero => simp [Memory.fill]
  | succ n ih =>
    simp only [Memory.fill]
    by_cases hj : j = n
    · subst hj
      simp [read_write_same _ _ (fill_wf g j h)]
    · rw [read_write_ne _ _ hj, ih]
      have : j < n + 1 ↔ j < n := by omega
      simp [this]

theorem read_fill_ge (m : Memory) (g : Nat → Byte) {n j : Nat} (h : n ≤ j) :
    Memory.read (Memory.fill m g n) j = Memory.read m j := by
  induction n with
  | zero => rfl
  | succ n ih =>
    simp only [Memory.fill]
    rw [read_write_ne _ _ (by omega), ih (by omega)]

/-- `unpackint` reads the buffer byte by byte. -/
theorem bytesValue_congr {m m' : Memory} {n : Nat} (h : ∀ j, j < n → Memory.read m j = Memory.read m' j) :
    Memory.bytesValue m n = Memory.bytesValue m' n := by
  induction n with
  | zero => rfl
  | succ n ih =>
    simp only [Memory.bytesValue]
    rw [ih fun j hj => h j (by omega), h n (by omega)]

theorem bytesValue_lt (m : Memory) (n : Nat) : Memory.bytesValue m n < 2 ^ (8 * n) := by
  induction n with
  | zero => simp [Memory.bytesValue]
  | succ n ih =>
    simp only [Memory.bytesValue]
    have hb : (Memory.read m n).toNat + 1 ≤ 2 ^ 8 := (Memory.read m n).isLt
    have : ((Memory.read m n).toNat + 1) * 2 ^ (8 * n) ≤ 2 ^ 8 * 2 ^ (8 * n) := Nat.mul_le_mul_right _ hb
    have e : 2 ^ (8 * (n + 1)) = 2 ^ 8 * 2 ^ (8 * n) := by rw [← pow_add]; congr 1; ring
    rw [e]
    linarith [Nat.add_mul (Memory.read m n).toNat 1 (2 ^ (8 * n))]

/-- The canonical form is one form: buffers in it that read alike at every byte are equal. -/
theorem eq_of_read {m m' : Memory} (hm : m.wf = true) (hm' : m'.wf = true)
    (h : ∀ j, Memory.read m j = Memory.read m' j) : m = m' := by
  induction m generalizing m' with
  | nil =>
    cases m' with
    | nil => rfl
    | cons c m' =>
      have := h c.1
      simp_all [Memory.wf, Memory.read, Memory.blank]
  | cons c m ih =>
    obtain ⟨⟨hc, ha⟩, hw⟩ : (c.2 ≠ Memory.blank ∧ Memory.above c.1 m = true) ∧ Memory.wf m = true := by
      simpa [Memory.wf] using hm
    cases m' with
    | nil =>
      have := h c.1
      simp_all [Memory.read, Memory.blank]
    | cons d m' =>
      obtain ⟨⟨hd, hb⟩, hv⟩ : (d.2 ≠ Memory.blank ∧ Memory.above d.1 m' = true) ∧ Memory.wf m' = true := by
        simpa [Memory.wf] using hm'
      have key : c.1 = d.1 := by
        rcases lt_trichotomy c.1 d.1 with hlt | heq | hlt
        · have e := h c.1
          rw [read_of_above (m := d :: m')] at e
          · exact absurd (by simpa [Memory.read, Memory.blank] using e) hc
          · simp only [Memory.above, List.all_cons, Bool.and_eq_true, decide_eq_true_eq]
            exact ⟨hlt, above_mono hlt.le hb⟩
        · exact heq
        · have e := h d.1
          rw [read_of_above (m := c :: m)] at e
          · exact absurd (by simpa [Memory.read, Memory.blank] using e.symm) hd
          · simp only [Memory.above, List.all_cons, Bool.and_eq_true, decide_eq_true_eq]
            exact ⟨hlt, above_mono hlt.le ha⟩
      have hval : c.2 = d.2 := by simpa [Memory.read, key] using h c.1
      have htail : ∀ j, Memory.read m j = Memory.read m' j := fun j => by
        by_cases hj : c.1 = j
        · subst hj
          rw [read_of_above ha, read_of_above (key ▸ hb)]
        · simpa [Memory.read, hj, key ▸ hj] using h j
      rw [ih hw hv htail, Prod.ext key hval]

end Sys2Proof.Machine
end

