-- ==== Sys2Proof/Laws/State.lean ====
section
/-! SUPPORT. The state's small lemmas: for each shared update, one lemma per field, and reading a register after
writing one. -/

namespace Sys2Proof.Machine

/-! ### `setReg` -/

@[simp] theorem setReg_field (s : State) (r : Reg) (v : DigitVec) : (s.setReg r v).field = s.field := rfl

@[simp] theorem setReg_x (s : State) (r : Reg) (v : DigitVec) : (s.setReg r v).x = s.x.set r.toNat v r.isLt := rfl

@[simp] theorem setReg_pb (s : State) (r : Reg) (v : DigitVec) : (s.setReg r v).pb = s.pb := rfl

@[simp] theorem setReg_sres (s : State) (r : Reg) (v : DigitVec) : (s.setReg r v).sres = s.sres := rfl

@[simp] theorem setReg_done (s : State) (r : Reg) (v : DigitVec) : (s.setReg r v).done = s.done := rfl

@[simp] theorem setReg_err (s : State) (r : Reg) (v : DigitVec) : (s.setReg r v).err = s.err := rfl

@[simp] theorem setReg_ecode (s : State) (r : Reg) (v : DigitVec) : (s.setReg r v).ecode = s.ecode := rfl

@[simp] theorem setReg_ie (s : State) (r : Reg) (v : DigitVec) : (s.setReg r v).ie = s.ie := rfl

@[simp] theorem setReg_lastcmd (s : State) (r : Reg) (v : DigitVec) : (s.setReg r v).lastcmd = s.lastcmd := rfl

@[simp] theorem setReg_cmdcnt (s : State) (r : Reg) (v : DigitVec) : (s.setReg r v).cmdcnt = s.cmdcnt := rfl

@[simp] theorem setReg_inflight (s : State) (r : Reg) (v : DigitVec) : (s.setReg r v).inflight = s.inflight := rfl

@[simp] theorem setReg_scratch (s : State) (r : Reg) (v : DigitVec) : (s.setReg r v).scratch = s.scratch := rfl

@[simp] theorem setReg_inputs (s : State) (r : Reg) (v : DigitVec) : (s.setReg r v).inputs = s.inputs := rfl

@[simp] theorem setReg_readData (s : State) (r : Reg) (v : DigitVec) : (s.setReg r v).readData = s.readData := rfl

@[simp] theorem setReg_draws (s : State) (r : Reg) (v : DigitVec) : (s.setReg r v).draws = s.draws := rfl

/-! ### `ackDone` -/

@[simp] theorem ackDone_field (s : State) : (s.ackDone).field = s.field := rfl

@[simp] theorem ackDone_x (s : State) : (s.ackDone).x = s.x := rfl

@[simp] theorem ackDone_pb (s : State) : (s.ackDone).pb = s.pb := rfl

@[simp] theorem ackDone_sres (s : State) : (s.ackDone).sres = s.sres := rfl

@[simp] theorem ackDone_done (s : State) : (s.ackDone).done = false := rfl

@[simp] theorem ackDone_err (s : State) : (s.ackDone).err = s.err := rfl

@[simp] theorem ackDone_ecode (s : State) : (s.ackDone).ecode = s.ecode := rfl

@[simp] theorem ackDone_ie (s : State) : (s.ackDone).ie = s.ie := rfl

@[simp] theorem ackDone_lastcmd (s : State) : (s.ackDone).lastcmd = s.lastcmd := rfl

@[simp] theorem ackDone_cmdcnt (s : State) : (s.ackDone).cmdcnt = s.cmdcnt := rfl

@[simp] theorem ackDone_inflight (s : State) : (s.ackDone).inflight = s.inflight := rfl

@[simp] theorem ackDone_scratch (s : State) : (s.ackDone).scratch = s.scratch := rfl

@[simp] theorem ackDone_inputs (s : State) : (s.ackDone).inputs = s.inputs := rfl

@[simp] theorem ackDone_readData (s : State) : (s.ackDone).readData = s.readData := rfl

@[simp] theorem ackDone_draws (s : State) : (s.ackDone).draws = s.draws := rfl

/-! ### `ackError` -/

@[simp] theorem ackError_field (s : State) : (s.ackError).field = s.field := rfl

@[simp] theorem ackError_x (s : State) : (s.ackError).x = s.x := rfl

@[simp] theorem ackError_pb (s : State) : (s.ackError).pb = s.pb := rfl

@[simp] theorem ackError_sres (s : State) : (s.ackError).sres = s.sres := rfl

@[simp] theorem ackError_done (s : State) : (s.ackError).done = s.done := rfl

@[simp] theorem ackError_err (s : State) : (s.ackError).err = false := rfl

@[simp] theorem ackError_ecode (s : State) : (s.ackError).ecode = 0 := rfl

@[simp] theorem ackError_ie (s : State) : (s.ackError).ie = s.ie := rfl

@[simp] theorem ackError_lastcmd (s : State) : (s.ackError).lastcmd = s.lastcmd := rfl

@[simp] theorem ackError_cmdcnt (s : State) : (s.ackError).cmdcnt = s.cmdcnt := rfl

@[simp] theorem ackError_inflight (s : State) : (s.ackError).inflight = s.inflight := rfl

@[simp] theorem ackError_scratch (s : State) : (s.ackError).scratch = s.scratch := rfl

@[simp] theorem ackError_inputs (s : State) : (s.ackError).inputs = s.inputs := rfl

@[simp] theorem ackError_readData (s : State) : (s.ackError).readData = s.readData := rfl

@[simp] theorem ackError_draws (s : State) : (s.ackError).draws = s.draws := rfl

/-! ### `reply` -/

@[simp] theorem reply_field (s : State) (d : Word) : (s.reply d).field = s.field := rfl

@[simp] theorem reply_x (s : State) (d : Word) : (s.reply d).x = s.x := rfl

@[simp] theorem reply_pb (s : State) (d : Word) : (s.reply d).pb = s.pb := rfl

@[simp] theorem reply_sres (s : State) (d : Word) : (s.reply d).sres = s.sres := rfl

@[simp] theorem reply_done (s : State) (d : Word) : (s.reply d).done = s.done := rfl

@[simp] theorem reply_err (s : State) (d : Word) : (s.reply d).err = s.err := rfl

@[simp] theorem reply_ecode (s : State) (d : Word) : (s.reply d).ecode = s.ecode := rfl

@[simp] theorem reply_ie (s : State) (d : Word) : (s.reply d).ie = s.ie := rfl

@[simp] theorem reply_lastcmd (s : State) (d : Word) : (s.reply d).lastcmd = s.lastcmd := rfl

@[simp] theorem reply_cmdcnt (s : State) (d : Word) : (s.reply d).cmdcnt = s.cmdcnt := rfl

@[simp] theorem reply_inflight (s : State) (d : Word) : (s.reply d).inflight = s.inflight := rfl

@[simp] theorem reply_scratch (s : State) (d : Word) : (s.reply d).scratch = s.scratch := rfl

@[simp] theorem reply_inputs (s : State) (d : Word) : (s.reply d).inputs = s.inputs := rfl

@[simp] theorem reply_readData (s : State) (d : Word) : (s.reply d).readData = d := rfl

@[simp] theorem reply_draws (s : State) (d : Word) : (s.reply d).draws = s.draws := rfl

/-! ### `accept` -/

@[simp] theorem accept_field (s : State) (i : Instr) (w : Word) : (s.accept i w).field = s.field := rfl

@[simp] theorem accept_x (s : State) (i : Instr) (w : Word) : (s.accept i w).x = s.x := rfl

@[simp] theorem accept_pb (s : State) (i : Instr) (w : Word) : (s.accept i w).pb = s.pb := rfl

@[simp] theorem accept_sres (s : State) (i : Instr) (w : Word) : (s.accept i w).sres = s.sres := rfl

@[simp] theorem accept_done (s : State) (i : Instr) (w : Word) : (s.accept i w).done = s.done := rfl

@[simp] theorem accept_err (s : State) (i : Instr) (w : Word) : (s.accept i w).err = s.err := rfl

@[simp] theorem accept_ecode (s : State) (i : Instr) (w : Word) : (s.accept i w).ecode = s.ecode := rfl

@[simp] theorem accept_ie (s : State) (i : Instr) (w : Word) : (s.accept i w).ie = s.ie := rfl

@[simp] theorem accept_lastcmd (s : State) (i : Instr) (w : Word) : (s.accept i w).lastcmd = s.lastcmd := rfl

@[simp] theorem accept_cmdcnt (s : State) (i : Instr) (w : Word) : (s.accept i w).cmdcnt = s.cmdcnt := rfl

@[simp] theorem accept_inflight (s : State) (i : Instr) (w : Word) : (s.accept i w).inflight = some ⟨w, s.snapshot w, Config.lat i.op s.field⟩ := rfl

@[simp] theorem accept_scratch (s : State) (i : Instr) (w : Word) : (s.accept i w).scratch = s.scratch := rfl

@[simp] theorem accept_inputs (s : State) (i : Instr) (w : Word) : (s.accept i w).inputs = s.inputs := rfl

@[simp] theorem accept_readData (s : State) (i : Instr) (w : Word) : (s.accept i w).readData = s.readData := rfl

@[simp] theorem accept_draws (s : State) (i : Instr) (w : Word) : (s.accept i w).draws = s.draws := rfl

/-! ### `complete` -/

@[simp] theorem complete_field (s : State) : (s.complete).field = s.field := rfl

@[simp] theorem complete_x (s : State) : (s.complete).x = s.x := rfl

@[simp] theorem complete_pb (s : State) : (s.complete).pb = s.pb := rfl

@[simp] theorem complete_sres (s : State) : (s.complete).sres = s.sres := rfl

@[simp] theorem complete_done (s : State) : (s.complete).done = true := rfl

@[simp] theorem complete_err (s : State) : (s.complete).err = s.err := rfl

@[simp] theorem complete_ecode (s : State) : (s.complete).ecode = s.ecode := rfl

@[simp] theorem complete_ie (s : State) : (s.complete).ie = s.ie := rfl

@[simp] theorem complete_lastcmd (s : State) : (s.complete).lastcmd = s.lastcmd := rfl

@[simp] theorem complete_cmdcnt (s : State) : (s.complete).cmdcnt = s.cmdcnt + 1 := rfl

@[simp] theorem complete_inflight (s : State) : (s.complete).inflight = none := rfl

@[simp] theorem complete_scratch (s : State) : (s.complete).scratch = freeScratch s.field s.draws := rfl

@[simp] theorem complete_inputs (s : State) : (s.complete).inputs = s.inputs := rfl

@[simp] theorem complete_readData (s : State) : (s.complete).readData = s.readData := rfl

@[simp] theorem complete_draws (s : State) : (s.complete).draws = s.draws + 1 := rfl

/-! ### `hardReset` -/

@[simp] theorem hardReset_field (s : State) : (s.hardReset).field = s.field := rfl

@[simp] theorem hardReset_x (s : State) : (s.hardReset).x = Vector.replicate 16 (List.replicate s.field.K 0) := rfl

@[simp] theorem hardReset_pb (s : State) : (s.hardReset).pb = [] := rfl

@[simp] theorem hardReset_sres (s : State) : (s.hardReset).sres = 0 := rfl

@[simp] theorem hardReset_done (s : State) : (s.hardReset).done = false := rfl

@[simp] theorem hardReset_err (s : State) : (s.hardReset).err = false := rfl

@[simp] theorem hardReset_ecode (s : State) : (s.hardReset).ecode = 0 := rfl

@[simp] theorem hardReset_ie (s : State) : (s.hardReset).ie = false := rfl

@[simp] theorem hardReset_lastcmd (s : State) : (s.hardReset).lastcmd = 0 := rfl

@[simp] theorem hardReset_cmdcnt (s : State) : (s.hardReset).cmdcnt = 0 := rfl

@[simp] theorem hardReset_inflight (s : State) : (s.hardReset).inflight = none := rfl

@[simp] theorem hardReset_scratch (s : State) : (s.hardReset).scratch = Vector.replicate 3 (List.replicate s.field.K 0) := rfl

@[simp] theorem hardReset_inputs (s : State) : (s.hardReset).inputs = s.inputs := rfl

@[simp] theorem hardReset_readData (s : State) : (s.hardReset).readData = s.readData := rfl

@[simp] theorem hardReset_draws (s : State) : (s.hardReset).draws = s.draws := rfl

/-! ### `completeReg` -/

@[simp] theorem completeReg_field (s : State) (r : Reg) (v : DigitVec) : (s.completeReg r v).field = s.field := rfl

@[simp] theorem completeReg_x (s : State) (r : Reg) (v : DigitVec) : (s.completeReg r v).x = s.x.set r.toNat v r.isLt := rfl

@[simp] theorem completeReg_pb (s : State) (r : Reg) (v : DigitVec) : (s.completeReg r v).pb = s.pb := rfl

@[simp] theorem completeReg_sres (s : State) (r : Reg) (v : DigitVec) : (s.completeReg r v).sres = s.sres := rfl

@[simp] theorem completeReg_done (s : State) (r : Reg) (v : DigitVec) : (s.completeReg r v).done = true := rfl

@[simp] theorem completeReg_err (s : State) (r : Reg) (v : DigitVec) : (s.completeReg r v).err = s.err := rfl

@[simp] theorem completeReg_ecode (s : State) (r : Reg) (v : DigitVec) : (s.completeReg r v).ecode = s.ecode := rfl

@[simp] theorem completeReg_ie (s : State) (r : Reg) (v : DigitVec) : (s.completeReg r v).ie = s.ie := rfl

@[simp] theorem completeReg_lastcmd (s : State) (r : Reg) (v : DigitVec) : (s.completeReg r v).lastcmd = s.lastcmd := rfl

@[simp] theorem completeReg_cmdcnt (s : State) (r : Reg) (v : DigitVec) : (s.completeReg r v).cmdcnt = s.cmdcnt + 1 := rfl

@[simp] theorem completeReg_inflight (s : State) (r : Reg) (v : DigitVec) : (s.completeReg r v).inflight = none := rfl

@[simp] theorem completeReg_scratch (s : State) (r : Reg) (v : DigitVec) : (s.completeReg r v).scratch = freeScratch s.field s.draws := rfl

@[simp] theorem completeReg_inputs (s : State) (r : Reg) (v : DigitVec) : (s.completeReg r v).inputs = s.inputs := rfl

@[simp] theorem completeReg_readData (s : State) (r : Reg) (v : DigitVec) : (s.completeReg r v).readData = s.readData := rfl

@[simp] theorem completeReg_draws (s : State) (r : Reg) (v : DigitVec) : (s.completeReg r v).draws = s.draws + 1 := rfl

/-! ### `completeSres` -/

@[simp] theorem completeSres_field (s : State) (w : Word) : (s.completeSres w).field = s.field := rfl

@[simp] theorem completeSres_x (s : State) (w : Word) : (s.completeSres w).x = s.x := rfl

@[simp] theorem completeSres_pb (s : State) (w : Word) : (s.completeSres w).pb = s.pb := rfl

@[simp] theorem completeSres_sres (s : State) (w : Word) : (s.completeSres w).sres = w := rfl

@[simp] theorem completeSres_done (s : State) (w : Word) : (s.completeSres w).done = true := rfl

@[simp] theorem completeSres_err (s : State) (w : Word) : (s.completeSres w).err = s.err := rfl

@[simp] theorem completeSres_ecode (s : State) (w : Word) : (s.completeSres w).ecode = s.ecode := rfl

@[simp] theorem completeSres_ie (s : State) (w : Word) : (s.completeSres w).ie = s.ie := rfl

@[simp] theorem completeSres_lastcmd (s : State) (w : Word) : (s.completeSres w).lastcmd = s.lastcmd := rfl

@[simp] theorem completeSres_cmdcnt (s : State) (w : Word) : (s.completeSres w).cmdcnt = s.cmdcnt + 1 := rfl

@[simp] theorem completeSres_inflight (s : State) (w : Word) : (s.completeSres w).inflight = none := rfl

@[simp] theorem completeSres_scratch (s : State) (w : Word) : (s.completeSres w).scratch = freeScratch s.field s.draws := rfl

@[simp] theorem completeSres_inputs (s : State) (w : Word) : (s.completeSres w).inputs = s.inputs := rfl

@[simp] theorem completeSres_readData (s : State) (w : Word) : (s.completeSres w).readData = s.readData := rfl

@[simp] theorem completeSres_draws (s : State) (w : Word) : (s.completeSres w).draws = s.draws + 1 := rfl

/-! ### `completePb` -/

@[simp] theorem completePb_field (s : State) (n : Nat) : (s.completePb n).field = s.field := rfl

@[simp] theorem completePb_x (s : State) (n : Nat) : (s.completePb n).x = s.x := rfl

@[simp] theorem completePb_pb (s : State) (n : Nat) : (s.completePb n).pb = Memory.fill s.pb (packByte n) s.field.packedBytes := rfl

@[simp] theorem completePb_sres (s : State) (n : Nat) : (s.completePb n).sres = s.sres := rfl

@[simp] theorem completePb_done (s : State) (n : Nat) : (s.completePb n).done = true := rfl

@[simp] theorem completePb_err (s : State) (n : Nat) : (s.completePb n).err = s.err := rfl

@[simp] theorem completePb_ecode (s : State) (n : Nat) : (s.completePb n).ecode = s.ecode := rfl

@[simp] theorem completePb_ie (s : State) (n : Nat) : (s.completePb n).ie = s.ie := rfl

@[simp] theorem completePb_lastcmd (s : State) (n : Nat) : (s.completePb n).lastcmd = s.lastcmd := rfl

@[simp] theorem completePb_cmdcnt (s : State) (n : Nat) : (s.completePb n).cmdcnt = s.cmdcnt + 1 := rfl

@[simp] theorem completePb_inflight (s : State) (n : Nat) : (s.completePb n).inflight = none := rfl

@[simp] theorem completePb_scratch (s : State) (n : Nat) : (s.completePb n).scratch = freeScratch s.field s.draws := rfl

@[simp] theorem completePb_inputs (s : State) (n : Nat) : (s.completePb n).inputs = s.inputs := rfl

@[simp] theorem completePb_readData (s : State) (n : Nat) : (s.completePb n).readData = s.readData := rfl

@[simp] theorem completePb_draws (s : State) (n : Nat) : (s.completePb n).draws = s.draws + 1 := rfl

/-! ### `raiseError` -/

@[simp] theorem raiseError_field (s : State) (e : ErrorCode) : (s.raiseError e).field = s.field := by
  unfold State.raiseError; split <;> simp_all

@[simp] theorem raiseError_x (s : State) (e : ErrorCode) : (s.raiseError e).x = s.x := by
  unfold State.raiseError; split <;> simp_all

@[simp] theorem raiseError_pb (s : State) (e : ErrorCode) : (s.raiseError e).pb = s.pb := by
  unfold State.raiseError; split <;> simp_all

@[simp] theorem raiseError_sres (s : State) (e : ErrorCode) : (s.raiseError e).sres = s.sres := by
  unfold State.raiseError; split <;> simp_all

@[simp] theorem raiseError_done (s : State) (e : ErrorCode) : (s.raiseError e).done = s.done := by
  unfold State.raiseError; split <;> simp_all

@[simp] theorem raiseError_err (s : State) (e : ErrorCode) : (s.raiseError e).err = true := by
  unfold State.raiseError; split <;> simp_all

@[simp] theorem raiseError_ecode (s : State) (e : ErrorCode) : (s.raiseError e).ecode = if s.err then s.ecode else e.code := by
  unfold State.raiseError; split <;> simp_all

@[simp] theorem raiseError_ie (s : State) (e : ErrorCode) : (s.raiseError e).ie = s.ie := by
  unfold State.raiseError; split <;> simp_all

@[simp] theorem raiseError_lastcmd (s : State) (e : ErrorCode) : (s.raiseError e).lastcmd = s.lastcmd := by
  unfold State.raiseError; split <;> simp_all

@[simp] theorem raiseError_cmdcnt (s : State) (e : ErrorCode) : (s.raiseError e).cmdcnt = s.cmdcnt := by
  unfold State.raiseError; split <;> simp_all

@[simp] theorem raiseError_inflight (s : State) (e : ErrorCode) : (s.raiseError e).inflight = s.inflight := by
  unfold State.raiseError; split <;> simp_all

@[simp] theorem raiseError_scratch (s : State) (e : ErrorCode) : (s.raiseError e).scratch = s.scratch := by
  unfold State.raiseError; split <;> simp_all

@[simp] theorem raiseError_inputs (s : State) (e : ErrorCode) : (s.raiseError e).inputs = s.inputs := by
  unfold State.raiseError; split <;> simp_all

@[simp] theorem raiseError_readData (s : State) (e : ErrorCode) : (s.raiseError e).readData = s.readData := by
  unfold State.raiseError; split <;> simp_all

@[simp] theorem raiseError_draws (s : State) (e : ErrorCode) : (s.raiseError e).draws = s.draws := by
  unfold State.raiseError; split <;> simp_all

/-! ### `commandError` -/

@[simp] theorem commandError_field (s : State) (e : ErrorCode) : (s.commandError e).field = s.field := by
  simp [State.commandError]

@[simp] theorem commandError_x (s : State) (e : ErrorCode) : (s.commandError e).x = s.x := by
  simp [State.commandError]

@[simp] theorem commandError_pb (s : State) (e : ErrorCode) : (s.commandError e).pb = s.pb := by
  simp [State.commandError]

@[simp] theorem commandError_sres (s : State) (e : ErrorCode) : (s.commandError e).sres = s.sres := by
  simp [State.commandError]

@[simp] theorem commandError_done (s : State) (e : ErrorCode) : (s.commandError e).done = true := by
  simp [State.commandError]

@[simp] theorem commandError_err (s : State) (e : ErrorCode) : (s.commandError e).err = true := by
  simp [State.commandError]

@[simp] theorem commandError_ecode (s : State) (e : ErrorCode) : (s.commandError e).ecode = if s.err then s.ecode else e.code := by
  simp [State.commandError]

@[simp] theorem commandError_ie (s : State) (e : ErrorCode) : (s.commandError e).ie = s.ie := by
  simp [State.commandError]

@[simp] theorem commandError_lastcmd (s : State) (e : ErrorCode) : (s.commandError e).lastcmd = s.lastcmd := by
  simp [State.commandError]

@[simp] theorem commandError_cmdcnt (s : State) (e : ErrorCode) : (s.commandError e).cmdcnt = s.cmdcnt := by
  simp [State.commandError]

@[simp] theorem commandError_inflight (s : State) (e : ErrorCode) : (s.commandError e).inflight = none := by
  simp [State.commandError]

@[simp] theorem commandError_scratch (s : State) (e : ErrorCode) : (s.commandError e).scratch = s.scratch := by
  simp [State.commandError]

@[simp] theorem commandError_inputs (s : State) (e : ErrorCode) : (s.commandError e).inputs = s.inputs := by
  simp [State.commandError]

@[simp] theorem commandError_readData (s : State) (e : ErrorCode) : (s.commandError e).readData = s.readData := by
  simp [State.commandError]

@[simp] theorem commandError_draws (s : State) (e : ErrorCode) : (s.commandError e).draws = s.draws := by
  simp [State.commandError]

/-! ### `tick` -/

@[simp] theorem tick_field (s : State) : (s.tick).field = s.field := by
  unfold State.tick; split <;> simp_all

@[simp] theorem tick_x (s : State) : (s.tick).x = s.x := by
  unfold State.tick; split <;> simp_all

@[simp] theorem tick_pb (s : State) : (s.tick).pb = s.pb := by
  unfold State.tick; split <;> simp_all

@[simp] theorem tick_sres (s : State) : (s.tick).sres = s.sres := by
  unfold State.tick; split <;> simp_all

@[simp] theorem tick_done (s : State) : (s.tick).done = s.done := by
  unfold State.tick; split <;> simp_all

@[simp] theorem tick_err (s : State) : (s.tick).err = s.err := by
  unfold State.tick; split <;> simp_all

@[simp] theorem tick_ecode (s : State) : (s.tick).ecode = s.ecode := by
  unfold State.tick; split <;> simp_all

@[simp] theorem tick_ie (s : State) : (s.tick).ie = s.ie := by
  unfold State.tick; split <;> simp_all

@[simp] theorem tick_lastcmd (s : State) : (s.tick).lastcmd = s.lastcmd := by
  unfold State.tick; split <;> simp_all

@[simp] theorem tick_cmdcnt (s : State) : (s.tick).cmdcnt = s.cmdcnt := by
  unfold State.tick; split <;> simp_all

@[simp] theorem tick_inflight (s : State) : (s.tick).inflight = s.inflight.map fun r => { r with remaining := r.remaining - 1 } := by
  unfold State.tick; split <;> simp_all

@[simp] theorem tick_scratch (s : State) : (s.tick).scratch = s.scratch := by
  unfold State.tick; split <;> simp_all

@[simp] theorem tick_inputs (s : State) : (s.tick).inputs = s.inputs := by
  unfold State.tick; split <;> simp_all

@[simp] theorem tick_readData (s : State) : (s.tick).readData = s.readData := by
  unfold State.tick; split <;> simp_all

@[simp] theorem tick_draws (s : State) : (s.tick).draws = s.draws := by
  unfold State.tick; split <;> simp_all

/-! ### Registers -/

@[simp] theorem reg_setReg_same (s : State) (r : Reg) (v : DigitVec) : (s.setReg r v).reg r = v := by
  simp [State.reg]

theorem reg_setReg_ne (s : State) {r q : Reg} (v : DigitVec) (h : q ≠ r) : (s.setReg r v).reg q = s.reg q := by
  have h' : r.toNat ≠ q.toNat := fun e => h (BitVec.eq_of_toNat_eq e.symm)
  simp [State.reg, Vector.getElem_set_ne _ _ h']

@[simp] theorem reg_complete (s : State) (r : Reg) : s.complete.reg r = s.reg r := rfl

@[simp] theorem reg_completeReg_same (s : State) (r : Reg) (v : DigitVec) : (s.completeReg r v).reg r = v :=
  reg_setReg_same s r v

theorem reg_completeReg_ne (s : State) {r q : Reg} (v : DigitVec) (h : q ≠ r) :
    (s.completeReg r v).reg q = s.reg q := reg_setReg_ne s v h

@[simp] theorem reg_completeSres (s : State) (w : Word) (r : Reg) : (s.completeSres w).reg r = s.reg r := rfl

@[simp] theorem reg_completePb (s : State) (n : Nat) (r : Reg) : (s.completePb n).reg r = s.reg r := rfl

@[simp] theorem reg_commandError (s : State) (e : ErrorCode) (r : Reg) : (s.commandError e).reg r = s.reg r := by
  simp [State.reg]

@[simp] theorem reg_raiseError (s : State) (e : ErrorCode) (r : Reg) : (s.raiseError e).reg r = s.reg r := by
  simp [State.reg]

@[simp] theorem reg_hardReset (s : State) (r : Reg) : s.hardReset.reg r = List.replicate s.field.K 0 := by
  simp [State.reg]

/-- Two states with the same registers read the same register file. -/
theorem reg_congr {s t : State} (h : t.x = s.x) (r : Reg) : t.reg r = s.reg r := by
  simp [State.reg, h]

/-! ### Sources of a command -/

theorem sourceA_idle {s : State} (h : s.inflight = none) (r : Reg) : s.sourceA r = s.reg r := by
  simp [State.sourceA, h]

theorem sourceB_idle {s : State} (h : s.inflight = none) (r : Reg) : s.sourceB r = s.reg r := by
  simp [State.sourceB, h]

theorem sourceSres0_idle {s : State} (h : s.inflight = none) : s.sourceSres0 = s.sres.getLsbD 0 := by
  simp [State.sourceSres0, h]

theorem sourcePb_idle {s : State} (h : s.inflight = none) : s.sourcePb = s.pb := by
  simp [State.sourcePb, h]

theorem sourceA_inflight {s : State} {q : Inflight} (h : s.inflight = some q) (r : Reg) :
    s.sourceA r = q.snap.a := by
  simp [State.sourceA, h]

theorem sourceB_inflight {s : State} {q : Inflight} (h : s.inflight = some q) (r : Reg) :
    s.sourceB r = q.snap.b := by
  simp [State.sourceB, h]

end Sys2Proof.Machine
end

