-- ==== Sys2Proof/Laws/Ops.lean ====
section
/-! SUPPORT. What each shared operation can do, said once: a completion, an error, the issue of a command word, a host
access, and by these a command and a step. The packed buffer's canonical form under each. -/

namespace Sys2Proof.Machine

/-! ### Completion and error -/

/-- What `completeReg` does (60_exceptions.md R310). -/
theorem completeReg_spec (s : State) (vd : Reg) (v : DigitVec) : CompletedReg s (s.completeReg vd v) vd v :=
  ⟨⟨rfl, rfl, rfl, rfl, rfl, rfl, rfl, rfl, rfl, rfl⟩, reg_completeReg_same s vd v,
    fun _ h => reg_completeReg_ne s v h, rfl, fun _ => rfl⟩

/-- What `completeSres` does (60_exceptions.md R310). -/
theorem completeSres_spec (s : State) (w : Word) : CompletedSres s (s.completeSres w) w :=
  ⟨⟨rfl, rfl, rfl, rfl, rfl, rfl, rfl, rfl, rfl, rfl⟩, rfl, fun _ => rfl, fun _ => rfl⟩

/-- What `completePb` does to a buffer in canonical form (46_codec.md R231, R232). -/
theorem completePb_spec {s : State} (h : s.pb.wf = true) (r : Nat) :
    CompletedPb s (s.completePb r) (packByte r) := by
  refine ⟨⟨rfl, rfl, rfl, rfl, rfl, rfl, rfl, rfl, rfl, rfl⟩, rfl, fun _ => rfl, fun j hj => ?_, fun j hj => ?_⟩
  · simp [read_fill _ _ _ h, hj]
  · simp [read_fill_ge _ _ hj]

/-- What a decode error does (60_exceptions.md R311). -/
theorem commandError_spec (s : State) (e : ErrorCode) : RefusedWith s (s.commandError e) e := by
  unfold RefusedWith State.commandError State.raiseError
  by_cases h : s.err = true <;> simp [h]

/-- The first error since ERR was clear is kept (10_state.md R39). -/
theorem raiseError_eq (s : State) (e : ErrorCode) :
    s.raiseError e = { s with err := true, ecode := if s.err then s.ecode else e.code } := by
  unfold State.raiseError
  by_cases h : s.err = true
  · simp only [h, if_true]
    rw [← h]
  · simp [h]

/-! ### Commands -/

/-- A command ends in a completion with one result, or in NOT_APPLICABLE where the field lacks it. -/
theorem exec_cases (i : Instr) (s : State) :
    (s.field.hasOp i.op = true ∧
      ((∃ vd v, exec i s = .next (s.completeReg vd v)) ∨ (∃ w, exec i s = .next (s.completeSres w)) ∨
        ∃ r, exec i s = .next (s.completePb r))) ∨
    (s.field.hasOp i.op = false ∧ exec i s = .next (s.commandError .notApplicable)) := by
  by_cases h : s.field.hasOp i.op = true
  · refine .inl ⟨h, ?_⟩
    cases i <;>
      first
        | exact .inl ⟨_, _, rfl⟩
        | exact .inr (.inl ⟨_, rfl⟩)
        | exact .inr (.inr ⟨_, rfl⟩)
        | exact .inl ⟨_, _, congrArg Host.Outcome.next (if_pos h)⟩
        | exact .inr (.inl ⟨_, congrArg Host.Outcome.next (if_pos h)⟩)
  · refine .inr ⟨by simpa using h, ?_⟩
    cases i <;> first | exact absurd rfl h | exact congrArg Host.Outcome.next (if_neg h)

/-- A command always answers a next state. -/
theorem exec_next (i : Instr) (s : State) : ∃ t, exec i s = .next t := by
  rcases exec_cases i s with ⟨_, ⟨_, _, h⟩ | ⟨_, h⟩ | ⟨_, h⟩⟩ | ⟨_, h⟩ <;> exact ⟨_, h⟩

/-- A completed word in flight runs its command, or ends in its decode error. -/
theorem runWord_cases (w : Word) (s : State) :
    (∃ i, decode w = .ok i ∧ runWord w s = exec i s) ∨
    ∃ e, decode w = .error e ∧ runWord w s = .next (s.commandError (decodeErrorCode e)) := by
  unfold runWord
  cases decode w with
  | ok i => exact .inl ⟨i, rfl, rfl⟩
  | error e => exact .inr ⟨e, rfl, rfl⟩

/-- The issue of a command word (60_exceptions.md R310): refused at decode, refused as not applicable, or accepted. -/
theorem issue_cases (w : Word) (s : State) :
    (∃ e, decode w = .error e ∧ s.issue w = s.commandError (decodeErrorCode e)) ∨
    (∃ i, decode w = .ok i ∧ s.field.hasOp i.op = false ∧ s.issue w = s.commandError .notApplicable) ∨
    ∃ i, decode w = .ok i ∧ s.field.hasOp i.op = true ∧ s.issue w = s.accept i w := by
  unfold State.issue
  cases decode w with
  | error e => exact .inl ⟨e, rfl, rfl⟩
  | ok i =>
    cases h : s.field.hasOp i.op with
    | false => exact .inr (.inl ⟨i, rfl, h, by simp [h]⟩)
    | true => exact .inr (.inr ⟨i, rfl, h, by simp [h]⟩)

/-! ### Host accesses -/

/-- A host read returns a word, and beside that can only record an error or draw a free value. -/
theorem hostRead_cases (s : State) (a : BitVec 16) (width : Nat) :
    (∃ e, s.hostRead a width = (s.raiseError e).reply 0) ∨
    (∃ r, windowReg a = some r ∧ s.hostRead a width = s.reply (s.windowValue r)) ∨
    s.hostRead a width = { s.reply (Config.busyRead s.draws a) with draws := s.draws + 1 } := by
  unfold State.hostRead
  split
  · split
    · exact .inl ⟨_, rfl⟩
    · split
      · exact .inr (.inr rfl)
      · exact .inr (.inl ⟨_, by assumption, rfl⟩)
  · exact .inl ⟨_, rfl⟩

/-- A host write is refused with an error, or reaches the register its address names. -/
theorem hostWrite_cases (s : State) (a : BitVec 16) (width : Nat) (d : Word) :
    (∃ e, s.hostWrite a width d = s.raiseError e) ∨
    ∃ r, accessOk a width = true ∧ windowReg a = some r ∧ s.hostWrite a width d = s.windowWrite d r := by
  unfold State.hostWrite
  split
  · split
    · exact .inl ⟨_, rfl⟩
    · exact .inr ⟨_, by assumption, by assumption, rfl⟩
  · exact .inl ⟨_, rfl⟩

/-- What a write to a register can do. -/
theorem windowWrite_cases (s : State) (d : Word) (r : WindowReg) :
    (∃ e, s.windowWrite d r = s.raiseError e) ∨
    (r = .status ∧ s.windowWrite d r = s.writeStatus d) ∨ (r = .ctrl ∧ s.windowWrite d r = s.writeCtrl d) ∨
    (r = .cmd ∧ s.busy = false ∧ s.windowWrite d r = State.issue d { s with lastcmd := d }) ∨
    (∃ w, r = .pbuf w ∧ s.busy = false ∧ s.windowWrite d r = { s with pb := s.writeLanes w d 8 }) ∨
    ∃ i j, r = .vreg i j ∧ s.busy = false ∧ s.windowWrite d r = s.writeSlot i j d := by
  cases hb : s.busy <;> cases r <;> simp [State.windowWrite, State.writeCmd, hb] <;>
    exact ⟨_, rfl⟩

/-- A word stored in a slot keeps every register's length. -/
theorem writeSlot_length (s : State) (i : Reg) (j : Nat) (d : Word) (r : Reg) :
    ((s.writeSlot i j d).reg r).length = (s.reg r).length := by
  unfold State.writeSlot
  split
  · by_cases h : r = i
    · subst h; simp
    · rw [reg_setReg_ne s _ h]
  · rfl

/-! ### The packed buffer -/

/-- Storing lanes keeps the canonical form. -/
theorem writeLanes_wf {s : State} (h : s.pb.wf = true) (w : Nat) (d : Word) (k : Nat) :
    (s.writeLanes w d k).wf = true := by
  induction k with
  | zero => exact h
  | succ k ih =>
    unfold State.writeLanes
    split
    · exact write_wf _ _ ih
    · exact ih

/-- What a buffer reads as after `k` lanes of word `w` were stored (20_memory.md R76, R77). -/
theorem read_writeLanes {s : State} (h : s.pb.wf = true) (w : Nat) (d : Word) (k j : Nat) :
    (s.writeLanes w d k).read j =
      if 8 * w ≤ j ∧ j < 8 * w + k ∧ j < s.field.packedBytes then d.extractLsb' (8 * (j - 8 * w)) 8
      else s.pb.read j := by
  induction k with
  | zero =>
    rw [if_neg (by omega)]
    rfl
  | succ k ih =>
    unfold State.writeLanes
    by_cases hj : j = 8 * w + k
    · subst hj
      split
      · rw [read_write_same _ _ (writeLanes_wf h w d k), if_pos (by omega)]
        congr 2
        omega
      · rw [ih, if_neg (by omega), if_neg (by omega)]
    · have e : (8 * w ≤ j ∧ j < 8 * w + (k + 1) ∧ j < s.field.packedBytes) ↔
          (8 * w ≤ j ∧ j < 8 * w + k ∧ j < s.field.packedBytes) := by omega
      split
      · rw [read_write_ne _ _ hj, ih]
        simp only [e]
      · rw [ih]
        simp only [e]

/-- PACK and NPACK keep the canonical form. -/
theorem completePb_wf {s : State} (h : s.pb.wf = true) (r : Nat) : (s.completePb r).pb.wf = true :=
  fill_wf _ _ h

/-- The buffer after reset is in canonical form. -/
theorem reset_pb_wf : State.reset.pb.wf = true := rfl

/-! ### Steps -/

/-- A step completes the command that is due, or serves the host. -/
theorem step_cases (s : State) :
    (∃ r, s.inflight = some r ∧ r.remaining = 0 ∧ step s = runWord r.word s) ∨
    (s.dueWord = none ∧ step s = .next s.advance) := by
  unfold step
  cases h : s.dueWord with
  | none => exact .inr ⟨rfl, rfl⟩
  | some w =>
    refine .inl ?_
    unfold State.dueWord at h
    split at h
    · split at h
      · exact ⟨_, by assumption, by assumption, by simp_all⟩
      · cases h
    · cases h

/-- The machine never stops: a step always answers a next state (60_exceptions.md R300). -/
theorem step_next (s : State) : ∃ t, step s = .next t := by
  rcases step_cases s with ⟨r, _, _, h⟩ | ⟨_, h⟩
  · rcases runWord_cases r.word s with ⟨i, _, h'⟩ | ⟨e, _, h'⟩
    · obtain ⟨t, ht⟩ := exec_next i s
      exact ⟨t, by rw [h, h', ht]⟩
    · exact ⟨_, by rw [h, h']⟩
  · exact ⟨_, h⟩

/-- With no completion due, one host event is served, or time passes. -/
theorem advance_cases (s : State) :
    (s.inputs = [] ∧ s.advance = s.tick) ∨
    ∃ e rest, s.inputs = e :: rest ∧ s.advance = State.event { s with inputs := rest } e := by
  unfold State.advance
  cases s.inputs with
  | nil => exact .inl ⟨rfl, rfl⟩
  | cons e rest => exact .inr ⟨e, rest, rfl, rfl⟩

end Sys2Proof.Machine
end

