-- ==== Sys2Proof/Laws/PerInstr.lean ====
section
/-! SUPPORT. What holds of every command as syntax, said once per constructor: its command word carries its row's
opcode and a zero RSV field (30_encoding.md R101, R105, R112). -/

namespace Sys2Proof.Laws.EncodingFields

/-- The command word of `i` has the opcode of its row in OPC and 0 in RSV. -/
def Statement (i : Instr) : Prop := opcField (encode i) = i.op.code ∧ rsvField (encode i) = 0

/-- The fields of an assembled word, whatever its operands. -/
theorem encodeFields_fields (opc : BitVec 8) (vd va vb : Reg) (imm : Imm) :
    opcField (encodeFields opc vd va vb imm) = opc ∧ rsvField (encodeFields opc vd va vb imm) = 0 := by
  unfold opcField rsvField encodeFields
  refine ⟨BitVec.eq_of_getLsbD_eq fun k hk => ?_, BitVec.eq_of_getLsbD_eq fun k hk => ?_⟩ <;>
    rw [BitVec.getLsbD_extractLsb']
  · rw [BitVec.getLsbD_append]
    simp [hk]
  · iterate 5 rw [BitVec.getLsbD_append]
    rw [if_neg (by omega), if_neg (by omega), if_neg (by omega), if_neg (by omega), if_pos (by omega)]
    simp

theorem add (vd va vb : Reg) : Statement (.add vd va vb) := encodeFields_fields _ _ _ _ _

theorem sub (vd va vb : Reg) : Statement (.sub vd va vb) := encodeFields_fields _ _ _ _ _

theorem adds (vd va : Reg) (imm : Imm) : Statement (.adds vd va imm) := encodeFields_fields _ _ _ _ _

theorem neg (vd va : Reg) : Statement (.neg vd va) := encodeFields_fields _ _ _ _ _

theorem mul (vd va vb : Reg) : Statement (.mul vd va vb) := encodeFields_fields _ _ _ _ _

theorem muls (vd va : Reg) (imm : Imm) : Statement (.muls vd va imm) := encodeFields_fields _ _ _ _ _

theorem sqr (vd va : Reg) : Statement (.sqr vd va) := encodeFields_fields _ _ _ _ _

theorem norm (vd va : Reg) : Statement (.norm vd va) := encodeFields_fields _ _ _ _ _

theorem inv (vd va : Reg) : Statement (.inv vd va) := encodeFields_fields _ _ _ _ _

theorem div (vd va vb : Reg) : Statement (.div vd va vb) := encodeFields_fields _ _ _ _ _

theorem sqrt (vd va : Reg) : Statement (.sqrt vd va) := encodeFields_fields _ _ _ _ _

theorem isqrt (vd va : Reg) : Statement (.isqrt vd va) := encodeFields_fields _ _ _ _ _

theorem leg (va : Reg) : Statement (.leg va) := encodeFields_fields _ _ _ _ _

theorem legq (va : Reg) : Statement (.legq va) := encodeFields_fields _ _ _ _ _

theorem pack (va : Reg) : Statement (.pack va) := encodeFields_fields _ _ _ _ _

theorem npack (va : Reg) : Statement (.npack va) := encodeFields_fields _ _ _ _ _

theorem unpack (vd : Reg) : Statement (.unpack vd) := encodeFields_fields _ _ _ _ _

theorem mov (vd va : Reg) : Statement (.mov vd va) := encodeFields_fields _ _ _ _ _

theorem ldi (vd : Reg) (imm : Imm) : Statement (.ldi vd imm) := encodeFields_fields _ _ _ _ _

theorem eq (va vb : Reg) : Statement (.eq va vb) := encodeFields_fields _ _ _ _ _

theorem eqn (va vb : Reg) : Statement (.eqn va vb) := encodeFields_fields _ _ _ _ _

theorem sign (va : Reg) : Statement (.sign va) := encodeFields_fields _ _ _ _ _

theorem signn (va : Reg) : Statement (.signn va) := encodeFields_fields _ _ _ _ _

theorem bit (va : Reg) (imm : Imm) : Statement (.bit va imm) := encodeFields_fields _ _ _ _ _

theorem bitn (va : Reg) (imm : Imm) : Statement (.bitn va imm) := encodeFields_fields _ _ _ _ _

theorem abs (vd va : Reg) : Statement (.abs vd va) := encodeFields_fields _ _ _ _ _

theorem mask (vd va : Reg) (imm : Imm) : Statement (.mask vd va imm) := encodeFields_fields _ _ _ _ _

theorem masks (vd va : Reg) : Statement (.masks vd va) := encodeFields_fields _ _ _ _ _

theorem or (vd va vb : Reg) : Statement (.or vd va vb) := encodeFields_fields _ _ _ _ _

end Sys2Proof.Laws.EncodingFields
end

