-- ==== Sys2Proof/Tests/Slice0.lean ====
section
/-! SUPPORT. The model's own tests. Every expected value is the spec's: a row of 95_test_vectors.md (named in the
comment before it, or in a section's heading), a table of a section file, or a word written out field by field from
30_encoding.md R101. The last sections show, for every obligation with hypotheses, states and operands that meet
them. -/

namespace Sys2Proof.Tests

open Sys2Proof Sys2Proof.Machine

/-! ### The well-formedness check: an ill-formed term for it, and the two legal ones (R102 (c), R104) -/

theorem test_mask_immediate_two_is_ill_formed : (Instr.mask 3 1 2).wellFormed = false := by decide

theorem test_mask_immediate_minus_one_is_ill_formed : (Instr.mask 3 1 0xFFFFFFFF).wellFormed = false := by decide

theorem test_mask_immediates_zero_and_one_are_well_formed :
    (Instr.mask 3 1 0).wellFormed = true ∧ (Instr.mask 3 1 1).wellFormed = true := by decide

/-! ### Decoding: one word for every constructor, written out as the tables of L2.1 to L2.9 give it -/

theorem test_decode_add : decode 0x0000000000021310 = .ok (.add 3 1 2) := by decide
theorem test_decode_sub : decode 0x0000000000021311 = .ok (.sub 3 1 2) := by decide
theorem test_decode_adds : decode 0x8000000000001312 = .ok (.adds 3 1 0x80000000) := by decide
theorem test_decode_neg : decode 0x0000000000001313 = .ok (.neg 3 1) := by decide
theorem test_decode_mul : decode 0x0000000000021320 = .ok (.mul 3 1 2) := by decide
theorem test_decode_muls : decode 0xFFFFFFFF00001321 = .ok (.muls 3 1 0xFFFFFFFF) := by decide
theorem test_decode_sqr : decode 0x0000000000001322 = .ok (.sqr 3 1) := by decide
theorem test_decode_norm : decode 0x0000000000001330 = .ok (.norm 3 1) := by decide
theorem test_decode_inv : decode 0x0000000000001340 = .ok (.inv 3 1) := by decide
theorem test_decode_div : decode 0x0000000000021341 = .ok (.div 3 1 2) := by decide
theorem test_decode_sqrt : decode 0x0000000000001348 = .ok (.sqrt 3 1) := by decide
theorem test_decode_isqrt : decode 0x0000000000001349 = .ok (.isqrt 3 1) := by decide
theorem test_decode_leg : decode 0x000000000000504A = .ok (.leg 5) := by decide
theorem test_decode_legq : decode 0x000000000000104B = .ok (.legq 1) := by decide
theorem test_decode_pack : decode 0x0000000000001050 = .ok (.pack 1) := by decide
theorem test_decode_npack : decode 0x0000000000001051 = .ok (.npack 1) := by decide
theorem test_decode_unpack : decode 0x0000000000000352 = .ok (.unpack 3) := by decide
theorem test_decode_mov : decode 0x0000000000001360 = .ok (.mov 3 1) := by decide
theorem test_decode_ldi : decode 0x7FFFFFFF00000361 = .ok (.ldi 3 0x7FFFFFFF) := by decide
theorem test_decode_eq : decode 0x0000000000024062 = .ok (.eq 4 2) := by decide
theorem test_decode_eqn : decode 0x0000000000024063 = .ok (.eqn 4 2) := by decide
theorem test_decode_sign : decode 0x0000000000001064 = .ok (.sign 1) := by decide
theorem test_decode_signn : decode 0x0000000000001065 = .ok (.signn 1) := by decide
theorem test_decode_bit : decode 0x0000000700002066 = .ok (.bit 2 7) := by decide
theorem test_decode_bitn : decode 0x0000003A00001067 = .ok (.bitn 1 58) := by decide
theorem test_decode_abs : decode 0x0000000000001368 = .ok (.abs 3 1) := by decide
theorem test_decode_mask : decode 0x0000000100001769 = .ok (.mask 7 1 1) := by decide
theorem test_decode_masks : decode 0x000000000000336A = .ok (.masks 3 3) := by decide
theorem test_decode_or : decode 0x000000000008796B = .ok (.or 9 7 8) := by decide

/-- L2.9 D1 to D7 and D10: the refused words, and which of the two decode errors wins. -/
theorem test_decode_refuses :
    decode 0x0000000000000000 = .error .illegalOpcode ∧ decode 0x00000000000000FF = .error .illegalOpcode ∧
    decode 0x0000000000100014 = .error .illegalOpcode ∧ decode 0x0000000000121310 = .error .reservedField ∧
    decode 0x0000000100021310 = .error .reservedField ∧ decode 0x000000000000514A = .error .reservedField ∧
    decode 0x0000000300002169 = .error .reservedField ∧ decode 0x000000000010104B = .error .reservedField := by
  decide

/-- R113: the pseudo-instructions' words, by R112. -/
theorem test_pseudo_instructions :
    encode (Instr.ldz 1) = 0x0000000000000161 ∧ encode (Instr.ldone 1) = 0x0000000100000161 ∧
    encode (Instr.ldmone 1) = 0xFFFFFFFF00000161 ∧ encode (Instr.subs 3 1 1) = 0xFFFFFFFF00001312 ∧
    encode (Instr.clone 3 1) = 0x0000000000001360 ∧ encode (Instr.sqrm 3 1) = 0x0000000000011320 := by decide

theorem test_decode_table_word :
    decodeTableWord 64 0x0000000000021310 = some (.add 3 1 2) ∧ decodeTableWord 64 0x14 = none := by decide

/-! ### One command, run by one step: the vectors of L2.1 to L2.8 -/

/-- A unit with `A` in v1 and `B` in v2. -/
def unit (f : FieldId) (a b : DigitVec) : State := ((State.resetOf (.table f)).setReg 1 a).setReg 2 b

/-- `x[vd]` after the step that runs a command word. -/
def regAfter (w : Word) (vd : Reg) (s : State) : Option DigitVec :=
  match step (s.placeWord w) with
  | .next t => some (t.reg vd)
  | .fault _ => none
  | .refused _ => none

/-- SRES after the step that runs a command word. -/
def sresAfter (w : Word) (s : State) : Option Word :=
  match step (s.placeWord w) with
  | .next t => some t.sres
  | .fault _ => none
  | .refused _ => none

/-- PBUF word `k` after the step that runs a command word. -/
def pbufAfter (w : Word) (k : Nat) (s : State) : Option Word :=
  match step (s.placeWord w) with
  | .next t => some (t.pbufWord k)
  | .fault _ => none
  | .refused _ => none

/-- STATUS after the step that runs a command word. -/
def statusAfter (w : Word) (s : State) : Option Word :=
  match step (s.placeWord w) with
  | .next t => some t.statusWord
  | .fault _ => none
  | .refused _ => none

/-- `lazy -1`, `canon(p)` and `mone` of 95_test_vectors.md. -/
def lazy1 : DigitVec := [0x3ffffffffffffff, 0x3ffffffffffffff, 0xffffffffffffffff]
def vecP : DigitVec := [0x3fffffffffffffb, 0x3ffffffffffffff, 0x3fff]
def mone : DigitVec := [0x3fffffffffffffa, 0x3ffffffffffffff, 0x3fff]
def small (w : Word) : DigitVec := [w, 0, 0]

-- A2: a carry bit above the top digit's nominal width.
theorem test_add_keeps_the_top_carry : regAfter 0x0000000000021310 3 (unit .e130 mone mone) =
    some [0x3fffffffffffff4, 0x3ffffffffffffff, 0x7fff] := by decide
-- A9: the most negative top word.
theorem test_add_reinjects_a_negative_carry :
    regAfter 0x0000000000021310 3 (unit .e130 [0, 0, 0x8000000000000000] (small 0)) =
    some [0x3f6000000000000, 0x3ffffffffffffff, 0xffffffffffffffff] := by decide
-- A4: a negative difference.
theorem test_sub_gives_lazy_minus_one : regAfter 0x0000000000021311 3 (unit .e130 (small 1) (small 2)) =
    some lazy1 := by decide
-- A13 and A14: the extreme immediates.
theorem test_adds_most_negative : regAfter 0x8000000000001312 3 (unit .e130 (small 0) []) =
    some [0x3ffffff80000000, 0x3ffffffffffffff, 0xffffffffffffffff] := by decide
theorem test_adds_ripples : regAfter 0x7FFFFFFF00001312 3 (unit .e130 (small 0x3ffffffffffffff) []) =
    some [0x7ffffffe, 0x1, 0x0] := by decide
-- A17: the operand's negative top carry comes back with the opposite sign.
theorem test_neg_of_lazy_minus_one : regAfter 0x0000000000001313 3 (unit .e130 lazy1 []) =
    some [0x6, 0x0, 0xffffffffffffc000] := by decide
-- M2 and M4: the weak reduction stops below `2^n`.
theorem test_mul_is_weakly_reduced : regAfter 0x0000000000021320 3 (unit .e130 mone mone) =
    some [0x3fffffffffffffc, 0x3ffffffffffffff, 0x3fff] := by decide
theorem test_mul_of_a_negative_value : regAfter 0x0000000000021320 3 (unit .e130 lazy1 (small 1)) =
    some mone := by decide
-- M11 and M8.
theorem test_muls_most_negative : regAfter 0x8000000000001321 3 (unit .e130 [0, 0, 0x2000] []) =
    some [0x3fffffebffffffb, 0x3ffffffffffffff, 0x3fff] := by decide
theorem test_muls_minus_one : regAfter 0xFFFFFFFF00001321 3 (unit .e130 (small 3) []) =
    some [0x3fffffffffffff8, 0x3ffffffffffffff, 0x3fff] := by decide
-- S5 and S7.
theorem test_sqr_wraps_at_two_to_the_n : regAfter 0x0000000000001322 3 (unit .e130 [0, 0x80, 0] []) =
    some (small 5) := by decide
theorem test_sqr_of_all_ones_words : regAfter 0x0000000000001322 3
    (unit .e130 [0xffffffffffffffff, 0xffffffffffffffff, 0xffffffffffffffff] []) =
    some [0xa00000000001, 0x500000000002, 0x3] := by decide
-- N1 and N6.
theorem test_norm_of_p_is_zero : regAfter 0x0000000000001330 3 (unit .e130 vecP []) = some (small 0) := by decide
theorem test_norm_reduces_a_negative_top : regAfter 0x0000000000001330 3 (unit .e130 [0, 0, 0x8000000000000000] []) =
    some [0x3f5fffffffffffb, 0x3ffffffffffffff, 0x3fff] := by decide
-- I7 and I6.
theorem test_inv_of_three : regAfter 0x0000000000001340 3 (unit .e130 (small 3) []) =
    some [0x155555555555554, 0x155555555555555, 0x1555] := by decide +kernel
theorem test_inv_of_p_is_zero : regAfter 0x0000000000001340 3 (unit .e130 vecP []) = some (small 0) := by decide +kernel
-- I9 and I10.
theorem test_div_one_by_two : regAfter 0x0000000000021341 3 (unit .e130 (small 1) (small 2)) =
    some [0x3fffffffffffffe, 0x3ffffffffffffff, 0x1fff] := by decide +kernel
theorem test_div_by_zero_is_zero : regAfter 0x0000000000021341 3 (unit .e130 (small 7) (small 0)) =
    some (small 0) := by decide +kernel
-- Q2 in class 0, and Q15 in class 1, where the correction constant is used.
theorem test_sqrt_class0 : regAfter 0x0000000000001348 3 (unit .e130 (small 4) []) =
    some (canon (.table .e130) ((Field.table .e130).p - 2)) := by decide +kernel
theorem test_sqrt_class1 : regAfter 0x0000000000001348 3 (unit .m221 [4, 0, 0, 0] []) =
    some (canon (.table .m221) ((Field.table .m221).p - 2)) := by decide +kernel
-- Q6 and Q7.
theorem test_isqrt_of_nine : regAfter 0x0000000000001349 3 (unit .e130 (small 9) []) =
    some [0x155555555555554, 0x155555555555555, 0x1555] := by decide +kernel
theorem test_isqrt_of_zero : regAfter 0x0000000000001349 3 (unit .e130 (small 0) []) = some (small 0) := by decide +kernel
-- Q9 and Q10.
theorem test_leg_of_a_non_residue : sresAfter 0x000000000000104A (unit .e130 (small 2) []) =
    some 0xFFFFFFFFFFFFFFFF := by decide +kernel
theorem test_leg_of_a_residue : sresAfter 0x000000000000104A (unit .e130 (small 3) []) = some 1 := by decide +kernel
-- Q19 and Q21.
theorem test_legq_of_a_square : sresAfter 0x000000000000104B (unit .m221 [4, 0, 0, 0] []) =
    some 0xFFFFFFFFFFFFFFFF := by decide +kernel
theorem test_legq_of_a_fourth_power : sresAfter 0x000000000000104B (unit .m221 [16, 0, 0, 0] []) =
    some 1 := by decide +kernel
-- Q14: LEGQ in a class-0 field, as the CMD write leaves STATUS.
theorem test_legq_not_applicable :
    (State.writeCmd 0x000000000000104B (unit .e130 (small 4) [])).statusWord = 0x306 := by decide
-- K4, word 2 and word 0.
theorem test_pack_of_lazy_minus_one :
    pbufAfter 0x0000000000001050 0 (unit .e130 lazy1 []) = some 0xFFFFFFFFFFFFFFFA ∧
    pbufAfter 0x0000000000001050 2 (unit .e130 lazy1 []) = some 0x0000000000000003 := by decide
-- K7.
theorem test_npack_drops_the_carry_bits :
    pbufAfter 0x0000000000001051 0 (unit .e130 lazy1 []) = some 0xFFFFFFFFFFFFFFFF ∧
    pbufAfter 0x0000000000001051 2 (unit .e130 lazy1 []) = some 0x0000000000000003 := by decide
-- K9: padding ignored, not reduced.
theorem test_unpack_of_all_ones :
    regAfter 0x0000000000000352 3 { unit .e130 [] [] with pb := Memory.fill [] (fun _ => 0xff) 17 } =
    some [0x3ffffffffffffff, 0x3ffffffffffffff, 0x3fff] := by decide
-- T1.
theorem test_mov_copies_words : regAfter 0x0000000000001360 3 (unit .e130 lazy1 []) = some lazy1 := by decide
-- T3 and T4.
theorem test_ldi_most_negative : regAfter 0x8000000000000361 3 (unit .e130 [] []) =
    some [0x3ffffff7ffffffb, 0x3ffffffffffffff, 0x3fff] := by decide
theorem test_ldi_most_positive : regAfter 0x7FFFFFFF00000361 3 (unit .e130 [] []) = some (small 0x7fffffff) := by
  decide
-- T8 and T10.
theorem test_eq_of_two_forms : sresAfter 0x0000000000021062 (unit .e130 lazy1 mone) = some 1 := by decide
theorem test_eq_of_different_elements : sresAfter 0x0000000000021062 (unit .e130 (small 3) (small 4)) = some 0 := by
  decide
-- T9.
theorem test_eqn_of_two_forms : sresAfter 0x0000000000021063 (unit .e130 lazy1 mone) = some 0 := by decide
-- T12 and T13: the two sides of `(p-1)/2`.
theorem test_sign_of_half : sresAfter 0x0000000000001064
    (unit .e130 [0x3fffffffffffffd, 0x3ffffffffffffff, 0x1fff] []) = some 0 := by decide
theorem test_sign_above_half : sresAfter 0x0000000000001064
    (unit .e130 [0x3fffffffffffffe, 0x3ffffffffffffff, 0x1fff] []) = some 1 := by decide
-- T19 and T21.
theorem test_signn_of_p : sresAfter 0x0000000000001065 (unit .e130 vecP []) = some 1 := by decide
theorem test_signn_of_a_negative_top : sresAfter 0x0000000000001065 (unit .e130 [0, 0, 0x8000000000000000] []) =
    some 0xFFFE000000000000 := by decide
-- T24 and T26.
theorem test_bit_of_the_canonical_value : sresAfter 0x0000000000001066 (unit .e130 lazy1 []) = some 0 := by decide
theorem test_bit_at_n : sresAfter 0x0000008200001066 (unit .e130 mone []) = some 0 := by decide
-- T30 and T31.
theorem test_bitn_of_digit_one : sresAfter 0x0000003A00001067 (unit .e130 [0, 1, 0] []) = some 1 := by decide
theorem test_bitn_at_n : sresAfter 0x0000008200001067 (unit .e130 [0, 0, 0xffffffffffffffff] []) = some 0 := by decide
-- T33 and T34.
theorem test_abs_of_lazy_minus_one : regAfter 0x0000000000001368 3 (unit .e130 lazy1 []) = some (small 1) := by decide
theorem test_abs_above_half : regAfter 0x0000000000001368 3
    (unit .e130 [0x3fffffffffffffe, 0x3ffffffffffffff, 0x1fff] []) =
    some [0x3fffffffffffffd, 0x3ffffffffffffff, 0x1fff] := by decide
-- T36 and T37.
theorem test_mask_one : regAfter 0x0000000100001369 3 (unit .e130 lazy1 []) = some lazy1 := by decide
theorem test_mask_zero : regAfter 0x0000000000001369 3 (unit .e130 lazy1 []) = some (small 0) := by decide
-- T38 and T39.
theorem test_masks_one : regAfter 0x000000000000136A 3 { unit .e130 (small 9) [] with sres := 1 } =
    some (small 9) := by decide
theorem test_masks_zero : regAfter 0x000000000000136A 3 (unit .e130 (small 9) []) = some (small 0) := by decide
-- T40.
theorem test_or_merges : regAfter 0x000000000002136B 3 (unit .e130 (small 7) vecP) =
    some [0x3ffffffffffffff, 0x3ffffffffffffff, 0x3fff] := by decide
-- R310: DONE set, BUSY clear after a command.
theorem test_status_after_a_command : statusAfter 0x0000000000021310 (unit .e130 mone mone) = some 2 := by decide

/-! ### Derived constants -/

/-- 70_reset_and_hazards.md R362: chain lengths of the table, from each of its columns. -/
theorem test_chain_lengths :
    chainSquarings ((Field.table .e130).p - 2) = 129 ∧ chainMultiplies ((Field.table .e130).p - 2) = 127 ∧
    chainSquarings (((Field.table .m511).p - 1) / 2) = 509 ∧
    chainMultiplies (((Field.table .m511).p - 1) / 2) = 504 ∧
    chainSquarings (((Field.table .curve41417).p + 1) / 4) = 411 ∧
    chainMultiplies (((Field.table .curve41417).p + 1) / 4) = 409 ∧
    chainSquarings (((Field.table .m221).p + 3) / 8) = 218 ∧
    chainMultiplies (((Field.table .m221).p + 3) / 8) = 0 ∧
    chainSquarings (((Field.table .m511).p - 1) / 4) = 508 ∧
    chainMultiplies (((Field.table .m511).p - 1) / 4) = 504 := by decide +kernel

/-! ### The host window: L2.10 and L2.11 -/

/-- The unit after one host event. -/
def after (e : HostEvent) (s : State) : State := State.event s e

/-- A freshly reset E-130 unit. -/
def fresh : State := State.resetOf (.table .e130)

-- W1.
theorem test_window_ids : (fresh.hostRead 0x0000 64).readData = 0x1D0E3A0300050082 ∧
    (fresh.hostRead 0x0008 64).readData = 0x0000000100001011 := by decide
-- W2 to W5: refused accesses and what they leave in STATUS.
theorem test_window_refused_accesses :
    (fresh.hostRead 0x0004 64).statusWord = 0x704 ∧ (fresh.hostRead 0x1000 32).statusWord = 0x704 ∧
    (fresh.hostRead 0x0038 64).statusWord = 0x604 ∧ (fresh.hostWrite 0x0003 64 0).statusWord = 0x704 := by decide
-- W6 and W7.
theorem test_window_read_only :
    (fresh.hostWrite 0x0000 64 5).statusWord = 0x804 ∧ (fresh.hostWrite 0x0028 64 1).sres = 0 := by decide
-- W8 and W10.
theorem test_window_vreg_slots :
    ((fresh.hostWrite 0x1018 64 0x1234).hostRead 0x1018 64).readData = 0 ∧
    ((fresh.hostWrite 0x1790 64 0xDEADBEEF).hostRead 0x1790 64).readData = 0xDEADBEEF := by decide
-- W9.
theorem test_window_pbuf_lanes :
    ((fresh.hostWrite 0x0110 64 0xFFFFFFFFFFFFFFFF).hostRead 0x0110 64).readData = 0xFF ∧
    ((fresh.hostWrite 0x0110 64 0xFFFFFFFFFFFFFFFF).hostRead 0x0118 64).readData = 0 := by decide
-- W11: the first code is kept, and the clear.
theorem test_window_first_error_is_kept :
    (((fresh.hostRead 0x0038 64).hostWrite 0x0000 64 5).statusWord = 0x604) ∧
    (((fresh.hostRead 0x0038 64).hostWrite 0x0010 64 4).statusWord = 0) := by decide
-- W12: an illegal command word, and the two acknowledgements.
theorem test_window_decode_error :
    (fresh.hostWrite 0x0020 64 0).statusWord = 0x106 ∧
    ((fresh.hostWrite 0x0020 64 0).hostWrite 0x0010 64 2).statusWord = 0x104 ∧
    ((fresh.hostWrite 0x0020 64 0).hostWrite 0x0010 64 6).statusWord = 0 := by decide
-- W14: SRST discards IE.
theorem test_window_soft_reset : ((fresh.hostWrite 0x0018 64 1).hostWrite 0x0018 64 3).ctrlWord = 0 := by decide

/-- The MUL of L2.11 in flight with one tick left. -/
def mulInFlight : State :=
  let s := ((unit .e130 (small 3) (small 5)).placeWord 0x0000000000021320)
  { s with inflight := s.inflight.map fun r => { r with remaining := 1 } }

-- H1, H3 and H4: BUSY, and the writes the busy window drops.
theorem test_busy_window :
    mulInFlight.statusWord = 1 ∧ (mulInFlight.hostWrite 0x1008 64 0x77).statusWord = 0x505 ∧
    (mulInFlight.hostWrite 0x0020 64 0x0000000100000461).statusWord = 0x405 ∧
    (mulInFlight.hostWrite 0x0020 64 0x0000000100000461).lastcmd = 0x0000000000021320 := by decide
-- H7 and H8: one tick, then completion on the snapshot.
theorem test_completion_after_the_last_tick :
    (match step mulInFlight with
      | .next t => regAfter 0x0000000000021320 3 t
      | .fault _ => none
      | .refused _ => none) = some (small 0xf) := by decide

/-! ### States and fields the witnesses below share

Every obligation with hypotheses has a theorem `test_met_<its name>` below: concrete states and operands that meet all
of its hypotheses, and for a statement of several clauses, each clause's own, at the edges of its range. -/

/-- A unit with these host events to come. -/
def waiting (f : Field) (es : List HostEvent) : State := { State.resetOf f with inputs := es }

/-- A unit with `A` in v1, its events to come given. -/
def holding (f : Field) (a : DigitVec) : State := (State.resetOf f).setReg 1 a

/-- `ADD v3, v1, v2` in flight, its latency elapsed. -/
def due : State := fresh.placeWord 0x0000000000021310

/-- The MUL in flight with one tick left, and these host events to come. -/
def busyWith (es : List HostEvent) : State := { mulInFlight with inputs := es }

/-- The prime fields 7 (class 0), 5 (class 1) and 17 (neither). -/
def field7 : Field := .generic { n := 3, K := 2, W := 2, H := 1, M := 1, c := 1 }
def field5 : Field := .generic { n := 3, K := 2, W := 2, H := 1, M := 1, c := 3 }
def field17 : Field := .generic { n := 5, K := 2, W := 4, H := 1, M := 2, c := 15 }

theorem test_field7_admissible : field7.Admissible ∧ field7.p = 7 :=
  ⟨⟨by decide, by rw [show field7.p = 7 from by decide]; norm_num⟩, by decide⟩

theorem test_field5_admissible : field5.Admissible ∧ field5.p = 5 :=
  ⟨⟨by decide, by rw [show field5.p = 5 from by decide]; norm_num⟩, by decide⟩

theorem test_field17_admissible : field17.Admissible ∧ field17.p % 8 = 1 :=
  ⟨⟨by decide, by rw [show field17.p = 17 from by decide]; norm_num⟩, by decide⟩

theorem test_three_is_no_square_mod_seven : ¬IsSquareMod 7 3 := by
  rintro ⟨b, h⟩
  have hb := Nat.mod_lt b (show 0 < 7 by norm_num)
  rw [Nat.pow_mod] at h
  interval_cases b % 7 <;> simp at h

theorem test_two_is_no_square_mod_five : ¬IsSquareMod 5 2 := by
  rintro ⟨b, h⟩
  have hb := Nat.mod_lt b (show 0 < 5 by norm_num)
  rw [Nat.pow_mod] at h
  interval_cases b % 5 <;> simp at h

theorem test_four_is_no_fourth_power_mod_five : ¬IsFourthPowerMod 5 4 := by
  rintro ⟨b, h⟩
  have hb := Nat.mod_lt b (show 0 < 5 by norm_num)
  rw [Nat.pow_mod] at h
  interval_cases b % 5 <;> simp at h

theorem test_zero_is_normalized (f : Field) (h : 0 < f.p) : Normalized f (canon f 0) := ⟨0, h, rfl⟩

/-- The shapes of the invariant on a fresh E-130 unit. -/
theorem test_fresh_is_shaped : fresh.RegsShaped ∧ fresh.PbShaped ∧ fresh.StatusShaped := by
  refine ⟨⟨fun r => ?_, fun i => ?_⟩, ⟨rfl, fun _ _ => rfl⟩, by simp [fresh, State.resetOf],
    by simp [fresh, State.resetOf]⟩
  · simp [fresh, State.resetOf, State.reg]
  · simp [fresh, State.resetOf]

theorem test_due_is_invariant : due.Inv := by
  obtain ⟨a, b, c⟩ := test_fresh_is_shaped
  refine ⟨a, b, c, fun r hr => ?_⟩
  simp only [due, State.placeWord, Option.some.injEq] at hr
  subst hr
  exact ⟨rfl, rfl, .add 3 1 2, by decide, rfl, Nat.zero_le _⟩

/-! ### Witnesses: encoding and the life of a command -/

theorem test_met_DecodeOfEncodeIsTheCommand :
    (Instr.mask 15 0 1).wellFormed = true ∧ (Instr.ldi 0 0xFFFFFFFF).wellFormed = true := by decide

theorem test_met_EncodeOfDecodeIsTheWord : decode 0x000000010000FF69 = .ok (.mask 15 15 1) := by decide

theorem test_met_StepRunsTheDecodedCommand :
    ∃ r, due.inflight = some r ∧ r.remaining = 0 ∧ decode r.word = .ok (.add 3 1 2) := ⟨_, rfl, rfl, by decide⟩

theorem test_met_CmdWriteIsAccepted :
    let s := waiting (.table .e130) [.write 0x0020 64 0x0000000000021310]
    s.inflight = none ∧ s.inputs = .write 0x0020 64 0x0000000000021310 :: [] ∧
      decode 0x0000000000021310 = .ok (.add 3 1 2) ∧ s.field.hasOp (Instr.add 3 1 2).op = true := by decide

/-- Each of the three ways to be refused: D3, D4 and D9 of L2.9. -/
theorem test_met_RefusedCommandWordIsPrecise :
    (waiting (.table .e130) [.write 0x0020 64 0x0000000000100014]).inflight = none ∧
    decode 0x0000000000100014 = .error .illegalOpcode ∧ decode 0x0000000000121310 = .error .reservedField ∧
    decode 0x000000000000104B = .ok (.legq 1) ∧ (Field.table .e130).hasOp (Instr.legq 1).op = false := by decide

theorem test_met_AcceptedCommandCompletesAfterItsLatency :
    let s := waiting (.table .e130) (.write 0x0020 64 0x0000000000021310 ::
      (List.replicate (Config.lat .add (.table .e130)) .tick ++ [.rst]))
    s.inflight = none ∧ decode 0x0000000000021310 = .ok (.add 3 1 2) ∧ s.field.hasOp Op.add = true ∧
      s.inputs = .write 0x0020 64 0x0000000000021310 ::
        (List.replicate (Config.lat Op.add s.field) .tick ++ [.rst]) := ⟨rfl, by decide, rfl, rfl⟩

theorem test_met_CommandInFlightCompletesUnlessReset :
    due.Inv ∧ (∃ r, due.inflight = some r) ∧ ∀ e ∈ due.inputs, e.resets = false :=
  ⟨test_due_is_invariant, ⟨_, rfl⟩, by decide⟩

theorem test_met_SnapshotIsUnobservable :
    due.Inv ∧ ∃ r, due.inflight = some r ∧ decode r.word = .ok (.add 3 1 2) :=
  ⟨test_due_is_invariant, _, rfl, by decide⟩

theorem test_met_EveryApplicableCommandCompletes :
    (Field.table .m221).hasOp (Instr.legq 1).op = true ∧ (Field.table .e130).hasOp (Instr.sqrt 1 1).op = true := by
  decide

/-- Each of the two classes that lack an operation. -/
theorem test_met_MissingOperationIsNotApplicable :
    (State.resetOf field17).field.p % 8 = 1 ∧ fresh.field.p % 4 = 3 := by decide

/-- One of the eight where the field has it, MASKS, and one of the eight where the field lacks it. -/
theorem test_met_ScalarCommandsAloneWriteSres :
    fresh.inflight = none ∧ (Instr.bitn 1 0).op ∈ [Op.leg, .legq, .eq, .eqn, .sign, .signn, .bit, .bitn] ∧
    fresh.field.hasOp (Instr.bitn 1 0).op = true ∧
    (Instr.masks 1 1).op ∉ [Op.leg, .legq, .eq, .eqn, .sign, .signn, .bit, .bitn] ∧
    fresh.field.hasOp (Instr.legq 1).op = false := by decide

/-! ### Witnesses: invariants and noninterference -/

theorem test_met_EveryStepKeepsTheInvariant : due.Inv ∧ ∃ t, step due = .next t :=
  ⟨test_due_is_invariant, step_next _⟩

/-- The registers of `due`, and the sources of its snapshot, are Carried: they are 0. -/
theorem test_zero_is_carried : Carried (.table .e130) (small 0) := by
  intro j hj
  have hj2 : j < 2 := hj
  interval_cases j <;> decide

theorem test_due_is_carried (s : State) (hf : s.field = .table .e130) (hx : s.x = fresh.x)
    (hq : ∀ q, s.inflight = some q → q.snap = fresh.snapshot q.word) : s.AllCarried := by
  have hr : ∀ r, fresh.reg r = small 0 := by decide
  refine ⟨fun r => ?_, fun q h => ?_⟩
  · rw [hf, reg_congr hx, hr]
    exact test_zero_is_carried
  · rw [hf, hq q h]
    constructor
    · change Carried _ (fresh.reg _)
      rw [hr]
      exact test_zero_is_carried
    · change Carried _ (fresh.reg _)
      rw [hr]
      exact test_zero_is_carried

/-- A CMD write served while idle, a completion with a VREG write next, and a VREG write that is dropped while busy. -/
theorem test_met_OnlyVregWritesBreakCarried :
    let s := waiting (.table .e130) [.write 0x0020 64 0x0000000000021310]
    let u := { due with inputs := [.write 0x1000 64 0xFFFFFFFFFFFFFFFF] }
    let v := { u with inflight := u.inflight.map fun r => { r with remaining := 1 } }
    fresh.field.shapeOk = true ∧ s.AllCarried ∧
      (s.busy = false → ∀ e rest, s.inputs = e :: rest → e.writesVreg = false) ∧ u.AllCarried ∧ u.busy = true ∧
      u.dueWord.isSome = true ∧ v.AllCarried ∧ v.busy = true ∧ v.dueWord = none ∧ ∃ t, step v = .next t := by
  refine ⟨by decide, test_due_is_carried _ rfl rfl (fun q h => by cases h), fun _ e rest h => ?_,
    test_due_is_carried _ rfl rfl (fun q h => ?_), by decide, by decide,
    test_due_is_carried _ rfl rfl (fun q h => ?_), by decide, by decide, step_next _⟩
  · simp only [waiting, List.cons.injEq] at h
    rw [← h.1]
    decide
  · simp only [due, State.placeWord, Option.some.injEq] at h
    subst h
    rfl
  · simp only [due, State.placeWord, Option.map_some, Option.some.injEq] at h
    subst h
    rfl

theorem test_met_TimingDoesNotDependOnData :
    (unit .e130 mone lazy1).timing = (unit .e130 vecP mone).timing ∧
      ∃ t, step (unit .e130 mone lazy1) = .next t := ⟨rfl, step_next _⟩

theorem test_met_ScratchVectorsAreUnobservable : ∃ t, step due = .next t := step_next _

/-! ### Witnesses: reset and the host window -/

/-- Both ways to reset, and both while a command is in flight. -/
theorem test_met_SoftResetAndRstAbandonTheCommand :
    (busyWith [.rst]).dueWord = none ∧ (busyWith [.rst]).inputs = .rst :: [] ∧
    (busyWith [.write 0x0018 64 3]).dueWord = none ∧ (3 : Word).getLsbD 1 = true ∧
    (busyWith [.write 0x0018 64 3]).inputs = .write 0x0018 64 3 :: [] := by decide

/-- The edges of each range of the map. -/
theorem test_met_WindowMapIsTheSpecs :
    windowReg 0x0140 = some (.pbuf 8) ∧ windowReg 0x0148 = none ∧ windowReg 0x1000 = some (.vreg 0 0) ∧
    windowReg 0x17F8 = some (.vreg 15 15) ∧ windowReg 0x1800 = none ∧ windowReg 0x0FF8 = none ∧
    windowReg 0x0038 = none ∧ windowReg 0x00F8 = none := by decide

/-- One access for each clause. -/
theorem test_met_RefusedHostAccessIsPrecise :
    (busyWith [.read 0x0004 64]).dueWord = none ∧ ¬((64 : Nat) = 64 ∧ (0x0004 : BitVec 16).toNat % 8 = 0) ∧
    ¬((32 : Nat) = 64 ∧ (0x1000 : BitVec 16).toNat % 8 = 0) ∧
    (0x0038 : BitVec 16).toNat % 8 = 0 ∧ windowReg 0x0038 = none ∧
    (busyWith [.write 0x0020 64 0]).busy = true ∧
    (0x0140 : BitVec 16).toNat % 8 = 0 ∧ windowReg 0x0140 = some (.pbuf 8) ∧
    (0x17F8 : BitVec 16).toNat % 8 = 0 ∧ windowReg 0x17F8 = some (.vreg 15 15) := by decide

/-- Reads of VREG, SRES and PBUF while idle, a read of STATUS while busy, and a read of VREG while busy. -/
theorem test_met_MappedReadsHaveNoSideEffects :
    (waiting (.table .e130) [.read 0x1000 64]).dueWord = none ∧ windowReg 0x1000 = some (.vreg 0 0) ∧
    (waiting (.table .e130) [.read 0x1000 64]).busy = false ∧ windowReg 0x0028 = some .sres ∧
    windowReg 0x0140 = some (.pbuf 8) ∧
    (busyWith [.read 0x0010 64]).dueWord = none ∧ windowReg 0x0010 = some .status ∧
    (busyWith [.read 0x1000 64]).dueWord = none ∧ (busyWith [.read 0x1000 64]).busy = true := by decide

/-- The last digit and the first slot beyond it, and the last slot of the window. -/
theorem test_met_VregWindowIsTheDigits :
    fresh.RegsShaped ∧ fresh.inflight = none ∧
    (waiting fresh.field [.read 0x1790 64]).inputs =
      .read (BitVec.ofNat 16 (0x1000 + 0x80 * (15 : Reg).toNat + 8 * 2)) 64 :: [] ∧
    (waiting fresh.field [.write 0x1790 64 7]).inputs =
      .write (BitVec.ofNat 16 (0x1000 + 0x80 * (15 : Reg).toNat + 8 * 2)) 64 7 :: [] ∧
    (waiting fresh.field [.write 0x1018 64 7]).inputs =
      .write (BitVec.ofNat 16 (0x1000 + 0x80 * (0 : Reg).toNat + 8 * 3)) 64 7 :: [] ∧
    (waiting fresh.field [.write 0x17F8 64 7]).inputs =
      .write (BitVec.ofNat 16 (0x1000 + 0x80 * (15 : Reg).toNat + 8 * 15)) 64 7 :: [] :=
  ⟨test_fresh_is_shaped.1, rfl, by decide, by decide, by decide, by decide⟩

/-- A word with all lanes live, the word with one live lane, and the last word of the window. -/
theorem test_met_PbufWindowIsTheBytes :
    fresh.PbShaped ∧ fresh.inflight = none ∧
    (waiting fresh.field [.read 0x0140 64]).inputs = .read (BitVec.ofNat 16 (0x0100 + 8 * 8)) 64 :: [] ∧
    (waiting fresh.field [.write 0x0100 64 7]).inputs = .write (BitVec.ofNat 16 (0x0100 + 8 * 0)) 64 7 :: [] ∧
    (waiting fresh.field [.write 0x0110 64 7]).inputs = .write (BitVec.ofNat 16 (0x0100 + 8 * 2)) 64 7 :: [] ∧
    (waiting fresh.field [.write 0x0140 64 7]).inputs = .write (BitVec.ofNat 16 (0x0100 + 8 * 8)) 64 7 :: [] :=
  ⟨test_fresh_is_shaped.2.1, rfl, by decide, by decide, by decide, by decide⟩

theorem test_met_StatusAndCtrlWritesAreTaken :
    (busyWith [.write 0x0010 64 6]).dueWord = none ∧
    (busyWith [.write 0x0010 64 6]).inputs = .write 0x0010 64 6 :: [] ∧
    (busyWith [.write 0x0018 64 1]).inputs = .write 0x0018 64 1 :: [] ∧ (1 : Word).getLsbD 1 = false := by decide

/-! ### Witnesses: fields and digit vectors -/

theorem test_met_SqrtCoefficientsAreTheSpecs :
    (Field.table .m221).sqrtClass = .class1 ∧ (Field.table .m511).sqrtClass = .class1 := by decide +kernel

theorem test_met_CanonRepresentsItsInteger :
    (Field.table .e130).shapeOk = true ∧ 2 ^ 130 - 1 < 2 ^ (Field.table .e130).n := by decide

theorem test_met_AdderCoreRepresentationLaw :
    Carried (.table .e130) mone ∧ Carried (.table .e130) lazy1 := by
  constructor <;> intro j hj <;> (have hj2 : j < 2 := hj) <;> interval_cases j <;> decide

/-- An integer of each range. -/
theorem test_met_FoldEndsInRangeAndKeepsTheResidue :
    (Field.table .e130).shapeOk = true ∧ (2 : Int) ^ (Field.table .e130).n ≤ 2 ^ 130 ∧ (-1 : Int) < 0 ∧
    (0 : Int) ≤ 2 ^ 130 - 1 ∧ (2 : Int) ^ 130 - 1 < 2 ^ (Field.table .e130).n ∧
    (Field.table .e130).p ≤ fold (.table .e130) (2 ^ 130 - 1) := by decide

theorem test_met_NormIsCanonical : (Field.table .e130).shapeOk = true ∧ lazy1.length = (Field.table .e130).K := by
  decide

theorem test_met_FixedChainComputesThePower : (Field.table .e130).shapeOk = true ∧ 0 < 1 := by decide

/-! ### Witnesses: the commands -/

theorem test_met_AdderCommandsGiveSumAndDifference :
    (unit .e130 mone lazy1).field.shapeOk = true ∧ (unit .e130 mone lazy1).field = .table .e130 := by decide

theorem test_met_MultiplierCommandsGiveTheProduct : (unit .e130 mone lazy1).field.shapeOk = true := by decide

theorem test_met_SquareIsTheProductWithItself : (unit .e130 mone lazy1).inflight = none := rfl

theorem test_met_NormGivesTheCanonicalForm : (unit .e130 lazy1 []).field.shapeOk = true := by decide

theorem test_met_AddThenSubtractGivesBack :
    (unit .e130 mone lazy1).field = .table .e130 ∧ (unit .e130 mone lazy1).inflight = none ∧
    (3 : Reg) ≠ 1 ∧ (3 : Reg) ≠ 2 ∧ (4 : Reg) ≠ 2 := by decide

/-- A nonzero operand and zero. -/
theorem test_met_InvGivesTheInverse :
    (holding field7 (canon field7 3)).field.Admissible ∧ modp field7 ((holding field7 (canon field7 3)).sourceA 1) ≠ 0 ∧
    modp field7 ((holding field7 (canon field7 0)).sourceA 1) = 0 :=
  ⟨test_field7_admissible.1, by decide, by decide⟩

/-- A nonzero divisor and zero. -/
theorem test_met_DivGivesTheQuotient :
    (holding field7 (canon field7 3)).field.Admissible ∧ modp field7 ((holding field7 (canon field7 3)).sourceB 1) ≠ 0 ∧
    modp field7 ((holding field7 (canon field7 3)).sourceB 2) = 0 :=
  ⟨test_field7_admissible.1, by decide, by decide⟩

/-- Class 0 with a square, and class 1 with each of the two cases of R202. -/
theorem test_met_SqrtGivesASquareRoot :
    field7.Admissible ∧ field7.p % 4 = 3 ∧ 2 = modp field7 ((holding field7 (canon field7 2)).sourceA 1) ∧
    IsSquareMod field7.p 2 ∧ field5.Admissible ∧ field5.p % 8 = 5 ∧
    1 = modp field5 ((holding field5 (canon field5 1)).sourceA 1) ∧ 1 ^ ((field5.p - 1) / 4) % field5.p = 1 ∧
    4 = modp field5 ((holding field5 (canon field5 4)).sourceA 1) ∧
    4 ^ ((field5.p - 1) / 4) % field5.p = field5.p - 1 :=
  ⟨test_field7_admissible.1, by decide, by decide, ⟨3, by decide⟩, test_field5_admissible.1, by decide, by decide,
    by decide, by decide, by decide⟩

/-- Zero, and a nonzero square in each class. -/
theorem test_met_IsqrtGivesTheInverseSquareRoot :
    field7.Admissible ∧ field7.p % 4 = 3 ∧ 0 = modp field7 ((holding field7 (canon field7 0)).sourceA 1) ∧
    2 = modp field7 ((holding field7 (canon field7 2)).sourceA 1) ∧ IsSquareMod field7.p 2 ∧
    field5.Admissible ∧ field5.p % 8 = 5 ∧ 4 = modp field5 ((holding field5 (canon field5 4)).sourceA 1) ∧
    IsSquareMod field5.p 4 :=
  ⟨test_field7_admissible.1, by decide, by decide, by decide, ⟨3, by decide⟩, test_field5_admissible.1, by decide,
    by decide, ⟨2, by decide⟩⟩

/-- A nonzero square, a non-residue, and zero. -/
theorem test_met_LegGivesTheLegendreSymbol :
    field7.Admissible ∧ 2 = modp field7 ((holding field7 (canon field7 2)).sourceA 1) ∧ IsSquareMod field7.p 2 ∧
    3 = modp field7 ((holding field7 (canon field7 3)).sourceA 1) ∧ ¬IsSquareMod field7.p 3 ∧
    0 = modp field7 ((holding field7 (canon field7 0)).sourceA 1) :=
  ⟨test_field7_admissible.1, by decide, ⟨3, by decide⟩, by decide,
    by rw [test_field7_admissible.2]; exact test_three_is_no_square_mod_seven, by decide⟩

/-- A fourth power, another square, a non-residue, and zero. -/
theorem test_met_LegqGivesTheQuarticSymbol :
    field5.Admissible ∧ field5.p % 8 = 5 ∧
    1 = modp field5 ((holding field5 (canon field5 1)).sourceA 1) ∧ IsFourthPowerMod field5.p 1 ∧
    4 = modp field5 ((holding field5 (canon field5 4)).sourceA 1) ∧ IsSquareMod field5.p 4 ∧
    ¬IsFourthPowerMod field5.p 4 ∧ 2 = modp field5 ((holding field5 (canon field5 2)).sourceA 1) ∧
    ¬IsSquareMod field5.p 2 ∧ 0 = modp field5 ((holding field5 (canon field5 0)).sourceA 1) :=
  ⟨test_field5_admissible.1, by decide, by decide, ⟨1, by decide⟩, by decide, ⟨2, by decide⟩,
    by rw [test_field5_admissible.2]; exact test_four_is_no_fourth_power_mod_five, by decide,
    by rw [test_field5_admissible.2]; exact test_two_is_no_square_mod_five, by decide⟩

/-- A nonzero element with its LEG `+1`, and zero, in class 0; class 1; and a field without SQRT. -/
theorem test_met_ResidueLaw :
    field7.Admissible ∧ field7.p % 4 = 3 ∧ (holding field7 (canon field7 2)).inflight = none ∧
    2 = modp field7 ((holding field7 (canon field7 2)).reg 1) ∧
    sresAfter 0x000000000000104A (holding field7 (canon field7 2)) = some 1 ∧
    0 = modp field7 ((holding field7 (canon field7 2)).reg 0) ∧ field5.Admissible ∧ field5.p % 8 = 5 ∧
    field17.Admissible :=
  ⟨test_field7_admissible.1, by decide, by decide, by decide, by decide, by decide, test_field5_admissible.1,
    by decide, test_field17_admissible.1⟩

/-- A square whose quartic value is `+1`, and one whose value is `-1`. -/
theorem test_met_QuarticResidueLaw :
    field5.Admissible ∧ field5.p % 8 = 5 ∧ (holding field5 (canon field5 1)).inflight = none ∧
    1 = modp field5 ((holding field5 (canon field5 1)).reg 1) ∧ IsSquareMod field5.p 1 ∧
    sresAfter 0x000000000000104B (holding field5 (canon field5 1)) = some 1 ∧
    4 = modp field5 ((holding field5 (canon field5 4)).reg 1) ∧ IsSquareMod field5.p 4 ∧
    sresAfter 0x000000000000104B (holding field5 (canon field5 4)) = some 0xFFFFFFFFFFFFFFFF :=
  ⟨test_field5_admissible.1, by decide, by decide, by decide, ⟨1, by decide⟩, by decide, by decide, ⟨2, by decide⟩,
    by decide⟩

/-- A nonzero element in v1 and zero in v2, with the inverse in another register and in place. -/
theorem test_met_InverseLaws :
    (holding field7 (canon field7 3)).field.Admissible ∧ (holding field7 (canon field7 3)).inflight = none ∧
    modp field7 ((holding field7 (canon field7 3)).reg 1) ≠ 0 ∧
    modp field7 ((holding field7 (canon field7 3)).reg 2) = 0 ∧ (2 : Reg) ≠ 1 :=
  ⟨test_field7_admissible.1, by decide, by decide, by decide, by decide⟩

theorem test_met_PackSerializesTheElement : fresh.field.shapeOk = true ∧ fresh.pb.wf = true := by decide

theorem test_met_NpackSerializesTheValueBits :
    fresh.field.shapeOk = true ∧ fresh.pb.wf = true ∧ Normalized fresh.field (fresh.sourceA 1) :=
  ⟨by decide, by decide, 0, by decide, by decide⟩

theorem test_met_UnpackReadsTheBytes : fresh.field.shapeOk = true := by decide

/-- A normalized register, and a buffer whose value is below `p`. -/
theorem test_met_PackUnpackRoundTrip :
    fresh.field.shapeOk = true ∧ fresh.pb.wf = true ∧ fresh.inflight = none ∧
    Normalized fresh.field (fresh.reg 1) ∧ unpackInt fresh.field fresh.pb < fresh.field.p :=
  ⟨by decide, by decide, rfl, ⟨0, by decide, by decide⟩, by decide⟩

theorem test_met_MovCopiesAndLdiLoads : fresh.field.shapeOk = true := by decide

/-- Equal words, different words, and two normalized operands. -/
theorem test_met_EqComparesElementsAndEqnWords :
    fresh.field.shapeOk = true ∧
    (∀ j, j < 3 → digit ((unit .e130 mone lazy1).sourceA 1) j = digit ((unit .e130 mone lazy1).sourceB 1) j) ∧
    (∃ j, j < 3 ∧ digit ((unit .e130 mone lazy1).sourceA 1) j ≠ digit ((unit .e130 mone lazy1).sourceB 2) j) ∧
    Normalized fresh.field (fresh.sourceA 1) ∧ Normalized fresh.field (fresh.sourceB 2) :=
  ⟨by decide, fun _ _ => rfl, ⟨0, by decide, by decide⟩, ⟨0, by decide, by decide⟩, ⟨0, by decide, by decide⟩⟩

theorem test_met_SignAndItsCarryOut :
    (holding field7 (canon field7 3)).field.Admissible ∧
    Normalized field7 ((holding field7 (canon field7 3)).sourceA 1) :=
  ⟨test_field7_admissible.1, 3, by decide, by decide⟩

theorem test_met_BitTestsReadTheBit :
    fresh.field.shapeOk = true ∧ Normalized fresh.field (fresh.sourceA 1) ∧
    (129 : Imm).toNat < fresh.field.n ∧ ¬(130 : Imm).toNat < fresh.field.n :=
  ⟨by decide, ⟨0, by decide, by decide⟩, by decide, by decide⟩

/-- The largest element ABS keeps, and the smallest it turns. -/
theorem test_met_AbsGivesThePositiveRepresentative :
    field7.Admissible ∧ 3 = modp field7 ((holding field7 (canon field7 3)).sourceA 1) ∧ 3 ≤ (field7.p - 1) / 2 ∧
    4 = modp field7 ((holding field7 (canon field7 4)).sourceA 1) ∧ (field7.p - 1) / 2 < 4 :=
  ⟨test_field7_admissible.1, by decide, by decide, by decide, by decide⟩

/-- Both values of the mask bit. -/
theorem test_met_MasksSelectAndOrMerges :
    ({ fresh with sres := 1 } : State).sourceSres0 = true ∧ fresh.sourceSres0 = false := by decide

/-- Form (a), and form (b) in a table row and in a generic tuple. -/
theorem test_met_BranchFreeSelect :
    fresh.field = .table .e130 ∧ fresh.RegsShaped ∧ fresh.inflight = none ∧ (3 : Reg) ≠ 2 ∧ (3 : Reg) ≠ 4 ∧
    (State.resetOf field7).RegsShaped ∧ (State.resetOf field7).inflight = none := by
  refine ⟨rfl, test_fresh_is_shaped.1, rfl, by decide, by decide, ⟨fun r => ?_, fun i => ?_⟩, rfl⟩
  · simp [State.resetOf, State.reg]
  · simp [State.resetOf]

end Sys2Proof.Tests
end

section
/-! PROOFS. The digit ranges of 00_scope.md: the shape of an admissible tuple as its identities, the digits of
`canon(r)`, and which digit vectors are Carried. -/

namespace Sys2Proof.Machine

/-! ### The shape of a field -/

/-- The identities of 00_scope.md R8 and R11, one by one. -/
theorem shapeOk_iff (f : Field) : f.shapeOk = true ↔
    f.n = f.W * (f.K - 1) + f.H ∧ 0 < f.H ∧ f.H ≤ f.W ∧ f.M = f.W / 2 ∧ 1 ≤ f.c ∧ f.c < 2 ^ f.W ∧ 2 ≤ f.K ∧
      f.W ≤ 58 := by
  simp [Field.shapeOk, and_assoc]

theorem shape_n {f : Field} (h : f.shapeOk = true) : f.n = f.W * (f.K - 1) + f.H := ((shapeOk_iff f).1 h).1

theorem shape_K_pos {f : Field} (h : f.shapeOk = true) : 0 < f.K := by
  obtain ⟨-, -, -, -, -, -, hK, -⟩ := (shapeOk_iff f).1 h
  omega

theorem shape_W_le {f : Field} (h : f.shapeOk = true) : f.W ≤ 58 := by
  obtain ⟨-, -, -, -, -, -, -, hW⟩ := (shapeOk_iff f).1 h
  exact hW

theorem shape_H_le {f : Field} (h : f.shapeOk = true) : f.H ≤ 58 := by
  obtain ⟨-, -, hH, -, -, -, -, hW⟩ := (shapeOk_iff f).1 h
  exact hH.trans hW

/-! ### Words below a power of two -/

/-- A word below `2^63` is not negative when it is read as signed. -/
theorem toInt_of_toNat_lt {w : Word} {m : Nat} (hm : m ≤ 58) (h : w.toNat < 2 ^ m) : w.toInt = w.toNat := by
  have : 2 ^ m ≤ 2 ^ 58 := Nat.pow_le_pow_right (by norm_num) hm
  exact BitVec.toInt_eq_toNat_of_lt (by omega)

/-- The signed range `[0, 2^m)` is the unsigned range below `2^m`. -/
theorem toInt_range_iff {w : Word} {m : Nat} (hm : m ≤ 58) :
    0 ≤ w.toInt ∧ w.toInt < 2 ^ m ↔ w.toNat < 2 ^ m := by
  constructor
  · rintro ⟨h0, hlt⟩
    have hmsb : w.msb = false := by rw [BitVec.msb_eq_toInt, decide_eq_false (not_lt.2 h0)]
    rw [BitVec.toInt_eq_toNat_of_msb hmsb] at hlt
    exact_mod_cast hlt
  · intro h
    rw [toInt_of_toNat_lt hm h]
    exact ⟨Int.natCast_nonneg _, by exact_mod_cast h⟩

theorem toNat_ofNat_of_lt_two_pow {x m : Nat} (hm : m ≤ 58) (h : x < 2 ^ m) : (BitVec.ofNat 64 x).toNat = x := by
  have : 2 ^ m ≤ 2 ^ 58 := Nat.pow_le_pow_right (by norm_num) hm
  rw [BitVec.toNat_ofNat, Nat.mod_eq_of_lt (by omega)]

/-- A sum that is masked to `m` bits before it becomes a word stays below `2^m`. -/
theorem toNat_wordOf_emod_lt (z : Int) (m : Nat) : (wordOf (z % 2 ^ m)).toNat < 2 ^ m := by
  have hpos : (0 : Int) < 2 ^ m := by positivity
  obtain ⟨x, hx⟩ := Int.eq_ofNat_of_zero_le (Int.emod_nonneg z hpos.ne')
  have hlt : x < 2 ^ m := by exact_mod_cast hx ▸ Int.emod_lt_of_pos z hpos
  rw [wordOf, hx, BitVec.ofInt_natCast, BitVec.toNat_ofNat]
  exact Nat.mod_lt_of_lt hlt

/-! ### `canon(r)` -/

/-- The digits of `canon(r)` below the top one (00_scope.md R20). -/
theorem digit_canon_low {f : Field} {j : Nat} (hj : j < f.K - 1) (r : Nat) :
    digit (canon f r) j = BitVec.ofNat 64 (r / 2 ^ (f.W * j) % 2 ^ f.W) := by
  rw [canon, digit_build _ (by omega), if_pos hj]

/-- The top digit of `canon(r)` (00_scope.md R20). -/
theorem digit_canon_top {f : Field} (hK : 0 < f.K) (r : Nat) :
    digit (canon f r) (f.K - 1) = BitVec.ofNat 64 (r / 2 ^ (f.W * (f.K - 1))) := by
  rw [canon, digit_build _ (by omega), if_neg (lt_irrefl _)]

theorem toNat_digit_canon_low {f : Field} (h : f.shapeOk = true) {j : Nat} (hj : j < f.K - 1) (r : Nat) :
    (digit (canon f r) j).toNat = r / 2 ^ (f.W * j) % 2 ^ f.W := by
  rw [digit_canon_low hj]
  exact toNat_ofNat_of_lt_two_pow (shape_W_le h) (Nat.mod_lt _ (by positivity))

theorem canon_top_lt {f : Field} (h : f.shapeOk = true) {r : Nat} (hr : r < 2 ^ f.n) :
    r / 2 ^ (f.W * (f.K - 1)) < 2 ^ f.H := by
  rw [shape_n h, pow_add] at hr
  exact Nat.div_lt_of_lt_mul hr

theorem toNat_digit_canon_top {f : Field} (h : f.shapeOk = true) {r : Nat} (hr : r < 2 ^ f.n) :
    (digit (canon f r) (f.K - 1)).toNat = r / 2 ^ (f.W * (f.K - 1)) := by
  rw [digit_canon_top (shape_K_pos h)]
  exact toNat_ofNat_of_lt_two_pow (shape_H_le h) (canon_top_lt h hr)

theorem toNat_digit_canon_low_lt {f : Field} (h : f.shapeOk = true) {j : Nat} (hj : j < f.K - 1) (r : Nat) :
    (digit (canon f r) j).toNat < 2 ^ f.W := by
  rw [toNat_digit_canon_low h hj]
  exact Nat.mod_lt _ (by positivity)

/-- The `k` low digits of `canon(r)`, all below the top one, represent `r mod 2^(W*k)`. -/
theorem valLow_canon {f : Field} (h : f.shapeOk = true) (r : Nat) {k : Nat} (hk : k ≤ f.K - 1) :
    valLow f.W (canon f r) k = (r % 2 ^ (f.W * k) : Nat) := by
  induction k with
  | zero => simp [valLow, Nat.mod_one]
  | succ k ih =>
    have hlow := toNat_digit_canon_low_lt h hk r
    rw [valLow, ih (by omega), sdigit, toInt_of_toNat_lt (shape_W_le h) hlow, toNat_digit_canon_low h hk,
      Nat.mul_succ, pow_add, Nat.mod_mul]
    push_cast
    ring

/-- `val(canon(r)) = r` (00_scope.md R20). -/
theorem val_canon {f : Field} (h : f.shapeOk = true) {r : Nat} (hr : r < 2 ^ f.n) : val f (canon f r) = r := by
  have htop := toNat_digit_canon_top h hr
  have hlt : (digit (canon f r) (f.K - 1)).toNat < 2 ^ f.H := htop ▸ canon_top_lt h hr
  obtain ⟨k, hk⟩ : ∃ k, f.K = k + 1 := ⟨f.K - 1, by have := shape_K_pos h; omega⟩
  have hk' : f.K - 1 = k := by omega
  rw [hk'] at htop hlt
  calc val f (canon f r)
      = valLow f.W (canon f r) k + sdigit (canon f r) k * 2 ^ (f.W * k) := by rw [val, hk, valLow]
    _ = (r % 2 ^ (f.W * k) + r / 2 ^ (f.W * k) * 2 ^ (f.W * k) : Nat) := by
        rw [valLow_canon h r hk'.ge, sdigit, toInt_of_toNat_lt (shape_H_le h) hlt, htop]
        push_cast
        ring
    _ = r := by rw [Nat.mod_add_div']

/-- Settles O31: the digits of `canon(r)` are the base-`2^W` digits of `r`, each small enough to be its own signed
value, so that they sum to `r`. -/
theorem canonRepresentsItsInteger : Obligations.CanonRepresentsItsInteger := by
  intro f r h hr
  exact ⟨fun j hj => ⟨digit_canon_low hj r, toNat_digit_canon_low_lt h hj r⟩, digit_canon_top (shape_K_pos h) r,
    toNat_digit_canon_top h hr ▸ canon_top_lt h hr, val_canon h hr⟩

/-! ### Carried vectors -/

/-- In an admissible shape, Carried speaks of the digits as unsigned words (00_scope.md R23). -/
theorem carried_iff {f : Field} (h : f.shapeOk = true) (v : DigitVec) :
    Carried f v ↔ ∀ j, j < f.K - 1 → (digit v j).toNat < 2 ^ f.W :=
  forall₂_congr fun _ _ => toInt_range_iff (shape_W_le h)

theorem carried_canon {f : Field} (h : f.shapeOk = true) (r : Nat) : Carried f (canon f r) :=
  (carried_iff h _).2 fun _ hj => toNat_digit_canon_low_lt h hj r

theorem carried_mulOut {f : Field} (h : f.shapeOk = true) (x : Int) : Carried f (mulOut f x) := carried_canon h _

/-- ADDCORE masks its lower digits (40_adder.md R121 (b)), whatever its operands hold. -/
theorem carried_addCore {f : Field} (h : f.shapeOk = true) (a b : DigitVec) (sgn : Int) :
    Carried f (addCore f a b sgn) := by
  refine (carried_iff h _).2 fun j hj => ?_
  rw [addCore, digit_build _ (by omega), if_pos hj]
  exact toNat_wordOf_emod_lt _ _

theorem carried_maskVec {f : Field} (h : f.shapeOk = true) {v : DigitVec} (hv : Carried f v) (k : Bool) :
    Carried f (maskVec f v k) := by
  refine (carried_iff h _).2 fun j hj => ?_
  rw [maskVec, digit_build _ (by omega), BitVec.toNat_and]
  exact Nat.and_le_left.trans_lt ((carried_iff h v).1 hv j hj)

theorem carried_orVec {f : Field} (h : f.shapeOk = true) {a b : DigitVec} (ha : Carried f a) (hb : Carried f b) :
    Carried f (orVec f a b) := by
  refine (carried_iff h _).2 fun j hj => ?_
  rw [orVec, digit_build _ (by omega), BitVec.toNat_or]
  exact Nat.or_lt_two_pow ((carried_iff h a).1 ha j hj) ((carried_iff h b).1 hb j hj)

/-- The reset value of a register (10_state.md R55) is Carried. -/
theorem carried_zeros (f : Field) : Carried f (List.replicate f.K 0) := by
  intro j hj
  have hz : sdigit (List.replicate f.K 0) j = 0 := by
    have : j < f.K := by omega
    simp [sdigit, digit, this]
  rw [hz]
  exact ⟨le_rfl, by positivity⟩

end Sys2Proof.Machine
end

section
/-! PROOFS. Carried registers under a step (00_scope.md R23): a command's result is Carried where its sources are, a
host access that is no VREG write stores no digit, and a command in flight keeps the snapshot it was accepted with. -/

namespace Sys2Proof.Machine

/-! ### What keeps `AllCarried` -/

/-- `AllCarried` speaks of FIELD, the registers and the snapshot in flight alone. -/
theorem allCarried_of_same_regs {s t : State} (hs : s.AllCarried) (hfield : t.field = s.field) (hx : t.x = s.x)
    (hsnap : ∀ q, t.inflight = some q → ∃ q', s.inflight = some q' ∧ q.snap = q'.snap) : t.AllCarried := by
  refine ⟨fun r => ?_, fun q hq => ?_⟩
  · rw [hfield, reg_congr hx]
    exact hs.1 r
  · obtain ⟨q', hq', hsame⟩ := hsnap q hq
    rw [hfield, hsame]
    exact hs.2 q' hq'

/-- A change of other parts of the state than FIELD, the registers and the record in flight keeps `AllCarried`. -/
theorem allCarried_congr {s t : State} (hs : s.AllCarried) (hfield : t.field = s.field) (hx : t.x = s.x)
    (hinflight : t.inflight = s.inflight) : t.AllCarried :=
  allCarried_of_same_regs hs hfield hx fun q hq => ⟨q, hinflight ▸ hq, rfl⟩

theorem allCarried_of_idle {s t : State} (hs : s.AllCarried) (hfield : t.field = s.field) (hx : t.x = s.x)
    (hidle : t.inflight = none) : t.AllCarried :=
  allCarried_of_same_regs hs hfield hx fun q hq => by simp [hidle] at hq

theorem allCarried_completeReg {s : State} (hs : s.AllCarried) (vd : Reg) {v : DigitVec} (hv : Carried s.field v) :
    (s.completeReg vd v).AllCarried := by
  refine ⟨fun r => ?_, fun q hq => by simp at hq⟩
  rw [completeReg_field]
  by_cases hr : r = vd
  · rw [hr, reg_completeReg_same]
    exact hv
  · rw [reg_completeReg_ne s v hr]
    exact hs.1 r

theorem allCarried_completeSres {s : State} (hs : s.AllCarried) (w : Word) : (s.completeSres w).AllCarried :=
  allCarried_of_idle hs rfl rfl rfl

theorem allCarried_completePb {s : State} (hs : s.AllCarried) (r : Nat) : (s.completePb r).AllCarried :=
  allCarried_of_idle hs rfl rfl rfl

theorem allCarried_commandError {s : State} (hs : s.AllCarried) (e : ErrorCode) : (s.commandError e).AllCarried :=
  allCarried_of_idle hs (by simp) (by simp) (by simp)

theorem allCarried_raiseError {s : State} (hs : s.AllCarried) (e : ErrorCode) : (s.raiseError e).AllCarried :=
  allCarried_congr hs (by simp) (by simp) (by simp)

theorem allCarried_ifApplicable {s : State} (hs : s.AllCarried) (op : Op) {done : State → State}
    (hdone : (done s).AllCarried) : (s.ifApplicable op done).AllCarried := by
  unfold State.ifApplicable
  split
  · exact hdone
  · exact allCarried_commandError hs _

theorem allCarried_hardReset (s : State) : s.hardReset.AllCarried := by
  refine ⟨fun r => ?_, fun q hq => by simp at hq⟩
  rw [reg_hardReset]
  exact carried_zeros _

theorem allCarried_tick {s : State} (hs : s.AllCarried) : s.tick.AllCarried := by
  refine allCarried_of_same_regs hs (by simp) (by simp) fun q hq => ?_
  rw [tick_inflight, Option.map_eq_some_iff] at hq
  obtain ⟨q', hq', rfl⟩ := hq
  exact ⟨q', hq', rfl⟩

/-- Acceptance copies registers that are Carried into the snapshot. -/
theorem allCarried_accept {s : State} (hs : s.AllCarried) (i : Instr) (w : Word) : (s.accept i w).AllCarried := by
  refine ⟨hs.1, fun q hq => ?_⟩
  rw [accept_inflight, Option.some_inj] at hq
  subst hq
  exact ⟨hs.1 _, hs.1 _⟩

theorem allCarried_issue {s : State} (hs : s.AllCarried) (w : Word) : (s.issue w).AllCarried := by
  rcases issue_cases w s with ⟨e, -, heq⟩ | ⟨i, -, -, heq⟩ | ⟨i, -, -, heq⟩ <;> rw [heq]
  · exact allCarried_commandError hs _
  · exact allCarried_commandError hs _
  · exact allCarried_accept hs i w

/-! ### Commands -/

theorem carried_sourceA {s : State} (hs : s.AllCarried) (va : Reg) : Carried s.field (s.sourceA va) := by
  cases hq : s.inflight with
  | none => exact sourceA_idle hq va ▸ hs.1 va
  | some q => exact sourceA_inflight hq va ▸ (hs.2 q hq).1

theorem carried_sourceB {s : State} (hs : s.AllCarried) (vb : Reg) : Carried s.field (s.sourceB vb) := by
  cases hq : s.inflight with
  | none => exact sourceB_idle hq vb ▸ hs.1 vb
  | some q => exact sourceB_inflight hq vb ▸ (hs.2 q hq).2

/-- Every command keeps `AllCarried`. ADDCORE and `canon` give Carried vectors of any operands; MOV, MASK, MASKS and OR
only of Carried ones; the other commands write no register. -/
theorem exec_allCarried {s : State} (hf : s.field.shapeOk = true) (hs : s.AllCarried) (i : Instr) :
    ∃ t, exec i s = .next t ∧ t.AllCarried := by
  cases i with
  | add | sub | adds | neg => exact ⟨_, rfl, allCarried_completeReg hs _ (carried_addCore hf _ _ _)⟩
  | mul | muls | sqr => exact ⟨_, rfl, allCarried_completeReg hs _ (carried_mulOut hf _)⟩
  | norm | inv | div | unpack | ldi | abs => exact ⟨_, rfl, allCarried_completeReg hs _ (carried_canon hf _)⟩
  | sqrt | isqrt =>
    exact ⟨_, rfl, allCarried_ifApplicable hs _ (allCarried_completeReg hs _ (carried_canon hf _))⟩
  | legq => exact ⟨_, rfl, allCarried_ifApplicable hs _ (allCarried_completeSres hs _)⟩
  | leg | eq | eqn | sign | signn | bit | bitn => exact ⟨_, rfl, allCarried_completeSres hs _⟩
  | pack | npack => exact ⟨_, rfl, allCarried_completePb hs _⟩
  | mov => exact ⟨_, rfl, allCarried_completeReg hs _ (carried_sourceA hs _)⟩
  | mask | masks => exact ⟨_, rfl, allCarried_completeReg hs _ (carried_maskVec hf (carried_sourceA hs _) _)⟩
  | or =>
    exact ⟨_, rfl, allCarried_completeReg hs _ (carried_orVec hf (carried_sourceA hs _) (carried_sourceB hs _))⟩

theorem runWord_allCarried {s t : State} (hf : s.field.shapeOk = true) (hs : s.AllCarried) {w : Word}
    (ht : runWord w s = .next t) : t.AllCarried := by
  rcases runWord_cases w s with ⟨i, -, heq⟩ | ⟨e, -, heq⟩
  · obtain ⟨u, hu, hcarried⟩ := exec_allCarried hf hs i
    obtain rfl : u = t := Host.Outcome.next.inj (by rw [← hu, ← heq, ht])
    exact hcarried
  · obtain rfl : s.commandError (decodeErrorCode e) = t := Host.Outcome.next.inj (by rw [← heq, ht])
    exact allCarried_commandError hs _

/-! ### The host -/

theorem allCarried_hostRead {s : State} (hs : s.AllCarried) (a : BitVec 16) (width : Nat) :
    (s.hostRead a width).AllCarried := by
  rcases hostRead_cases s a width with ⟨e, heq⟩ | ⟨r, -, heq⟩ | heq <;> rw [heq]
  · exact allCarried_congr hs (by simp) (by simp) (by simp)
  · exact allCarried_congr hs rfl rfl rfl
  · exact allCarried_congr hs rfl rfl rfl

theorem allCarried_writeStatus {s : State} (hs : s.AllCarried) (d : Word) : (s.writeStatus d).AllCarried := by
  unfold State.writeStatus
  refine allCarried_congr hs ?_ ?_ ?_ <;> split <;> split <;> simp

theorem allCarried_writeCtrl {s : State} (hs : s.AllCarried) (d : Word) : (s.writeCtrl d).AllCarried := by
  unfold State.writeCtrl
  split
  · exact allCarried_hardReset s
  · exact allCarried_congr hs rfl rfl rfl

/-- A write to any register but a VREG slot keeps `AllCarried`, and while busy to a VREG slot too. -/
theorem allCarried_windowWrite {s : State} (hs : s.AllCarried) (d : Word) {r : WindowReg}
    (hr : s.busy = false → ∀ i j, r ≠ .vreg i j) : (s.windowWrite d r).AllCarried := by
  rcases windowWrite_cases s d r with ⟨e, heq⟩ | ⟨-, heq⟩ | ⟨-, heq⟩ | ⟨-, -, heq⟩ | ⟨w, -, -, heq⟩ |
    ⟨i, j, hvreg, hidle, -⟩
  · exact heq ▸ allCarried_raiseError hs e
  · exact heq ▸ allCarried_writeStatus hs d
  · exact heq ▸ allCarried_writeCtrl hs d
  · have hrecorded : ({ s with lastcmd := d } : State).AllCarried := allCarried_congr hs rfl rfl rfl
    exact heq ▸ allCarried_issue hrecorded d
  · exact heq ▸ allCarried_congr hs rfl rfl rfl
  · exact absurd hvreg (hr hidle i j)

/-- A well-formed write whose address names a VREG slot is a VREG write. -/
theorem writesVreg_of_windowReg {a : BitVec 16} {width : Nat} {i : Reg} {j : Nat} (d : Word)
    (hok : accessOk a width = true) (hreg : windowReg a = some (.vreg i j)) :
    (HostEvent.write a width d).writesVreg = true := by
  simp [HostEvent.writesVreg, hok, hreg]

theorem allCarried_event {s : State} (hs : s.AllCarried) {e : HostEvent}
    (he : s.busy = false → e.writesVreg = false) : (s.event e).AllCarried := by
  cases e with
  | read a width => exact allCarried_hostRead hs a width
  | tick => exact allCarried_tick hs
  | rst => exact allCarried_hardReset s
  | write a width d =>
    change (s.hostWrite a width d).AllCarried
    rcases hostWrite_cases s a width d with ⟨e, heq⟩ | ⟨r, hok, hreg, heq⟩ <;> rw [heq]
    · exact allCarried_raiseError hs e
    · refine allCarried_windowWrite hs d fun hidle i j hvreg => ?_
      have hwrites := writesVreg_of_windowReg d hok (hvreg ▸ hreg)
      exact Bool.false_ne_true ((he hidle).symm.trans hwrites)

theorem allCarried_advance {s : State} (hs : s.AllCarried)
    (hin : s.busy = false → ∀ e rest, s.inputs = e :: rest → e.writesVreg = false) : s.advance.AllCarried := by
  rcases advance_cases s with ⟨-, heq⟩ | ⟨e, rest, hinputs, heq⟩ <;> rw [heq]
  · exact allCarried_tick hs
  · have hserved : ({ s with inputs := rest } : State).AllCarried := allCarried_congr hs rfl rfl rfl
    exact allCarried_event hserved fun hidle => hin hidle e rest hinputs

/-- Settles O17: a step is a completion, whose result is Carried where its sources are, or serves a host event, and of
these only a VREG write while idle stores a digit. -/
theorem onlyVregWritesBreakCarried : Obligations.OnlyVregWritesBreakCarried := by
  intro s t hf hs hin ht
  rcases step_cases s with ⟨q, -, -, heq⟩ | ⟨-, heq⟩
  · exact runWord_allCarried hf hs (heq ▸ ht)
  · obtain rfl : s.advance = t := Host.Outcome.next.inj (heq ▸ ht)
    exact allCarried_advance hs hin

end Sys2Proof.Machine
end

section
/-! PROOFS. Constant time (00_scope.md R25, 70_reset_and_hazards.md R361): what each operation does to the timing part of
the state is a function of the timing part. For each operation, one lemma says that it takes states with equal timing
to states with equal timing; the step's lemma is put together from them. -/

namespace Sys2Proof.Machine

/-! ### What the timing part holds -/

theorem timing_eq_iff {s s' : State} : s.timing = s'.timing ↔
    s.field = s'.field ∧ s.inflight.map Inflight.word = s'.inflight.map Inflight.word ∧
      s.inflight.map Inflight.remaining = s'.inflight.map Inflight.remaining ∧ s.done = s'.done ∧ s.err = s'.err ∧
      s.ecode = s'.ecode ∧ s.ie = s'.ie ∧ s.lastcmd = s'.lastcmd ∧ s.cmdcnt = s'.cmdcnt ∧ s.inputs = s'.inputs := by
  simp [State.timing]

theorem field_eq_of_timing {s s' : State} (h : s.timing = s'.timing) : s.field = s'.field :=
  congrArg Timing.field h

theorem inputs_eq_of_timing {s s' : State} (h : s.timing = s'.timing) : s.inputs = s'.inputs :=
  congrArg Timing.inputs h

/-- Whether a command is in flight is seen from its word. -/
theorem busy_eq_of_timing {s s' : State} (h : s.timing = s'.timing) : s.busy = s'.busy := by
  have := congrArg (Option.isSome ∘ Timing.word) h
  simpa [State.timing, State.busy] using this

theorem dueWord_eq_bind (s : State) :
    s.dueWord = (s.inflight.map Inflight.remaining).bind fun n =>
      if n = 0 then s.inflight.map Inflight.word else none := by
  unfold State.dueWord
  cases s.inflight <;> rfl

/-- Which completion is due does not depend on data. -/
theorem dueWord_eq_of_timing {s s' : State} (h : s.timing = s'.timing) : s.dueWord = s'.dueWord := by
  obtain ⟨-, hword, hremaining, -⟩ := timing_eq_iff.1 h
  rw [dueWord_eq_bind, dueWord_eq_bind, hword, hremaining]

/-! ### The operations -/

section
variable {s s' : State}

theorem timing_raiseError_congr (h : s.timing = s'.timing) (e : ErrorCode) :
    (s.raiseError e).timing = (s'.raiseError e).timing := by
  simp_all [timing_eq_iff]

theorem timing_commandError_congr (h : s.timing = s'.timing) (e : ErrorCode) :
    (s.commandError e).timing = (s'.commandError e).timing := by
  simp_all [timing_eq_iff]

theorem timing_complete_congr (h : s.timing = s'.timing) : s.complete.timing = s'.complete.timing := by
  simp_all [timing_eq_iff]

theorem timing_accept_congr (h : s.timing = s'.timing) (i : Instr) (w : Word) :
    (s.accept i w).timing = (s'.accept i w).timing := by
  simp_all [timing_eq_iff]

theorem timing_hardReset_congr (h : s.timing = s'.timing) : s.hardReset.timing = s'.hardReset.timing := by
  simp_all [timing_eq_iff]

theorem tick_word (s : State) : s.tick.inflight.map Inflight.word = s.inflight.map Inflight.word := by
  simp [Function.comp_def]

theorem tick_remaining (s : State) :
    s.tick.inflight.map Inflight.remaining = (s.inflight.map Inflight.remaining).map (· - 1) := by
  simp [Function.comp_def]

theorem timing_tick_congr (h : s.timing = s'.timing) : s.tick.timing = s'.tick.timing := by
  obtain ⟨hfield, hword, hremaining, hrest⟩ := timing_eq_iff.1 h
  refine timing_eq_iff.2 ⟨?_, ?_, ?_, ?_⟩
  · simp [hfield]
  · rw [tick_word, tick_word, hword]
  · rw [tick_remaining, tick_remaining, hremaining]
  · simpa using hrest

/-- A command word is refused or accepted by its bits and FIELD alone. -/
theorem timing_issue_congr (h : s.timing = s'.timing) (w : Word) : (s.issue w).timing = (s'.issue w).timing := by
  unfold State.issue
  cases decode w with
  | error e => exact timing_commandError_congr h _
  | ok i =>
    simp only [field_eq_of_timing h]
    split
    · exact timing_accept_congr h i w
    · exact timing_commandError_congr h _

/-! ### Commands -/

/-- To an observer of the timing every completed command looks the same, whatever its result. -/
theorem timing_exec (i : Instr) (s : State) : ∃ t, exec i s = .next t ∧
    t.timing = if s.field.hasOp i.op then s.complete.timing else (s.commandError .notApplicable).timing := by
  rcases exec_cases i s with ⟨hop, ⟨vd, v, heq⟩ | ⟨w, heq⟩ | ⟨r, heq⟩⟩ | ⟨hop, heq⟩ <;>
    exact ⟨_, heq, by rw [hop]; rfl⟩

theorem timing_exec_congr (h : s.timing = s'.timing) (i : Instr) :
    ∃ t t', exec i s = .next t ∧ exec i s' = .next t' ∧ t.timing = t'.timing := by
  obtain ⟨t, ht, htiming⟩ := timing_exec i s
  obtain ⟨t', ht', htiming'⟩ := timing_exec i s'
  refine ⟨t, t', ht, ht', ?_⟩
  rw [htiming, htiming', field_eq_of_timing h, timing_complete_congr h, timing_commandError_congr h]

theorem timing_runWord_congr (h : s.timing = s'.timing) (w : Word) :
    ∃ t t', runWord w s = .next t ∧ runWord w s' = .next t' ∧ t.timing = t'.timing := by
  unfold runWord
  cases decode w with
  | ok i => exact timing_exec_congr h i
  | error e => exact ⟨_, _, rfl, rfl, timing_commandError_congr h _⟩

/-! ### The host -/

/-- A mapped read, busy or not, leaves the timing part as it is; a refused one records its error. -/
theorem timing_hostRead (s : State) (a : BitVec 16) (width : Nat) :
    (s.hostRead a width).timing =
      if accessOk a width then
        if (windowReg a).isSome then s.timing else (s.raiseError .badAddress).timing
      else (s.raiseError .badAccess).timing := by
  unfold State.hostRead
  split
  · cases windowReg a with
    | none => rfl
    | some r =>
      dsimp only
      split <;> rfl
  · rfl

theorem timing_hostRead_congr (h : s.timing = s'.timing) (a : BitVec 16) (width : Nat) :
    (s.hostRead a width).timing = (s'.hostRead a width).timing := by
  simp only [timing_hostRead, h, timing_raiseError_congr h]

theorem timing_writeStatus_congr (h : s.timing = s'.timing) (d : Word) :
    (s.writeStatus d).timing = (s'.writeStatus d).timing := by
  unfold State.writeStatus
  cases d.getLsbD 1 <;> cases d.getLsbD 2 <;> simp_all [timing_eq_iff]

theorem timing_writeCtrl_congr (h : s.timing = s'.timing) (d : Word) :
    (s.writeCtrl d).timing = (s'.writeCtrl d).timing := by
  unfold State.writeCtrl
  split
  · exact timing_hardReset_congr h
  · simp_all [timing_eq_iff]

theorem timing_writeCmd_congr (h : s.timing = s'.timing) (w : Word) :
    (s.writeCmd w).timing = (s'.writeCmd w).timing := by
  unfold State.writeCmd
  rw [busy_eq_of_timing h]
  split
  · exact timing_raiseError_congr h _
  · exact timing_issue_congr (by simp_all [timing_eq_iff]) w

theorem timing_writeSlot (s : State) (i : Reg) (j : Nat) (d : Word) : (s.writeSlot i j d).timing = s.timing := by
  unfold State.writeSlot
  split <;> rfl

theorem timing_windowWrite_congr (h : s.timing = s'.timing) (d : Word) (r : WindowReg) :
    (s.windowWrite d r).timing = (s'.windowWrite d r).timing := by
  cases r with
  | id0 | id1 | sres | cmdcnt => exact timing_raiseError_congr h _
  | status => exact timing_writeStatus_congr h d
  | ctrl => exact timing_writeCtrl_congr h d
  | cmd => exact timing_writeCmd_congr h d
  | pbuf w =>
    simp only [State.windowWrite, busy_eq_of_timing h]
    split
    · exact timing_raiseError_congr h _
    · exact h
  | vreg i j =>
    simp only [State.windowWrite, busy_eq_of_timing h]
    split
    · exact timing_raiseError_congr h _
    · rw [timing_writeSlot, timing_writeSlot, h]

theorem timing_hostWrite_congr (h : s.timing = s'.timing) (a : BitVec 16) (width : Nat) (d : Word) :
    (s.hostWrite a width d).timing = (s'.hostWrite a width d).timing := by
  unfold State.hostWrite
  split
  · cases windowReg a with
    | none => exact timing_raiseError_congr h _
    | some r => exact timing_windowWrite_congr h d r
  · exact timing_raiseError_congr h _

theorem timing_event_congr (h : s.timing = s'.timing) (e : HostEvent) :
    (s.event e).timing = (s'.event e).timing := by
  cases e with
  | read a width => exact timing_hostRead_congr h a width
  | write a width d => exact timing_hostWrite_congr h a width d
  | tick => exact timing_tick_congr h
  | rst => exact timing_hardReset_congr h

theorem timing_advance_congr (h : s.timing = s'.timing) : s.advance.timing = s'.advance.timing := by
  unfold State.advance
  rw [← inputs_eq_of_timing h]
  cases s.inputs with
  | nil => exact timing_tick_congr h
  | cons e rest => exact timing_event_congr (by simp_all [timing_eq_iff]) e

/-! ### The step -/

theorem timing_step_congr (h : s.timing = s'.timing) :
    ∃ t t', step s = .next t ∧ step s' = .next t' ∧ t.timing = t'.timing := by
  unfold step
  rw [← dueWord_eq_of_timing h]
  cases s.dueWord with
  | some w => exact timing_runWord_congr h w
  | none => exact ⟨_, _, rfl, rfl, timing_advance_congr h⟩

end

/-- Settles O18: the same completion is due in both states or none is, and each operation a step can be takes equal
timing to equal timing. -/
theorem timingDoesNotDependOnData : Obligations.TimingDoesNotDependOnData := by
  intro s s' t h ht
  obtain ⟨u, t', hu, ht', htiming⟩ := timing_step_congr h
  obtain rfl : u = t := Host.Outcome.next.inj (by rw [← hu, ht])
  exact ⟨t', ht', htiming⟩

end Sys2Proof.Machine
end

section
/-! PROOFS. Completion of every command the field has (60_exceptions.md R310, R312), and the constants of the parameter
table's rows (00_scope.md R8, R10, 10_state.md R43, R44). -/

namespace Sys2Proof.Machine

/-! ### Completion -/

/-- `completePb_spec` asks for a buffer in canonical form; the command interface does not depend on it. -/
theorem completedFrom_completePb (s : State) (r : Nat) : CompletedFrom s (s.completePb r) :=
  ⟨rfl, rfl, rfl, rfl, rfl, rfl, rfl, rfl, rfl, rfl⟩

/-- Settles O12: a command the field has ends in a completion with one result. -/
theorem everyApplicableCommandCompletes : Obligations.EveryApplicableCommandCompletes := by
  intro i s hop
  rcases exec_cases i s with ⟨-, ⟨vd, v, heq⟩ | ⟨w, heq⟩ | ⟨r, heq⟩⟩ | ⟨hlacks, -⟩
  · exact ⟨_, heq, (completeReg_spec s vd v).1⟩
  · exact ⟨_, heq, (completeSres_spec s w).1⟩
  · exact ⟨_, heq, completedFrom_completePb s r⟩
  · exact absurd hop (by simp [hlacks])

/-! ### The parameter table -/

/-- Every row of the table has the identities of 00_scope.md R8. -/
theorem shapeOk_table (row : FieldId) : (Field.table row).shapeOk = true := by
  cases row <;> decide

/-- `2^n` vanishes mod 8, so that the square-root class (00_scope.md R10) is decided by `c`. -/
theorem p_add_c_mod_eight {f : Field} (h : f.shapeOk = true) (hn : 3 ≤ f.n) : (f.p + f.c) % 8 = 0 := by
  have hc : f.p + f.c = 2 ^ f.n := Nat.sub_add_cancel (by have := (shape_c_lt h).1; omega)
  rw [hc]
  exact Nat.mod_eq_zero_of_dvd (pow_dvd_pow 2 hn)

theorem sqrtClass_eq_class0 {f : Field} (h : f.shapeOk = true) (hn : 3 ≤ f.n) (hc : f.c % 4 = 1) :
    f.sqrtClass = .class0 := by
  have := p_add_c_mod_eight h hn
  exact if_pos (by omega)

theorem sqrtClass_eq_class1 {f : Field} (h : f.shapeOk = true) (hn : 3 ≤ f.n) (hc : f.c % 8 = 3) :
    f.sqrtClass = .class1 := by
  have := p_add_c_mod_eight h hn
  exact (if_neg (by omega)).trans (if_pos (by omega))

theorem sqrtClass_e130 : (Field.table .e130).sqrtClass = .class0 :=
  sqrtClass_eq_class0 (shapeOk_table _) (by decide) (by decide)

theorem sqrtClass_m221 : (Field.table .m221).sqrtClass = .class1 :=
  sqrtClass_eq_class1 (shapeOk_table _) (by decide) (by decide)

theorem sqrtClass_curve41417 : (Field.table .curve41417).sqrtClass = .class0 :=
  sqrtClass_eq_class0 (shapeOk_table _) (by decide) (by decide)

theorem sqrtClass_m511 : (Field.table .m511).sqrtClass = .class1 :=
  sqrtClass_eq_class1 (shapeOk_table _) (by decide) (by decide)

theorem sqrtClass_e521 : (Field.table .e521).sqrtClass = .class0 :=
  sqrtClass_eq_class0 (shapeOk_table _) (by decide) (by decide)

/-- Settles O29: the classes follow from `c` mod 8, and the ID words are read off the rows. -/
theorem tableRowsHaveTheirDerivedConstants : Obligations.TableRowsHaveTheirDerivedConstants := by
  refine ⟨shapeOk_table, sqrtClass_e130, sqrtClass_m221, sqrtClass_curve41417, sqrtClass_m511, sqrtClass_e521,
    by decide, ?_, by decide, ?_, by decide, ?_, by decide, ?_, by decide, ?_⟩
  · rw [Field.id1, sqrtClass_e130]
    decide
  · rw [Field.id1, sqrtClass_m221]
    decide
  · rw [Field.id1, sqrtClass_curve41417]
    decide
  · rw [Field.id1, sqrtClass_m511]
    decide
  · rw [Field.id1, sqrtClass_e521]
    decide

end Sys2Proof.Machine
end

section
/-! PROOFS. The invariant of the machine (10_state.md R30, R39, R46, R48): it holds at reset and every step keeps it,
and by it a command may be run on the snapshot of its sources or on the registers as they are now. -/

namespace Sys2Proof.Machine

/-! ### The parts of the invariant -/

theorem State.Inv.regs {s : State} (h : s.Inv) : s.RegsShaped := h.1

theorem State.Inv.pb {s : State} (h : s.Inv) : s.PbShaped := h.2.1

theorem State.Inv.status {s : State} (h : s.Inv) : s.StatusShaped := h.2.2.1

theorem State.Inv.inflight {s : State} (h : s.Inv) : s.InflightShaped := h.2.2.2

/-- With nothing in flight, the invariant speaks of shapes alone. -/
theorem inflightShaped_of_idle {s : State} (h : s.inflight = none) : s.InflightShaped := fun q hq => by
  simp [h] at hq

theorem inflightShaped_of_not_busy {s : State} (h : s.busy = false) : s.InflightShaped :=
  inflightShaped_of_idle (by simpa [State.busy] using h)

/-- No error has the code of none, and 0x08 is the last code (60_exceptions.md R301). -/
theorem code_ne_zero_and_le (e : ErrorCode) : e.code ≠ 0 ∧ e.code ≤ 8 := by
  cases e <;> decide

/-- STATUS is in shape where no error is recorded. -/
theorem statusShaped_clear : (false = false ↔ (0 : BitVec 8) = 0) ∧ (0 : BitVec 8) ≤ 8 := by decide

theorem regsShaped_setReg {s : State} (hs : s.RegsShaped) (r : Reg) {v : DigitVec} (hv : v.length = s.field.K) :
    (s.setReg r v).RegsShaped := by
  refine ⟨fun q => ?_, hs.2⟩
  by_cases hq : q = r
  · rw [hq, reg_setReg_same]
    exact hv
  · rw [reg_setReg_ne s v hq]
    exact hs.1 q

theorem length_freeScratch (f : Field) (k : Nat) (i : Fin 3) : ((freeScratch f k)[i]).length = f.K := by
  simp [freeScratch]

/-- Completion leaves vectors of `K` words in the scratch vectors, whatever they hold (10_state.md R50). -/
theorem regsShaped_complete {s : State} (hs : s.RegsShaped) : s.complete.RegsShaped :=
  ⟨hs.1, length_freeScratch _ _⟩

theorem pbShaped_fill {s : State} (hs : s.PbShaped) (g : Nat → Byte) :
    ({ s with pb := Memory.fill s.pb g s.field.packedBytes } : State).PbShaped :=
  ⟨fill_wf _ _ hs.1, fun j hj => (read_fill_ge _ _ hj).trans (hs.2 j hj)⟩

theorem pbShaped_writeLanes {s : State} (hs : s.PbShaped) (w : Nat) (d : Word) :
    ({ s with pb := s.writeLanes w d 8 } : State).PbShaped := by
  refine ⟨writeLanes_wf hs.1 w d 8, fun j hj => ?_⟩
  have hj : s.field.packedBytes ≤ j := hj
  rw [read_writeLanes hs.1, if_neg (by omega)]
  exact hs.2 j hj

/-! ### The operations -/

/-- A change of STATUS, of CTRL and of the model's own fields keeps the invariant where STATUS stays in shape. -/
theorem inv_of_status {s : State} (hs : s.Inv) {done err ie : Bool} {ecode : BitVec 8}
    {inputs : List HostEvent} {readData : Word} {draws : Nat}
    (hstatus : (err = false ↔ ecode = 0) ∧ ecode ≤ 8) :
    ({ s with
        done := done, err := err, ecode := ecode, ie := ie, inputs := inputs, readData := readData
        draws := draws } : State).Inv :=
  ⟨hs.regs, hs.pb, hstatus, hs.inflight⟩

theorem inv_raiseError {s : State} (hs : s.Inv) (e : ErrorCode) : (s.raiseError e).Inv := by
  obtain ⟨hne, hle⟩ := code_ne_zero_and_le e
  unfold State.raiseError
  split
  · exact hs
  · exact inv_of_status hs ⟨iff_of_false Bool.noConfusion hne, hle⟩

/-- Dropping the record in flight keeps the invariant, and so does setting DONE. -/
theorem inv_commandError {s : State} (hs : s.Inv) (e : ErrorCode) : (s.commandError e).Inv := by
  obtain ⟨hregs, hpb, hstatus, -⟩ := inv_raiseError hs e
  exact ⟨hregs, hpb, hstatus, inflightShaped_of_idle rfl⟩

theorem inv_completeReg {s : State} (hs : s.Inv) (vd : Reg) {v : DigitVec} (hv : v.length = s.field.K) :
    (s.completeReg vd v).Inv :=
  ⟨regsShaped_complete (regsShaped_setReg hs.regs vd hv), hs.pb, hs.status, inflightShaped_of_idle rfl⟩

theorem inv_completeSres {s : State} (hs : s.Inv) (w : Word) : (s.completeSres w).Inv :=
  ⟨regsShaped_complete (s := { s with sres := w }) hs.regs, hs.pb, hs.status, inflightShaped_of_idle rfl⟩

theorem inv_completePb {s : State} (hs : s.Inv) (r : Nat) : (s.completePb r).Inv :=
  ⟨regsShaped_complete (s := { s with pb := _ }) hs.regs, pbShaped_fill hs.pb _, hs.status,
    inflightShaped_of_idle rfl⟩

theorem inv_ifApplicable {s : State} (hs : s.Inv) (op : Op) {done : State → State} (hdone : (done s).Inv) :
    (s.ifApplicable op done).Inv := by
  unfold State.ifApplicable
  split
  · exact hdone
  · exact inv_commandError hs _

theorem inv_resetOf (f : Field) : (State.resetOf f).Inv := by
  refine ⟨⟨fun r => ?_, fun i => ?_⟩, ⟨rfl, fun _ _ => rfl⟩, statusShaped_clear, inflightShaped_of_idle rfl⟩
  · simp [State.reg, State.resetOf]
  · simp [State.resetOf]

theorem inv_hardReset (s : State) : s.hardReset.Inv :=
  inv_of_status (inv_resetOf s.field) (inv_resetOf s.field).status

theorem inv_tick {s : State} (hs : s.Inv) : s.tick.Inv := by
  obtain ⟨hregs, hpb, hstatus, hinflight⟩ := hs
  unfold State.tick
  split
  · rename_i q hq
    refine ⟨hregs, hpb, hstatus, fun q' hq' => ?_⟩
    obtain rfl : { q with remaining := q.remaining - 1 } = q' := Option.some.inj hq'
    obtain ⟨hword, hsnap, i, hdecode, hop, hle⟩ := hinflight q hq
    exact ⟨hword, hsnap, i, hdecode, hop, (Nat.sub_le _ _).trans hle⟩
  · exact ⟨hregs, hpb, hstatus, hinflight⟩

/-- Acceptance puts the word of LASTCMD in flight, with the snapshot and the latency that the invariant asks for. -/
theorem inv_accept {s : State} (hs : s.Inv) {w : Word} (hw : w = s.lastcmd) {i : Instr}
    (hdecode : decode w = .ok i) (hop : s.field.hasOp i.op = true) : (s.accept i w).Inv := by
  refine ⟨hs.regs, hs.pb, hs.status, fun q hq => ?_⟩
  obtain rfl := Option.some.inj hq
  exact ⟨hw, rfl, i, hdecode, hop, le_rfl⟩

theorem inv_issue {s : State} (hs : s.Inv) {w : Word} (hw : w = s.lastcmd) : (s.issue w).Inv := by
  rcases issue_cases w s with ⟨e, -, heq⟩ | ⟨i, -, -, heq⟩ | ⟨i, hdecode, hop, heq⟩ <;> rw [heq]
  · exact inv_commandError hs _
  · exact inv_commandError hs _
  · exact inv_accept hs hw hdecode hop

/-! ### Commands -/

theorem length_sourceA {s : State} (hs : s.Inv) (va : Reg) : (s.sourceA va).length = s.field.K := by
  cases hq : s.inflight with
  | none => exact sourceA_idle hq va ▸ hs.regs.1 va
  | some q =>
    obtain ⟨-, hsnap, -⟩ := hs.inflight q hq
    rw [sourceA_inflight hq va, hsnap]
    exact hs.regs.1 _

/-- Every command keeps the invariant: MOV hands on a source of `K` words, and every other vector result is built with
`K` digits. -/
theorem exec_inv {s : State} (hs : s.Inv) (i : Instr) : ∃ t, exec i s = .next t ∧ t.Inv := by
  cases i with
  | add | sub | adds | neg => exact ⟨_, rfl, inv_completeReg hs _ (length_addCore _ _ _ _)⟩
  | mul | muls | sqr => exact ⟨_, rfl, inv_completeReg hs _ (length_mulOut _ _)⟩
  | norm | inv | div | unpack | ldi | abs => exact ⟨_, rfl, inv_completeReg hs _ (length_canon _ _)⟩
  | sqrt | isqrt => exact ⟨_, rfl, inv_ifApplicable hs _ (inv_completeReg hs _ (length_canon _ _))⟩
  | legq => exact ⟨_, rfl, inv_ifApplicable hs _ (inv_completeSres hs _)⟩
  | leg | eq | eqn | sign | signn | bit | bitn => exact ⟨_, rfl, inv_completeSres hs _⟩
  | pack | npack => exact ⟨_, rfl, inv_completePb hs _⟩
  | mov => exact ⟨_, rfl, inv_completeReg hs _ (length_sourceA hs _)⟩
  | mask | masks => exact ⟨_, rfl, inv_completeReg hs _ (length_maskVec _ _ _)⟩
  | or => exact ⟨_, rfl, inv_completeReg hs _ (length_orVec _ _ _)⟩

theorem runWord_inv {s t : State} (hs : s.Inv) {w : Word} (ht : runWord w s = .next t) : t.Inv := by
  rcases runWord_cases w s with ⟨i, -, heq⟩ | ⟨e, -, heq⟩
  · obtain ⟨u, hu, hinv⟩ := exec_inv hs i
    obtain rfl : u = t := Host.Outcome.next.inj (by rw [← hu, ← heq, ht])
    exact hinv
  · obtain rfl : s.commandError (decodeErrorCode e) = t := Host.Outcome.next.inj (by rw [← heq, ht])
    exact inv_commandError hs _

/-! ### The host -/

theorem inv_hostRead {s : State} (hs : s.Inv) (a : BitVec 16) (width : Nat) : (s.hostRead a width).Inv := by
  rcases hostRead_cases s a width with ⟨e, heq⟩ | ⟨r, -, heq⟩ | heq <;> rw [heq]
  · have hraised := inv_raiseError hs e
    exact inv_of_status hraised hraised.status
  · exact inv_of_status hs hs.status
  · exact inv_of_status hs hs.status

/-- The whole of a STATUS write (10_state.md R36): bit 1 acknowledges DONE, bit 2 ERR with ECODE. -/
theorem writeStatus_eq (s : State) (d : Word) : s.writeStatus d =
    { s with
      done := s.done && !d.getLsbD 1
      err := s.err && !d.getLsbD 2
      ecode := if d.getLsbD 2 then 0 else s.ecode } := by
  unfold State.writeStatus
  cases d.getLsbD 1 <;> cases d.getLsbD 2 <;> simp [State.ackDone, State.ackError]

theorem inv_writeStatus {s : State} (hs : s.Inv) (d : Word) : (s.writeStatus d).Inv := by
  rw [writeStatus_eq]
  refine inv_of_status hs ?_
  cases d.getLsbD 2 with
  | true => simp
  | false => simpa [State.StatusShaped] using hs.status

theorem inv_writeCtrl {s : State} (hs : s.Inv) (d : Word) : (s.writeCtrl d).Inv := by
  unfold State.writeCtrl
  split
  · exact inv_hardReset s
  · exact inv_of_status hs hs.status

/-- While a command is in flight no write reaches a source of it; while none is, the sources are free to change. -/
theorem inv_windowWrite {s : State} (hs : s.Inv) (d : Word) (r : WindowReg) : (s.windowWrite d r).Inv := by
  rcases windowWrite_cases s d r with ⟨e, heq⟩ | ⟨-, heq⟩ | ⟨-, heq⟩ | ⟨-, hidle, heq⟩ | ⟨w, -, hidle, heq⟩ |
    ⟨i, j, -, hidle, heq⟩ <;> rw [heq]
  · exact inv_raiseError hs e
  · exact inv_writeStatus hs d
  · exact inv_writeCtrl hs d
  · have hrecorded : ({ s with lastcmd := d } : State).Inv :=
      ⟨hs.regs, hs.pb, hs.status, inflightShaped_of_not_busy hidle⟩
    exact inv_issue hrecorded rfl
  · exact ⟨hs.regs, pbShaped_writeLanes hs.pb w d, hs.status, inflightShaped_of_not_busy hidle⟩
  · unfold State.writeSlot
    split
    · exact ⟨regsShaped_setReg hs.regs i (by simp [hs.regs.1 i]), hs.pb, hs.status,
        inflightShaped_of_not_busy hidle⟩
    · exact hs

theorem inv_event {s : State} (hs : s.Inv) (e : HostEvent) : (s.event e).Inv := by
  cases e with
  | read a width => exact inv_hostRead hs a width
  | tick => exact inv_tick hs
  | rst => exact inv_hardReset s
  | write a width d =>
    change (s.hostWrite a width d).Inv
    rcases hostWrite_cases s a width d with ⟨e, heq⟩ | ⟨r, -, -, heq⟩ <;> rw [heq]
    · exact inv_raiseError hs e
    · exact inv_windowWrite hs d r

theorem inv_advance {s : State} (hs : s.Inv) : s.advance.Inv := by
  rcases advance_cases s with ⟨-, heq⟩ | ⟨e, rest, -, heq⟩ <;> rw [heq]
  · exact inv_tick hs
  · exact inv_event (inv_of_status hs hs.status) e

/-- Settles O16: a step is a completion, whose result has the shape of the place it goes to, or serves a host event,
and none that comes while a command is in flight changes a source of it. -/
theorem everyStepKeepsTheInvariant : Obligations.EveryStepKeepsTheInvariant := by
  intro s t hs ht
  rcases step_cases s with ⟨q, -, -, heq⟩ | ⟨-, heq⟩
  · exact runWord_inv hs (heq ▸ ht)
  · obtain rfl : s.advance = t := Host.Outcome.next.inj (heq ▸ ht)
    exact inv_advance hs

/-- Settles O15: every vector is `K` zeros, PB is empty, and nothing is in flight. -/
theorem invariantHoldsAtReset : Obligations.InvariantHoldsAtReset := ⟨inv_resetOf, inv_resetOf _⟩

/-! ### The snapshot -/

/-- A command that decodes from a word names its sources by the fields of that word (30_encoding.md R103, R109). -/
theorem decode_eq_instr {w : Word} {i : Instr} (h : decode w = .ok i) : ∃ op : Op, i = op.instr w := by
  unfold decode at h
  split at h
  · cases h
  · split at h
    · exact ⟨_, (Except.ok.inj h).symm⟩
    · cases h

/-- What a decode error leaves does not depend on the record it drops. -/
theorem commandError_drops_inflight (s : State) (q : Option Inflight) (e : ErrorCode) :
    ({ s with inflight := q } : State).commandError e = s.commandError e := by
  simp only [State.commandError, raiseError_eq]

/-- The same of a command that some fields do not have, where its completion does not depend on the record either. -/
theorem ifApplicable_congr_inflight {s : State} {q q' : Option Inflight} {done done' : State → State}
    (h : done { s with inflight := q } = done' { s with inflight := q' }) (op : Op) :
    ({ s with inflight := q } : State).ifApplicable op done =
      ({ s with inflight := q' } : State).ifApplicable op done' := by
  unfold State.ifApplicable
  rw [commandError_drops_inflight s q, commandError_drops_inflight s q', h]

/-- A command has one effect on a snapshot of its sources and on the sources themselves. -/
theorem exec_snapshot (op : Op) (w : Word) (s : State) (n : Nat) :
    exec (op.instr w) { s with inflight := some ⟨w, s.snapshot w, n⟩ } =
      exec (op.instr w) { s with inflight := none } := by
  cases op with
  | sqrt | isqrt | legq =>
    refine congrArg Host.Outcome.next (ifApplicable_congr_inflight (s := s) ?_ _)
    rfl
  | _ => rfl

/-- Settles O11: by the invariant the snapshot is what the fields of the word in flight still name. -/
theorem snapshotIsUnobservable : Obligations.SnapshotIsUnobservable := by
  intro s ⟨w, snap, n⟩ i hs hq hdecode
  obtain ⟨-, hsnap, -⟩ := hs.inflight _ hq
  obtain ⟨op, rfl⟩ := decode_eq_instr hdecode
  have hrecord : s = { s with inflight := some ⟨w, s.snapshot w, n⟩ } := by
    rw [← hsnap, ← hq]
  exact (congrArg (exec (op.instr w)) hrecord).trans (exec_snapshot op w s n)

end Sys2Proof.Machine
end

section
/-! PROOFS. What the state's registers hold and what writes them (10_state.md): SRES (R34, R35), STATUS, CTRL and the
interrupt output (R36, R40, R49), and every register after reset (R55). -/

namespace Sys2Proof.Machine

/-! ### SRES -/

/-- A command with a scalar result, where the field has it, takes nothing from SRES: its one result is the same word
whatever SRES held (10_state.md R35). -/
theorem exec_scalar {i : Instr} (hi : i.op ∈ [Op.leg, .legq, .eq, .eqn, .sign, .signn, .bit, .bitn]) {s : State}
    (hop : s.field.hasOp i.op = true) :
    ∃ w, ∀ old, exec i { s with sres := old } = .next (({ s with sres := old } : State).completeSres w) := by
  cases i with
  | leg va => exact ⟨wordOf (legV s.field (modp s.field (s.sourceA va))), fun _ => rfl⟩
  | legq va =>
    exact ⟨wordOf (legqV s.field (modp s.field (s.sourceA va))), fun _ => congrArg Host.Outcome.next (if_pos hop)⟩
  | eq va vb =>
    exact ⟨boolWord (modp s.field (s.sourceA va) == modp s.field (s.sourceB vb)), fun _ => rfl⟩
  | eqn va vb => exact ⟨boolWord (sameDigits s.field (s.sourceA va) (s.sourceB vb)), fun _ => rfl⟩
  | sign va => exact ⟨boolWord (signBit s.field (modp s.field (s.sourceA va))), fun _ => rfl⟩
  | signn va => exact ⟨wordOf (signCarry s.field (s.sourceA va)), fun _ => rfl⟩
  | bit va imm => exact ⟨boolWord (valueBit s.field (s.sourceA va) (immIndex imm)), fun _ => rfl⟩
  | bitn va imm => exact ⟨boolWord (digitBit s.field (s.sourceA va) (immIndex imm)), fun _ => rfl⟩
  | _ => simp [Instr.op] at hi

/-- Every other command's completion leaves SRES (10_state.md R35). -/
theorem exec_sres_of_not_scalar {i : Instr}
    (hi : i.op ∉ [Op.leg, .legq, .eq, .eqn, .sign, .signn, .bit, .bitn]) {s : State}
    (hop : s.field.hasOp i.op = true) : ∃ t, exec i s = .next t ∧ t.sres = s.sres := by
  cases i with
  | leg | legq | eq | eqn | sign | signn | bit | bitn => simp [Instr.op] at hi
  | sqrt | isqrt => exact ⟨_, congrArg Host.Outcome.next (if_pos hop), rfl⟩
  | _ => exact ⟨_, rfl, rfl⟩

/-- A command that the field lacks leaves SRES (10_state.md R35). -/
theorem exec_sres_of_lacks {i : Instr} {s : State} (hop : s.field.hasOp i.op = false) :
    ∃ t, exec i s = .next t ∧ t.sres = s.sres := by
  rcases exec_cases i s with ⟨hhas, -⟩ | ⟨-, heq⟩
  · exact absurd hhas (by simp [hop])
  · exact ⟨_, heq, by simp⟩

/-- MASKS is MASK by bit 0 of SRES (47_transfer_compare.md R260). -/
theorem exec_masks_eq_mask {s : State} (h : s.inflight = none) (vd va : Reg) :
    exec (.masks vd va) s = exec (.mask vd va (if s.sres.getLsbD 0 then 1 else 0)) s := by
  change execMasks vd va s = execMask vd va _ s
  unfold execMasks execMask
  rw [sourceSres0_idle h]
  cases s.sres.getLsbD 0 <;> rfl

/-- Settles O14: the eight scalar commands complete with SRES as their result, a command the field lacks ends in an
error, and no other command's result is SRES. -/
theorem scalarCommandsAloneWriteSres : Obligations.ScalarCommandsAloneWriteSres := by
  refine ⟨fun s vd va h => exec_masks_eq_mask h vd va, fun i s => ?_⟩
  split
  case isTrue hscalar =>
    obtain ⟨w, hw⟩ := exec_scalar hscalar.1 hscalar.2
    exact ⟨w, fun old => ⟨_, hw old, completeSres_spec _ w⟩⟩
  case isFalse hother =>
    cases hop : s.field.hasOp i.op with
    | false => exact exec_sres_of_lacks hop
    | true => exact exec_sres_of_not_scalar (fun hi => hother ⟨hi, hop⟩) hop

/-! ### STATUS, CTRL and the interrupt output -/

/-- A well-formed write to a mapped register is that register's write. -/
theorem event_write {a : BitVec 16} {r : WindowReg} (hok : accessOk a 64 = true) (hreg : windowReg a = some r)
    (s : State) (d : Word) : s.event (.write a 64 d) = s.windowWrite d r := by
  simp only [State.event, State.hostWrite, hok, hreg, if_true]

/-- With no completion due, the step serves the next host event. -/
theorem step_event {s : State} {e : HostEvent} {rest : List HostEvent} (hdue : s.dueWord = none)
    (hin : s.inputs = e :: rest) : step s = .next (({ s with inputs := rest } : State).event e) := by
  simp only [step, hdue, State.advance, hin]

theorem event_write_status (s : State) (d : Word) : s.event (.write 0x0010 64 d) = s.writeStatus d :=
  event_write (by decide) (r := .status) (by decide) s d

theorem event_write_ctrl (s : State) (d : Word) : s.event (.write 0x0018 64 d) = s.writeCtrl d :=
  event_write (by decide) (r := .ctrl) (by decide) s d

theorem writeCtrl_eq_hardReset (s : State) {d : Word} (h : d.getLsbD 1 = true) : s.writeCtrl d = s.hardReset :=
  if_pos h

theorem writeCtrl_of_no_srst (s : State) {d : Word} (h : d.getLsbD 1 = false) :
    s.writeCtrl d = { s with ie := d.getLsbD 0 } :=
  if_neg (Bool.eq_false_iff.1 h)

/-- Settles O27: STATUS and CTRL are written busy or idle, each as its own write says. -/
theorem statusAndCtrlWritesAreTaken : Obligations.StatusAndCtrlWritesAreTaken := by
  intro s d rest hdue
  refine ⟨fun hin => ?_, fun hin hsrst => ?_⟩
  · rw [step_event hdue hin, event_write_status, writeStatus_eq]
  · rw [step_event hdue hin, event_write_ctrl, writeCtrl_of_no_srst _ hsrst]

/-- The bits of STATUS, by place (10_state.md R36). -/
theorem getLsbD_statusWord (s : State) (k : Nat) : s.statusWord.getLsbD k =
    if k = 0 then s.busy else if k = 1 then s.done else if k = 2 then s.err
    else decide (8 ≤ k) && s.ecode.getLsbD (k - 8) := by
  simp only [State.statusWord, BitVec.getLsbD_append, BitVec.getLsbD_ofBool, BitVec.getLsbD_zero]
  rcases k with _ | _ | _ | k
  · rfl
  · rfl
  · rfl
  · have hplace : k + 3 - 8 = k - 5 := by omega
    by_cases hlow : k < 5
    · simp [hlow]
    · by_cases hin : k - 5 < 8
      · simp [hlow, hin, hplace, show 5 ≤ k by omega]
      · simp [hlow, hin, hplace, BitVec.getLsbD_of_ge _ _ (not_lt.1 hin)]

theorem getLsbD_ctrlWord (s : State) (k : Nat) : s.ctrlWord.getLsbD k = (decide (k = 0) && s.ie) := by
  simp only [State.ctrlWord, BitVec.getLsbD_append, BitVec.getLsbD_ofBool, BitVec.getLsbD_zero]
  cases k <;> simp

theorem extractLsb'_statusWord (s : State) : s.statusWord.extractLsb' 8 8 = s.ecode := by
  refine BitVec.eq_of_getLsbD_eq fun k hk => ?_
  rw [BitVec.getLsbD_extractLsb', getLsbD_statusWord, if_neg (by omega), if_neg (by omega), if_neg (by omega)]
  simp [hk]

theorem getLsbD_statusWord_reserved (s : State) {k : Nat} (hk : 3 ≤ k ∧ k ≤ 7 ∨ 16 ≤ k) :
    s.statusWord.getLsbD k = false := by
  rw [getLsbD_statusWord, if_neg (by omega), if_neg (by omega), if_neg (by omega)]
  rcases hk with ⟨-, hle⟩ | hge
  · rw [decide_eq_false (by omega), Bool.false_and]
  · rw [BitVec.getLsbD_of_ge _ _ (by omega), Bool.and_false]

/-- Settles O28: each bit of the two words is the field that stands at its place. -/
theorem statusWordHoldsItsFields : Obligations.StatusWordHoldsItsFields := by
  intro s
  have hdone : s.statusWord.getLsbD 1 = s.done := getLsbD_statusWord s 1
  have hie : s.ctrlWord.getLsbD 0 = s.ie := getLsbD_ctrlWord s 0
  refine ⟨getLsbD_statusWord s 0, hdone, getLsbD_statusWord s 2, extractLsb'_statusWord s,
    fun k => getLsbD_statusWord_reserved s, hie, fun k hk => ?_, ?_⟩
  · rw [getLsbD_ctrlWord, decide_eq_false (by omega), Bool.false_and]
  · rw [hdone, hie, State.irq, Bool.and_eq_true]

/-! ### Reset -/

/-- The digits of 0 are 0. -/
theorem canon_zero (f : Field) : canon f 0 = List.replicate f.K 0 := by
  simp [canon, build]

theorem digit_replicate_zero {k j : Nat} (hj : j < k) : digit (List.replicate k 0) j = 0 := by
  simp [digit, hj]

/-- STATUS reads 0 after reset, every bit of it. -/
theorem statusWord_reset (s : State) : s.hardReset.statusWord = 0 := by
  change (0#48 ++ 0#8 ++ 0#5 ++ BitVec.ofBool false ++ BitVec.ofBool false ++ BitVec.ofBool false : Word) = 0
  decide

/-- Settles O20: reset writes the whole table, and a CTRL write with SRST is reset. -/
theorem resetPutsEveryRegisterToItsTableValue : Obligations.ResetPutsEveryRegisterToItsTableValue := by
  intro s
  refine ⟨fun r j hj => ?_, fun r => ?_, fun _ _ => rfl, rfl, statusWord_reset s, rfl, rfl, rfl, rfl, rfl, rfl, rfl,
    fun d hd => ?_⟩
  · rw [reg_hardReset, digit_replicate_zero hj]
  · rw [reg_hardReset, canon_zero]
  · rw [event_write_ctrl, writeCtrl_eq_hardReset s hd]

end Sys2Proof.Machine
end

section
/-! PROOFS. The scratch vectors S0 to S2 cannot be observed (10_state.md R50): each operation takes two states that
differ in them alone to two such states. -/

namespace Sys2Proof.Machine

/-- `u` is `t` but for what S0 to S2 hold. -/
def EqUpToScratch (t u : State) : Prop := { u with scratch := t.scratch } = t

section
variable (s : State) (v : Vector DigitVec 3)

theorem raiseError_scratch_blind (e : ErrorCode) :
    EqUpToScratch (s.raiseError e) (({ s with scratch := v } : State).raiseError e) := by
  simp only [EqUpToScratch, raiseError_eq]

theorem commandError_scratch_blind (e : ErrorCode) :
    EqUpToScratch (s.commandError e) (({ s with scratch := v } : State).commandError e) := by
  simp only [EqUpToScratch, State.commandError, raiseError_eq]

theorem issue_scratch_blind (w : Word) : EqUpToScratch (s.issue w) (({ s with scratch := v } : State).issue w) := by
  unfold State.issue
  cases decode w with
  | error e => exact commandError_scratch_blind s v _
  | ok i =>
    dsimp only
    split
    · rfl
    · exact commandError_scratch_blind s v _

theorem ifApplicable_scratch_blind (op : Op) {done done' : State → State}
    (h : EqUpToScratch (done s) (done' { s with scratch := v })) :
    EqUpToScratch (s.ifApplicable op done) (({ s with scratch := v } : State).ifApplicable op done') := by
  unfold State.ifApplicable
  dsimp only
  split
  · exact h
  · exact commandError_scratch_blind s v _

/-- No command reads S0 to S2, and a completion overwrites all three (10_state.md R50). -/
theorem exec_scratch_blind (i : Instr) :
    ∃ t u, exec i s = .next t ∧ exec i { s with scratch := v } = .next u ∧ EqUpToScratch t u := by
  cases i with
  | sqrt | isqrt | legq => exact ⟨_, _, rfl, rfl, ifApplicable_scratch_blind s v _ rfl⟩
  | _ => exact ⟨_, _, rfl, rfl, rfl⟩

theorem runWord_scratch_blind (w : Word) :
    ∃ t u, runWord w s = .next t ∧ runWord w { s with scratch := v } = .next u ∧ EqUpToScratch t u := by
  unfold runWord
  cases decode w with
  | ok i => exact exec_scratch_blind s v i
  | error e => exact ⟨_, _, rfl, rfl, commandError_scratch_blind s v _⟩

theorem hostRead_scratch_blind (a : BitVec 16) (width : Nat) :
    EqUpToScratch (s.hostRead a width) (({ s with scratch := v } : State).hostRead a width) := by
  have hrefused (e : ErrorCode) : EqUpToScratch ((s.raiseError e).reply 0)
      ((({ s with scratch := v } : State).raiseError e).reply 0) := by
    simp only [EqUpToScratch, State.reply, raiseError_eq]
  have hbusy : ({ s with scratch := v } : State).busy = s.busy := rfl
  unfold State.hostRead
  split
  · cases windowReg a with
    | none => exact hrefused _
    | some r =>
      dsimp only
      rw [hbusy]
      split <;> rfl
  · exact hrefused _

theorem writeLanes_scratch (w : Nat) (d : Word) (k : Nat) :
    ({ s with scratch := v } : State).writeLanes w d k = s.writeLanes w d k := by
  induction k with
  | zero => rfl
  | succ k ih => simp only [State.writeLanes, ih]

theorem windowWrite_scratch_blind (d : Word) (r : WindowReg) :
    EqUpToScratch (s.windowWrite d r) (({ s with scratch := v } : State).windowWrite d r) := by
  have hbusy : ({ s with scratch := v } : State).busy = s.busy := rfl
  cases r with
  | id0 | id1 | sres | cmdcnt => exact raiseError_scratch_blind s v _
  | status => simp only [State.windowWrite, writeStatus_eq, EqUpToScratch]
  | ctrl =>
    simp only [State.windowWrite, State.writeCtrl]
    split <;> rfl
  | cmd =>
    simp only [State.windowWrite, State.writeCmd, hbusy]
    split
    · exact raiseError_scratch_blind s v _
    · exact issue_scratch_blind { s with lastcmd := d } v d
  | pbuf w =>
    simp only [State.windowWrite, hbusy, writeLanes_scratch]
    split
    · exact raiseError_scratch_blind s v _
    · rfl
  | vreg i j =>
    simp only [State.windowWrite, hbusy, State.writeSlot]
    split
    · exact raiseError_scratch_blind s v _
    · split <;> rfl

/-- No host event reaches S0 to S2 but a reset, which sets all three (10_state.md R50). -/
theorem event_scratch_blind (e : HostEvent) :
    EqUpToScratch (s.event e) (({ s with scratch := v } : State).event e) := by
  cases e with
  | read a width => exact hostRead_scratch_blind s v a width
  | tick =>
    simp only [State.event, State.tick]
    split <;> rfl
  | rst => rfl
  | write a width d =>
    simp only [State.event, State.hostWrite]
    split
    · cases windowReg a with
      | none => exact raiseError_scratch_blind s v _
      | some r => exact windowWrite_scratch_blind s v d r
    · exact raiseError_scratch_blind s v _

theorem advance_scratch_blind : EqUpToScratch s.advance ({ s with scratch := v } : State).advance := by
  unfold State.advance
  dsimp only
  split
  · exact event_scratch_blind s v .tick
  · exact event_scratch_blind { s with inputs := _ } v _

theorem step_scratch_blind :
    ∃ t u, step s = .next t ∧ step { s with scratch := v } = .next u ∧ EqUpToScratch t u := by
  have hdue : ({ s with scratch := v } : State).dueWord = s.dueWord := rfl
  unfold step
  rw [hdue]
  cases s.dueWord with
  | some w => exact runWord_scratch_blind s v w
  | none => exact ⟨_, _, rfl, rfl, advance_scratch_blind s v⟩

end

/-- Settles O19: no operation that a step can be reads the scratch vectors. -/
theorem scratchVectorsAreUnobservable : Obligations.ScratchVectorsAreUnobservable := by
  intro s t v ht
  obtain ⟨t', u, ht', hu, heq⟩ := step_scratch_blind s v
  obtain rfl : t' = t := Host.Outcome.next.inj (by rw [← ht', ht])
  exact ⟨u, hu, heq⟩

end Sys2Proof.Machine
end

section
/-! PROOFS. The constants of the square-root engine (10_state.md R53, R54). -/

namespace Sys2Proof.Machine

theorem p_m221 : (Field.table .m221).p = 0x1ffffffffffffffffffffffffffffffffffffffffffffffffffffffd := by
  norm_num [Field.p, Field.n, Field.c, Field.tuple, FieldId.tuple]

theorem p_m511 : (Field.table .m511).p =
    0x7fffffffffffffffffffffffffffffffffffffffffffffffffffffffffffffffffffffffffffffffffffffffffffffffffffffffffffffffffffffffffffff45 := by
  have hn : (Field.table .m511).n = 255 + 256 := rfl
  have hc : (Field.table .m511).c = 187 := rfl
  rw [Field.p, hn, hc, pow_add]
  norm_num

/-- A power mod `m` may be computed in `ZMod m`. -/
theorem pow_mod_eq_of_zmod {m a e v : Nat} (hv : v < m) (h : (a : ZMod m) ^ e = v) : a ^ e % m = v := by
  rw [← Nat.cast_pow, ZMod.natCast_eq_natCast_iff'] at h
  rw [h, Nat.mod_eq_of_lt hv]

theorem sqrtCoeffM1_m221 :
    (Field.table .m221).sqrtCoeffM1 = 0x8c06d788863cdd6e73800ee6c4e4e461267b23c06b158a371015618 := by
  rw [Field.sqrtCoeffM1, powMod_eq, p_m221]
  refine pow_mod_eq_of_zmod (by norm_num) ?_
  norm_num only [Nat.cast_ofNat]
  reduce_mod_char

theorem sqrtCoeffM1_m511 :
    (Field.table .m511).sqrtCoeffM1 =
      0xecda5605ac73ca62d360dd35afc67fcb2d9d627c653c0cdcff56cdde9b115862a4216356433c83fdf4744e63847e9b2a6526b3ddabf1019abca2025f19a0806 := by
  rw [Field.sqrtCoeffM1, powMod_eq, p_m511]
  refine pow_mod_eq_of_zmod (by norm_num) ?_
  norm_num only [Nat.cast_ofNat]
  reduce_mod_char

/-- Settles O30: the chain's value is the power, which the two class-1 rows evaluate; no other row has the class. -/
theorem sqrtCoefficientsAreTheSpecs : Obligations.SqrtCoefficientsAreTheSpecs := by
  refine ⟨sqrtCoeffM1_m221, sqrtCoeffM1_m511, ?_, ?_, fun f => powMod_eq _ _ _, fun f => ?_, fun row hclass => ?_⟩
  · rw [Field.invSqrtCoeffM1, sqrtCoeffM1_m221, p_m221]
  · rw [Field.invSqrtCoeffM1, sqrtCoeffM1_m511, p_m511]
  · simp [constSqrtCoeff]
  · cases row with
    | m221 => norm_num [sqrtCoeffM1_m221, p_m221]
    | m511 => norm_num [sqrtCoeffM1_m511, p_m511]
    | e130 => simp [sqrtClass_e130] at hclass
    | curve41417 => simp [sqrtClass_curve41417] at hclass
    | e521 => simp [sqrtClass_e521] at hclass

end Sys2Proof.Machine
end

section
/-! PROOFS. The host window (20_memory.md): its address map, the accesses it refuses, what a mapped read returns, and
the VREG and PBUF windows as digits and bytes. -/

namespace Sys2Proof.Machine

/-! ### The address map -/

theorem toNat_pbufAddr {w : Nat} (hw : w < 9) : (BitVec.ofNat 16 (0x0100 + 8 * w)).toNat = 0x0100 + 8 * w := by
  rw [BitVec.toNat_ofNat]
  omega

theorem toNat_vregAddr (i : Reg) {j : Nat} (hj : j < 16) :
    (BitVec.ofNat 16 (0x1000 + 0x80 * i.toNat + 8 * j)).toNat = 0x1000 + 0x80 * i.toNat + 8 * j := by
  have hi : i.toNat < 16 := i.isLt
  rw [BitVec.toNat_ofNat]
  omega

/-- From the PBUF window up, no address names a scalar register. -/
theorem windowReg_of_ge_pbuf {a : BitVec 16} (ha : 0x0100 ≤ a.toNat) : windowReg a =
    if a.toNat ≤ 0x0147 then some (.pbuf ((a.toNat - 0x0100) / 8))
    else if 0x1000 ≤ a.toNat ∧ a.toNat ≤ 0x17ff then
      some (.vreg (BitVec.ofNat 4 ((a.toNat - 0x1000) / 0x80)) ((a.toNat - 0x1000) % 0x80 / 8))
    else none := by
  have hscalar (c : Nat) (hc : c < 0x0100) : a.toNat ≠ c := by omega
  simp only [windowReg, hscalar, Nat.reduceLT, if_false, ha, true_and]

/-- The PBUF words (20_memory.md R76). -/
theorem windowReg_pbufAddr {w : Nat} (hw : w < 9) :
    windowReg (BitVec.ofNat 16 (0x0100 + 8 * w)) = some (.pbuf w) := by
  have ha := toNat_pbufAddr hw
  have hword : (0x0100 + 8 * w - 0x0100) / 8 = w := by omega
  rw [windowReg_of_ge_pbuf (by omega), ha, if_pos (by omega), hword]

/-- The VREG slots (20_memory.md R74). -/
theorem windowReg_vregAddr (i : Reg) {j : Nat} (hj : j < 16) :
    windowReg (BitVec.ofNat 16 (0x1000 + 0x80 * i.toNat + 8 * j)) = some (.vreg i j) := by
  have hi : i.toNat < 16 := i.isLt
  have ha := toNat_vregAddr i hj
  have hreg : (0x1000 + 0x80 * i.toNat + 8 * j - 0x1000) / 0x80 = i.toNat := by omega
  have hslot : (0x1000 + 0x80 * i.toNat + 8 * j - 0x1000) % 0x80 / 8 = j := by omega
  rw [windowReg_of_ge_pbuf (by omega), ha, if_neg (by omega), if_pos (by omega), hreg, hslot, BitVec.ofNat_toNat,
    BitVec.setWidth_eq]

/-- An aligned address up to CMDCNT's names a scalar register. -/
theorem windowReg_ne_none_of_scalar {a : BitVec 16} (hal : a.toNat % 8 = 0) (ha : a.toNat ≤ 0x0030) :
    windowReg a ≠ none := by
  obtain ⟨c, hc⟩ : ∃ c, a.toNat = 8 * c := ⟨a.toNat / 8, by omega⟩
  have hlt : c < 7 := by omega
  unfold windowReg
  interval_cases c <;> simp [hc]

theorem windowReg_eq_none_of_gap {a : BitVec 16} (hlow : 0x0030 < a.toNat) (ha : a.toNat < 0x0100) :
    windowReg a = none := by
  have hscalar (c : Nat) (hc : c ≤ 0x0030) : a.toNat ≠ c := by omega
  have hpbuf : ¬0x0100 ≤ a.toNat := by omega
  have hvreg : ¬0x1000 ≤ a.toNat := by omega
  simp [windowReg, hscalar, hpbuf, hvreg]

/-- The unmapped aligned addresses: the three gaps of the map (20_memory.md R73). -/
theorem windowReg_eq_none_iff {a : BitVec 16} (hal : a.toNat % 8 = 0) : windowReg a = none ↔
    0x0030 < a.toNat ∧ a.toNat < 0x0100 ∨ 0x0147 < a.toNat ∧ a.toNat < 0x1000 ∨ 0x17ff < a.toNat := by
  rcases Nat.lt_or_ge a.toNat 0x0100 with hlow | hhigh
  · by_cases hscalar : a.toNat ≤ 0x0030
    · exact iff_of_false (windowReg_ne_none_of_scalar hal hscalar) (by omega)
    · exact iff_of_true (windowReg_eq_none_of_gap (by omega) hlow) (by omega)
  · rw [windowReg_of_ge_pbuf hhigh]
    split
    case isTrue hpbuf => exact iff_of_false (Option.some_ne_none _) (by omega)
    case isFalse hpbuf =>
      split
      case isTrue hvreg => exact iff_of_false (Option.some_ne_none _) (by omega)
      case isFalse hvreg => exact iff_of_true rfl (by omega)

/-- Settles O22: each window is where its base address and stride put it, and the gaps between them are unmapped. -/
theorem windowMapIsTheSpecs : Obligations.WindowMapIsTheSpecs :=
  ⟨by decide, by decide, by decide, by decide, by decide, by decide, by decide, fun _ => windowReg_pbufAddr,
    fun i _ => windowReg_vregAddr i, fun _ => windowReg_eq_none_iff⟩

/-! ### Host accesses -/

theorem accessOk_iff {a : BitVec 16} {width : Nat} : accessOk a width = true ↔ width = 64 ∧ a.toNat % 8 = 0 := by
  simp [accessOk]

theorem accessOk_of_aligned {a : BitVec 16} (h : a.toNat % 8 = 0) : accessOk a 64 = true := accessOk_iff.2 ⟨rfl, h⟩

section
variable {a : BitVec 16} {width : Nat}

theorem event_read_badAccess (h : ¬(width = 64 ∧ a.toNat % 8 = 0)) (s : State) :
    s.event (.read a width) = (s.raiseError .badAccess).reply 0 :=
  if_neg (mt accessOk_iff.1 h)

theorem event_read_badAddress (h : width = 64 ∧ a.toNat % 8 = 0) (hreg : windowReg a = none) (s : State) :
    s.event (.read a width) = (s.raiseError .badAddress).reply 0 := by
  simp only [State.event, State.hostRead, accessOk_iff.2 h, hreg, if_true]

/-- A well-formed read of a mapped address returns the register, or a free value where R352 leaves the word open. -/
theorem event_read_mapped {r : WindowReg} (hok : accessOk a 64 = true) (hreg : windowReg a = some r) (s : State) :
    s.event (.read a 64) =
      if s.busy && r.openWhileBusy then { s.reply (Config.busyRead s.draws a) with draws := s.draws + 1 }
      else s.reply (s.windowValue r) := by
  simp only [State.event, State.hostRead, hok, hreg, if_true]

theorem event_write_badAccess (h : ¬(width = 64 ∧ a.toNat % 8 = 0)) (s : State) (d : Word) :
    s.event (.write a width d) = s.raiseError .badAccess :=
  if_neg (mt accessOk_iff.1 h)

theorem event_write_badAddress (h : width = 64 ∧ a.toNat % 8 = 0) (hreg : windowReg a = none) (s : State)
    (d : Word) : s.event (.write a width d) = s.raiseError .badAddress := by
  simp only [State.event, State.hostWrite, accessOk_iff.2 h, hreg, if_true]

end

/-! ### Refused accesses -/

/-- The four read-only addresses (20_memory.md R79). -/
theorem windowReg_readOnly {a : BitVec 16} (h : a = 0x0000 ∨ a = 0x0008 ∨ a = 0x0028 ∨ a = 0x0030) :
    ∃ r, accessOk a 64 = true ∧ windowReg a = some r ∧ r.readOnly = true := by
  rcases h with rfl | rfl | rfl | rfl
  · exact ⟨.id0, by decide, by decide, rfl⟩
  · exact ⟨.id1, by decide, by decide, rfl⟩
  · exact ⟨.sres, by decide, by decide, rfl⟩
  · exact ⟨.cmdcnt, by decide, by decide, rfl⟩

theorem windowWrite_readOnly {r : WindowReg} (h : r.readOnly = true) (s : State) (d : Word) :
    s.windowWrite d r = s.raiseError .roWrite := by
  cases r with
  | id0 | id1 | sres | cmdcnt => rfl
  | status | ctrl | cmd | pbuf | vreg => cases h

theorem event_write_cmd_busy {s : State} (h : s.busy = true) (d : Word) :
    s.event (.write 0x0020 64 d) = s.raiseError .busyCmd :=
  (event_write (by decide) (r := .cmd) (by decide) s d).trans (if_pos h)

/-- The busy window of the data registers (60_exceptions.md R306). -/
theorem windowWrite_data_busy {s : State} (h : s.busy = true) {r : WindowReg}
    (hr : (∃ w, r = .pbuf w) ∨ ∃ i j, r = .vreg i j) (d : Word) : s.windowWrite d r = s.raiseError .busyAccess := by
  rcases hr with ⟨w, rfl⟩ | ⟨i, j, rfl⟩
  · exact if_pos h
  · exact if_pos h

/-- Settles O23: each refusal is one raised error, and a refused read replies 0 on top of it. -/
theorem refusedHostAccessIsPrecise : Obligations.RefusedHostAccessIsPrecise := by
  intro s a width d rest hdue
  refine ⟨fun hin => ⟨fun hbad => ?_, fun hok hnone => ?_⟩,
    fun hin => ⟨fun hbad => ?_, fun hok hnone => ?_, fun hwidth ha => ?_, fun hwidth ha hbusy => ?_,
      fun v hok hbusy hv hreg => ?_⟩⟩
  · rw [step_event hdue hin, event_read_badAccess hbad, raiseError_eq, State.reply]
  · rw [step_event hdue hin, event_read_badAddress hok hnone, raiseError_eq, State.reply]
  · rw [step_event hdue hin, event_write_badAccess hbad, raiseError_eq]
  · rw [step_event hdue hin, event_write_badAddress hok hnone, raiseError_eq]
  · subst hwidth
    obtain ⟨r, hok, hreg, hro⟩ := windowReg_readOnly ha
    rw [step_event hdue hin, event_write hok hreg, windowWrite_readOnly hro, raiseError_eq]
  · subst hwidth ha
    rw [step_event hdue hin, event_write_cmd_busy (s := { s with inputs := rest }) hbusy, raiseError_eq]
  · obtain ⟨rfl, hal⟩ := hok
    rw [step_event hdue hin, event_write (accessOk_of_aligned hal) hreg,
      windowWrite_data_busy (s := { s with inputs := rest }) hbusy hv, raiseError_eq]

/-! ### Mapped reads -/

theorem windowValue_inputs (s : State) (rest : List HostEvent) (r : WindowReg) :
    ({ s with inputs := rest } : State).windowValue r = s.windowValue r := by
  cases r <;> rfl

/-- A read whose word R352 does not leave open returns the register and changes nothing else. -/
theorem step_read_mapped {s : State} {a : BitVec 16} {rest : List HostEvent} {r : WindowReg}
    (hdue : s.dueWord = none) (hin : s.inputs = .read a 64 :: rest) (hok : accessOk a 64 = true)
    (hreg : windowReg a = some r) (hopen : (s.busy && r.openWhileBusy) = false) :
    step s = .next { s with inputs := rest, readData := s.windowValue r } := by
  have hserved : ¬(({ s with inputs := rest } : State).busy && r.openWhileBusy) = true := Bool.eq_false_iff.1 hopen
  rw [step_event hdue hin, event_read_mapped hok hreg, if_neg hserved, windowValue_inputs, State.reply]

/-- A read whose word R352 leaves open draws one free value. -/
theorem step_read_open {s : State} {a : BitVec 16} {rest : List HostEvent} {r : WindowReg}
    (hdue : s.dueWord = none) (hin : s.inputs = .read a 64 :: rest) (hok : accessOk a 64 = true)
    (hreg : windowReg a = some r) (hopen : (s.busy && r.openWhileBusy) = true) :
    step s = .next
      { s with inputs := rest, readData := Config.busyRead s.draws a, draws := s.draws + 1 } := by
  have hserved : (({ s with inputs := rest } : State).busy && r.openWhileBusy) = true := hopen
  rw [step_event hdue hin, event_read_mapped hok hreg, if_pos hserved]
  rfl

/-- Idle, or at a scalar register other than SRES, a read's word is not open (70_reset_and_hazards.md R353). -/
theorem not_open_of_idle_or_scalar {s : State} {r : WindowReg}
    (h : s.busy = false ∨ r = .id0 ∨ r = .id1 ∨ r = .status ∨ r = .ctrl ∨ r = .cmd ∨ r = .cmdcnt) :
    (s.busy && r.openWhileBusy) = false := by
  rcases h with hidle | rfl | rfl | rfl | rfl | rfl | rfl
  · rw [hidle, Bool.false_and]
  all_goals exact Bool.and_false _

/-- Settles O24: a mapped read replies with the register's value or, where R352 leaves it open, with a draw. -/
theorem mappedReadsHaveNoSideEffects : Obligations.MappedReadsHaveNoSideEffects := by
  intro s a rest r hdue hin hal hreg
  have hok := accessOk_of_aligned hal
  refine ⟨fun h => ⟨s.windowValue r, step_read_mapped hdue hin hok hreg (not_open_of_idle_or_scalar h), ?_⟩, ?_⟩
  · have hvalue {q : WindowReg} : r = q → s.windowValue r = s.windowValue q := congrArg _
    exact ⟨hvalue, hvalue, hvalue, hvalue, hvalue, hvalue, hvalue, fun _ => hvalue, fun _ _ => hvalue⟩
  · cases hopen : s.busy && r.openWhileBusy with
    | false => exact ⟨_, s.draws, step_read_mapped hdue hin hok hreg hopen⟩
    | true => exact ⟨_, _, step_read_open hdue hin hok hreg hopen⟩

/-! ### Accesses while no command is in flight -/

theorem dueWord_of_idle {s : State} (h : s.inflight = none) : s.dueWord = none := by
  simp only [State.dueWord, h]

theorem busy_of_idle {s : State} (h : s.inflight = none) : s.busy = false := by
  simp only [State.busy, h, Option.isSome_none]

theorem step_read_idle {s : State} {a : BitVec 16} {rest : List HostEvent} {r : WindowReg} (hidle : s.inflight = none)
    (hin : s.inputs = .read a 64 :: rest) (hal : a.toNat % 8 = 0) (hreg : windowReg a = some r) :
    step s = .next { s with inputs := rest, readData := s.windowValue r } :=
  step_read_mapped (dueWord_of_idle hidle) hin (accessOk_of_aligned hal) hreg
    (not_open_of_idle_or_scalar (.inl (busy_of_idle hidle)))

theorem step_write_idle {s : State} {a : BitVec 16} {d : Word} {rest : List HostEvent} {r : WindowReg}
    (hidle : s.inflight = none) (hin : s.inputs = .write a 64 d :: rest) (hal : a.toNat % 8 = 0)
    (hreg : windowReg a = some r) : step s = .next (({ s with inputs := rest } : State).windowWrite d r) := by
  rw [step_event (dueWord_of_idle hidle) hin, event_write (accessOk_of_aligned hal) hreg]

theorem windowWrite_vreg_idle {s : State} (h : s.busy = false) (i : Reg) (j : Nat) (d : Word) :
    s.windowWrite d (.vreg i j) = s.writeSlot i j d :=
  if_neg (Bool.eq_false_iff.1 h)

theorem windowWrite_pbuf_idle {s : State} (h : s.busy = false) (w : Nat) (d : Word) :
    s.windowWrite d (.pbuf w) = { s with pb := s.writeLanes w d 8 } :=
  if_neg (Bool.eq_false_iff.1 h)

/-! ### The VREG window -/

theorem digit_set_same {v : DigitVec} {j : Nat} (h : j < v.length) (d : Word) : digit (v.set j d) j = d := by
  simp [digit, h]

theorem digit_set_ne (v : DigitVec) {j k : Nat} (h : k ≠ j) (d : Word) : digit (v.set j d) k = digit v k := by
  simp [digit, h.symm]

/-- A slot write reaches the vector registers alone. -/
theorem writeSlot_frame (s : State) (i : Reg) (j : Nat) (d : Word) :
    s.writeSlot i j d = { s with x := (s.writeSlot i j d).x } := by
  unfold State.writeSlot
  split <;> rfl

/-- A slot at or beyond `K` ignores a write (20_memory.md R75). -/
theorem writeSlot_dead {s : State} {j : Nat} (h : s.field.K ≤ j) (i : Reg) (d : Word) : s.writeSlot i j d = s :=
  if_neg (by omega)

theorem digit_writeSlot_same {s : State} {i : Reg} {j : Nat} (hlen : (s.reg i).length = s.field.K)
    (hj : j < s.field.K) (d : Word) : digit ((s.writeSlot i j d).reg i) j = d := by
  rw [State.writeSlot, if_pos hj, reg_setReg_same, digit_set_same (hlen ▸ hj)]

theorem digit_writeSlot_ne (s : State) {i i' : Reg} {j j' : Nat} (h : ¬(i' = i ∧ j' = j)) (d : Word) :
    digit ((s.writeSlot i j d).reg i') j' = digit (s.reg i') j' := by
  unfold State.writeSlot
  split
  · by_cases hi : i' = i
    · subst hi
      rw [reg_setReg_same, digit_set_ne _ fun hj => h ⟨rfl, hj⟩]
    · rw [reg_setReg_ne s _ hi]
  · rfl

/-- Settles O25: a VREG address names one slot, which is one digit of one register or, at or beyond `K`, no state. -/
theorem vregWindowIsTheDigits : Obligations.VregWindowIsTheDigits := by
  intro s i j rest hshaped hidle hj
  have hal : (BitVec.ofNat 16 (0x1000 + 0x80 * i.toNat + 8 * j)).toNat % 8 = 0 := by
    rw [toNat_vregAddr i hj]
    omega
  have hreg := windowReg_vregAddr i hj
  refine ⟨fun hin => step_read_idle hidle hin hal hreg, fun d hin => ?_⟩
  have hserved : ({ s with inputs := rest } : State).busy = false := busy_of_idle hidle
  refine ⟨({ s with inputs := rest } : State).writeSlot i j d, ?_, writeSlot_frame _ i j d,
    fun hlive => digit_writeSlot_same (s := { s with inputs := rest }) (hshaped.1 i) hlive d, fun hdead => ?_,
    fun i' j' hne => digit_writeSlot_ne { s with inputs := rest } hne d⟩
  · rw [step_write_idle hidle hin hal hreg, windowWrite_vreg_idle hserved]
  · rw [writeSlot_dead (s := { s with inputs := rest }) hdead]
    rfl

/-! ### The PBUF window -/

/-- Eight bytes put together, the last one least significant, come apart again. -/
theorem extractLsb'_eight_bytes (b : Nat → Byte) {k : Nat} (hk : k < 8) :
    (b 7 ++ b 6 ++ b 5 ++ b 4 ++ b 3 ++ b 2 ++ b 1 ++ b 0).extractLsb' (8 * k) 8 = b k := by
  interval_cases k <;>
    simp only [Nat.reduceMul, Nat.reduceSub, Nat.reduceLeDiff, le_refl, BitVec.extractLsb'_append_eq_of_le,
      BitVec.extractLsb'_append_eq_right, BitVec.extractLsb'_eq_self]

/-- The lanes of the word a PBUF address reads as, lane 0 least significant (20_memory.md R76). -/
theorem extractLsb'_pbufWord (s : State) (w : Nat) {k : Nat} (hk : k < 8) :
    (s.pbufWord w).extractLsb' (8 * k) 8 = s.lane w k :=
  extractLsb'_eight_bytes (s.lane w) hk

/-- Settles O26: a PBUF address names one word, whose eight lanes are read and stored byte by byte. -/
theorem pbufWindowIsTheBytes : Obligations.PbufWindowIsTheBytes := by
  intro s w rest hshaped hidle hw
  have hal : (BitVec.ofNat 16 (0x0100 + 8 * w)).toNat % 8 = 0 := by
    rw [toNat_pbufAddr hw]
    omega
  have hreg := windowReg_pbufAddr hw
  refine ⟨fun hin => ⟨_, step_read_idle hidle hin hal hreg, fun k hk => extractLsb'_pbufWord s w hk⟩, fun d hin => ?_⟩
  have hserved : ({ s with inputs := rest } : State).busy = false := busy_of_idle hidle
  have hread (j : Nat) : (({ s with inputs := rest } : State).writeLanes w d 8).read j =
      if 8 * w ≤ j ∧ j < 8 * w + 8 ∧ j < s.field.packedBytes then d.extractLsb' (8 * (j - 8 * w)) 8
      else s.pb.read j := read_writeLanes (s := { s with inputs := rest }) hshaped.1 w d 8 j
  refine ⟨{ s with inputs := rest, pb := ({ s with inputs := rest } : State).writeLanes w d 8 }, ?_, rfl,
    fun k hk hlive => ?_, fun j hj => ?_⟩
  · rw [step_write_idle hidle hin hal hreg, windowWrite_pbuf_idle hserved]
  · rw [hread, if_pos ⟨by omega, by omega, hlive⟩, Nat.add_sub_cancel_left]
  · rw [hread, if_neg (by omega)]

end Sys2Proof.Machine
end

section
/-! PROOFS. The command word (30_encoding.md): its six fields determine it, and one set of conditions, `Op.Accepts`, is
what the decoder tests, what an encoded word meets and what the columns of the opcode map fix. -/

namespace Sys2Proof

/-! ### The fields of a word -/

/-- The six fields, at their places, are the whole word (R101). -/
theorem append_fields (w : Word) :
    immField w ++ rsvField w ++ vbField w ++ vaField w ++ vdField w ++ opcField w = w := by
  have hrsv : immField w ++ rsvField w = w.extractLsb' 20 44 :=
    BitVec.extractLsb'_append_extractLsb'_eq_extractLsb' rfl
  have hvb : w.extractLsb' 20 44 ++ vbField w = w.extractLsb' 16 48 :=
    BitVec.extractLsb'_append_extractLsb'_eq_extractLsb' rfl
  have hva : w.extractLsb' 16 48 ++ vaField w = w.extractLsb' 12 52 :=
    BitVec.extractLsb'_append_extractLsb'_eq_extractLsb' rfl
  have hvd : w.extractLsb' 12 52 ++ vdField w = w.extractLsb' 8 56 :=
    BitVec.extractLsb'_append_extractLsb'_eq_extractLsb' rfl
  have hopc : w.extractLsb' 8 56 ++ opcField w = w.extractLsb' 0 64 :=
    BitVec.extractLsb'_append_extractLsb'_eq_extractLsb' rfl
  rw [hrsv, hvb, hva, hvd, hopc, BitVec.extractLsb'_eq_self]

theorem word_eq_iff_fields {v w : Word} : v = w ↔ opcField v = opcField w ∧ rsvField v = rsvField w ∧
    vdField v = vdField w ∧ vaField v = vaField w ∧ vbField v = vbField w ∧ immField v = immField w := by
  refine ⟨fun h => by simp [h], fun ⟨hopc, hrsv, hvd, hva, hvb, himm⟩ => ?_⟩
  rw [← append_fields v, ← append_fields w, hopc, hrsv, hvd, hva, hvb, himm]

section
variable (v w : Word)

@[simp] theorem opcField_and : opcField (v &&& w) = opcField v &&& opcField w := BitVec.extractLsb'_and

@[simp] theorem rsvField_and : rsvField (v &&& w) = rsvField v &&& rsvField w := BitVec.extractLsb'_and

@[simp] theorem vdField_and : vdField (v &&& w) = vdField v &&& vdField w := BitVec.extractLsb'_and

@[simp] theorem vaField_and : vaField (v &&& w) = vaField v &&& vaField w := BitVec.extractLsb'_and

@[simp] theorem vbField_and : vbField (v &&& w) = vbField v &&& vbField w := BitVec.extractLsb'_and

@[simp] theorem immField_and : immField (v &&& w) = immField v &&& immField w := BitVec.extractLsb'_and

end

section
variable (opc : BitVec 8) (vd va vb : Reg) (imm : Imm)

@[simp] theorem opcField_encodeFields : opcField (encodeFields opc vd va vb imm) = opc :=
  (Laws.EncodingFields.encodeFields_fields opc vd va vb imm).1

@[simp] theorem rsvField_encodeFields : rsvField (encodeFields opc vd va vb imm) = 0 :=
  (Laws.EncodingFields.encodeFields_fields opc vd va vb imm).2

@[simp] theorem vdField_encodeFields : vdField (encodeFields opc vd va vb imm) = vd := by
  unfold vdField encodeFields
  rw [BitVec.extractLsb'_append_eq_of_le (by decide), BitVec.extractLsb'_append_eq_of_add_le (by decide),
    BitVec.extractLsb'_eq_self]

@[simp] theorem vaField_encodeFields : vaField (encodeFields opc vd va vb imm) = va := by
  unfold vaField encodeFields
  iterate 2 rw [BitVec.extractLsb'_append_eq_of_le (by decide)]
  rw [BitVec.extractLsb'_append_eq_of_add_le (by decide), BitVec.extractLsb'_eq_self]

@[simp] theorem vbField_encodeFields : vbField (encodeFields opc vd va vb imm) = vb := by
  unfold vbField encodeFields
  iterate 3 rw [BitVec.extractLsb'_append_eq_of_le (by decide)]
  rw [BitVec.extractLsb'_append_eq_of_add_le (by decide), BitVec.extractLsb'_eq_self]

@[simp] theorem immField_encodeFields : immField (encodeFields opc vd va vb imm) = imm := by
  unfold immField encodeFields
  iterate 5 rw [BitVec.extractLsb'_append_eq_of_le (by decide)]
  rw [BitVec.extractLsb'_eq_self]

end

/-! ### Rows, commands and opcodes -/

/-- The opcode map looks an opcode up by its value (R105). -/
theorem ofCode_eq_some_iff {c : BitVec 8} {op : Op} : Op.ofCode c = some op ↔ c = op.code := by
  constructor
  · intro h
    have hcode : (op.code == c) = true := by simpa using List.find?_some h
    exact (eq_of_beq hcode).symm
  · rintro rfl
    cases op <;> rfl

/-- An opcode is illegal when no row of the map has it (R106). -/
theorem ofCode_eq_none_iff {c : BitVec 8} : Op.ofCode c = none ↔ ∀ op ∈ Op.all, op.code ≠ c := by
  simp [Op.ofCode, List.find?_eq_none]

@[simp] theorem op_instr (op : Op) (w : Word) : (op.instr w).op = op := by cases op <;> rfl

/-- The one check beyond the fields is MASK's immediate (R104). -/
theorem wellFormed_instr (op : Op) (w : Word) :
    (op.instr w).wellFormed = true ↔ (op = .mask → maskImmOk (immField w) = true) := by
  cases op <;> simp [Op.instr, Instr.wellFormed]

theorem unusedZero_iff (f : Format) (w : Word) : f.unusedZero w = true ↔ rsvField w = 0 ∧
    (f.usesVd = true ∨ vdField w = 0) ∧ (f.usesVa = true ∨ vaField w = 0) ∧
      (f.usesVb = true ∨ vbField w = 0) ∧ (f.usesImm = true ∨ immField w = 0) := by
  simp [Format.unusedZero, and_assoc]

/-- The word is a command of the row: the row's opcode, every other fixed field 0, a legal immediate (R104, R105). -/
def Op.Accepts (op : Op) (w : Word) : Prop :=
  opcField w = op.code ∧ op.format.unusedZero w = true ∧ (op.instr w).wellFormed = true

/-! ### The decoder -/

theorem decode_eq_ok_iff {w : Word} {i : Instr} : decode w = .ok i ↔ ∃ op : Op, op.Accepts w ∧ op.instr w = i := by
  constructor
  · intro h
    unfold decode at h
    split at h
    · cases h
    next op hop =>
      split at h
      next hok =>
        obtain ⟨hzero, hwf⟩ := (Bool.and_eq_true _ _).mp hok
        exact ⟨op, ⟨ofCode_eq_some_iff.1 hop, hzero, hwf⟩, Except.ok.inj h⟩
      · cases h
  · rintro ⟨op, ⟨hopc, hzero, hwf⟩, rfl⟩
    simp [decode, ofCode_eq_some_iff.2 hopc, hzero, hwf]

theorem decode_eq_illegalOpcode_iff {w : Word} :
    decode w = .error .illegalOpcode ↔ Op.ofCode (opcField w) = none := by
  unfold decode
  split
  next hnone => simp [hnone]
  next op hop => rw [hop]; split <;> simp

/-! ### The encoder -/

/-- The fields of a command's word are the command's operands (R101, R103). -/
theorem instr_encode (i : Instr) : i.op.instr (encode i) = i := by
  cases i <;> simp [Instr.op, Op.instr, encode]

/-- The command word of a row's command: a field is the operand where the format uses it, and 0 elsewhere (R112). -/
theorem encode_instr (op : Op) (w : Word) : encode (op.instr w) =
    encodeFields op.code (if op.format.usesVd then vdField w else 0) (if op.format.usesVa then vaField w else 0)
      (if op.format.usesVb then vbField w else 0) (if op.format.usesImm then immField w else 0) := by
  cases op <;> rfl

theorem accepts_encode {i : Instr} (hwf : i.wellFormed = true) : i.op.Accepts (encode i) := by
  have hword := encode_instr i.op (encode i)
  rw [instr_encode] at hword
  refine ⟨?_, ?_, by rwa [instr_encode]⟩
  · rw [hword, opcField_encodeFields]
  · rw [hword, unusedZero_iff]
    simp +contextual [or_iff_not_imp_left]

/-- A row's command gives back the word it was read from: each field the encoder writes as 0 was 0. -/
theorem encode_instr_of_accepts {op : Op} {w : Word} (h : op.Accepts w) : encode (op.instr w) = w := by
  obtain ⟨hopc, hzero, -⟩ := h
  obtain ⟨hrsv, hvd, hva, hvb, himm⟩ := (unusedZero_iff _ _).1 hzero
  rw [encode_instr, word_eq_iff_fields]
  simp only [opcField_encodeFields, rsvField_encodeFields, vdField_encodeFields, vaField_encodeFields,
    vbField_encodeFields, immField_encodeFields, ite_eq_left_iff]
  exact ⟨hopc.symm, hrsv.symm, fun h => (hvd.resolve_left h).symm, fun h => (hva.resolve_left h).symm,
    fun h => (hvb.resolve_left h).symm, fun h => (himm.resolve_left h).symm⟩

/-- Settles O1: the row of `i` accepts the word of `i`, and reads `i` from it. -/
theorem decodeOfEncodeIsTheCommand : Obligations.DecodeOfEncodeIsTheCommand := fun i hwf =>
  decode_eq_ok_iff.2 ⟨i.op, accepts_encode hwf, instr_encode i⟩

/-- Settles O2: a word that decodes is accepted by a row, whose conditions fix every bit no operand holds. -/
theorem encodeOfDecodeIsTheWord : Obligations.EncodeOfDecodeIsTheWord := by
  intro w i hdecode
  obtain ⟨op, haccepts, rfl⟩ := decode_eq_ok_iff.1 hdecode
  have ⟨_, _, hwf⟩ := haccepts
  exact ⟨encode_instr_of_accepts haccepts, hwf⟩

theorem decode_eq_of_encode_eq {i : Instr} {w : Word} (hword : encode i = w) (hwf : i.wellFormed = true) :
    decode w = .ok i :=
  hword ▸ decodeOfEncodeIsTheCommand i hwf

/-- Settles O5: each word is the command word of a well-formed command. -/
theorem workedEncodingsDecode : Obligations.WorkedEncodingsDecode := by
  refine ⟨?_, ?_, ?_, ?_, ?_, ?_, ?_, ?_, ?_, ?_⟩ <;> exact decode_eq_of_encode_eq (by decide) rfl

/-! ### The opcode map's columns -/

/-- The `match` column is the row's opcode with every other field 0 (R105). -/
theorem fixedBits_value (op : Op) : op.fixedBits.value = encodeFields op.code 0 0 0 0 := by cases op <;> rfl

/-- The `mask` column, field by field: OPC, RSV and every unused field are fixed, and MASK's immediate but for its
lowest bit (R105). -/
theorem fixedBits_mask_fields (op : Op) :
    opcField op.fixedBits.mask = BitVec.allOnes 8 ∧ rsvField op.fixedBits.mask = BitVec.allOnes 12 ∧
    vdField op.fixedBits.mask = (if op.format.usesVd then 0 else BitVec.allOnes 4) ∧
    vaField op.fixedBits.mask = (if op.format.usesVa then 0 else BitVec.allOnes 4) ∧
    vbField op.fixedBits.mask = (if op.format.usesVb then 0 else BitVec.allOnes 4) ∧
    immField op.fixedBits.mask =
      (if op = .mask then ~~~1 else if op.format.usesImm then 0 else BitVec.allOnes 32) := by
  cases op <;> decide

theorem and_unused_eq_zero_iff {n : Nat} (x : BitVec n) (used : Bool) :
    x &&& (if used then 0 else BitVec.allOnes n) = 0 ↔ used = true ∨ x = 0 := by
  cases used <;> simp

/-- A MASK immediate is legal when every bit above its lowest is 0 (R104). -/
theorem maskImmOk_iff (imm : Imm) : maskImmOk imm = true ↔ imm &&& ~~~1 = 0 := by
  have hsplit : (imm &&& ~~~1) ||| (imm &&& 1) = imm := by
    rw [← BitVec.and_or_distrib_left, show ~~~1 ||| 1 = BitVec.allOnes 32 by decide, BitVec.and_allOnes]
  simp only [maskImmOk, Bool.or_eq_true, beq_iff_eq]
  constructor
  · rintro (rfl | rfl) <;> decide
  · intro h
    have hbit : (BitVec.ofBool (imm.getLsbD 0)).setWidth 32 = imm := by
      rwa [h, BitVec.ofNat_eq_ofNat, BitVec.zero_or, BitVec.ofNat_eq_ofNat,
        BitVec.and_one_eq_setWidth_ofBool_getLsbD] at hsplit
    rw [← hbit]
    cases imm.getLsbD 0
    · exact .inl rfl
    · exact .inr rfl

/-- What the columns fix of the immediate is what the decoder asks of it (R104, R105). -/
theorem and_immField_mask_eq_zero_iff (op : Op) (w : Word) : immField w &&& immField op.fixedBits.mask = 0 ↔
    (op.format.usesImm = true ∨ immField w = 0) ∧ (op.instr w).wellFormed = true := by
  obtain ⟨-, -, -, -, -, himm⟩ := fixedBits_mask_fields op
  rw [himm, wellFormed_instr]
  by_cases hmask : op = .mask
  · subst hmask
    simp [maskImmOk_iff, Op.format, Format.usesImm]
  · simp only [hmask, if_false, and_unused_eq_zero_iff, false_implies, and_true]

theorem accepts_iff_fixedBits (op : Op) (w : Word) :
    op.Accepts w ↔ w &&& op.fixedBits.mask = op.fixedBits.value := by
  obtain ⟨hopc, hrsv, hvd, hva, hvb, -⟩ := fixedBits_mask_fields op
  rw [fixedBits_value, word_eq_iff_fields]
  simp only [opcField_and, rsvField_and, vdField_and, vaField_and, vbField_and, immField_and, opcField_encodeFields,
    rsvField_encodeFields, vdField_encodeFields, vaField_encodeFields, vbField_encodeFields, immField_encodeFields]
  rw [hopc, hrsv, hvd, hva, hvb, BitVec.and_allOnes, BitVec.and_allOnes]
  simp only [and_unused_eq_zero_iff, and_immField_mask_eq_zero_iff, Op.Accepts, unusedZero_iff, and_assoc]

/-- Settles O3: the decoder reads a row's command from the words the row accepts, and the columns describe these. -/
theorem decoderFollowsTheOpcodeMap : Obligations.DecoderFollowsTheOpcodeMap := by
  intro w op
  rw [← accepts_iff_fixedBits]
  constructor
  · rintro ⟨i, hdecode, rfl⟩
    obtain ⟨op, haccepts, rfl⟩ := decode_eq_ok_iff.1 hdecode
    rwa [op_instr]
  · exact fun haccepts => ⟨op.instr w, decode_eq_ok_iff.2 ⟨op, haccepts, rfl⟩, op_instr op w⟩

/-- Settles O4: the ranges hold every opcode that no row has. -/
theorem illegalOpcodesAreTheUnlistedOnes : Obligations.IllegalOpcodesAreTheUnlistedOnes := by
  intro w
  rw [decode_eq_illegalOpcode_iff]
  generalize opcField w = c
  rw [ofCode_eq_none_iff]
  simp only [Op.all, List.forall_mem_cons, List.not_mem_nil, false_implies, implies_true, and_true, Op.code, ne_eq,
    BitVec.toNat_eq, BitVec.toNat_ofNat, Nat.reducePow, Nat.reduceMod]
  omega

end Sys2Proof
end

section
/-! PROOFS. The modular_adder (40_adder.md): the carries of ADDCORE bounded, so that its top word does not wrap; the
representation law of R121; and by it the four commands and the additive inverse law. -/

namespace Sys2Proof.Machine

/-! ### Words and quotients in a range -/

/-- A word holds an integer of the signed 64-bit range exactly. -/
theorem toInt_wordOf {z : Int} (hlo : -2 ^ 63 ≤ z) (hhi : z < 2 ^ 63) : (wordOf z).toInt = z := by
  rw [wordOf, BitVec.toInt_ofInt]
  exact Int.bmod_eq_of_le (by omega) (by omega)

theorem toInt_wordOf_emod (z : Int) {m : Nat} (hm : m ≤ 58) : (wordOf (z % 2 ^ m)).toInt = z % 2 ^ m := by
  have hle : (2 : Int) ^ m ≤ 2 ^ 58 := by gcongr; norm_num
  have hlo := Int.emod_nonneg z (show (2 : Int) ^ m ≠ 0 by positivity)
  have hhi := Int.emod_lt_of_pos z (show (0 : Int) < 2 ^ m by positivity)
  exact toInt_wordOf (by omega) (by omega)

theorem sdigit_bounds (v : DigitVec) (j : Nat) : -2 ^ 63 ≤ sdigit v j ∧ sdigit v j < 2 ^ 63 :=
  ⟨BitVec.le_toInt _, BitVec.toInt_lt⟩

theorem ediv_bounds {s P lo hi : Int} (hP : 0 < P) (hlo : lo * P ≤ s) (hhi : s < hi * P) :
    lo ≤ s / P ∧ s / P < hi :=
  ⟨(Int.le_ediv_iff_mul_le hP).2 hlo, (Int.ediv_lt_iff_lt_mul hP).2 hhi⟩

/-! ### The carries of ADDCORE -/

/-- The field's digits are wide enough for ADDCORE: two 64-bit words leave a carry below a digit, and so does the
carry that is reinjected at digit 0. Some generic tuples lack this (log entry 13). -/
structure AdderFits (f : Field) : Prop where
  shape : f.shapeOk = true
  wide : 33 ≤ f.W
  reinject : f.c * 2 ^ (64 - f.H) < 2 ^ f.W

theorem adderFits_table (row : FieldId) : AdderFits (.table row) := by
  refine ⟨shapeOk_table row, ?_, ?_⟩ <;> cases row <;> decide

theorem topCarry_bounds {f : Field} (h : f.shapeOk = true) (v : DigitVec) :
    -2 ^ (63 - f.H) ≤ topCarry f v ∧ topCarry f v < 2 ^ (63 - f.H) := by
  have hsplit : (2 : Int) ^ (63 - f.H) * 2 ^ f.H = 2 ^ 63 := by
    rw [← pow_add, Nat.sub_add_cancel ((shape_H_le h).trans (by norm_num))]
  obtain ⟨hlo, hhi⟩ := sdigit_bounds v (f.K - 1)
  exact ediv_bounds (by positivity) (by rwa [neg_mul, hsplit]) (by rwa [hsplit])

/-- What the top digit keeps of an operand (R120). -/
theorem topValueBits_bounds (f : Field) (v : DigitVec) :
    0 ≤ sdigit v (f.K - 1) % 2 ^ f.H ∧ sdigit v (f.K - 1) % 2 ^ f.H < 2 ^ f.H :=
  ⟨Int.emod_nonneg _ (by positivity), Int.emod_lt_of_pos _ (by positivity)⟩

theorem abs_addCin_le {f : Field} (h : f.shapeOk = true) (a b : DigitVec) {sgn : Int} (hs : sgn = 1 ∨ sgn = -1) :
    |addCin f a b sgn| ≤ 2 ^ (64 - f.H) := by
  have hdouble : (2 : Int) ^ (64 - f.H) = 2 ^ (63 - f.H) * 2 := by
    rw [← pow_succ, ← Nat.sub_add_comm ((shape_H_le h).trans (by norm_num))]
  have ha := topCarry_bounds h a
  have hb := topCarry_bounds h b
  rw [abs_le, hdouble]
  rcases hs with rfl | rfl <;> unfold addCin <;> constructor <;> linarith

section
variable {f : Field} (h : AdderFits f) (a b : DigitVec)
include h

/-- The carry into every lower digit fits a digit, whatever the words. -/
theorem addCarry_bounds {sgn : Int} (hs : sgn = 1 ∨ sgn = -1) (j : Nat) :
    -2 ^ f.W ≤ addCarry f a b sgn j ∧ addCarry f a b sgn j < 2 ^ f.W := by
  induction j with
  | zero =>
    have hlt : |addCarry f a b sgn 0| < 2 ^ f.W := calc
      |addCarry f a b sgn 0| = f.c * |addCin f a b sgn| := by rw [addCarry, abs_mul, Nat.abs_cast]
      _ ≤ f.c * 2 ^ (64 - f.H) := by gcongr; exact abs_addCin_le h.shape a b hs
      _ < 2 ^ f.W := by exact_mod_cast h.reinject
    exact ⟨(abs_lt.1 hlt).1.le, (abs_lt.1 hlt).2⟩
  | succ j ih =>
    have hwide : (2 : Int) ^ 33 ≤ 2 ^ f.W := by gcongr; exacts [by norm_num, h.wide]
    have hsquare : (2 : Int) ^ 33 * 2 ^ f.W ≤ 2 ^ f.W * 2 ^ f.W := by gcongr
    obtain ⟨halo, hahi⟩ := sdigit_bounds a j
    obtain ⟨hblo, hbhi⟩ := sdigit_bounds b j
    refine ediv_bounds (by positivity) ?_ ?_ <;> rcases hs with rfl | rfl <;> linarith

/-- The sum in the top digit stays inside the signed 64-bit range (R121 (c)). -/
theorem addTop_bounds {sgn : Int} (hs : sgn = 1 ∨ sgn = -1) :
    -2 ^ 63 ≤ addTop f a b sgn ∧ addTop f a b sgn < 2 ^ 63 := by
  have hH : (2 : Int) ^ f.H ≤ 2 ^ 58 := by gcongr; exacts [by norm_num, shape_H_le h.shape]
  have hW : (2 : Int) ^ f.W ≤ 2 ^ 58 := by gcongr; exacts [by norm_num, shape_W_le h.shape]
  obtain ⟨halo, hahi⟩ := topValueBits_bounds f a
  obtain ⟨hblo, hbhi⟩ := topValueBits_bounds f b
  have hc := addCarry_bounds h a b hs (f.K - 1)
  rcases hs with rfl | rfl <;> unfold addTop <;> constructor <;> linarith

variable {a b}

/-- Carried operands add with a carry of -1 to 2, and subtract with a carry of -2 to 1. -/
theorem addCarry_succ_bounds_of_carried (ha : Carried f a) (hb : Carried f b) {j : Nat} (hj : j < f.K - 1) :
    (-1 ≤ addCarry f a b 1 (j + 1) ∧ addCarry f a b 1 (j + 1) < 3) ∧
      -2 ≤ addCarry f a b (-1) (j + 1) ∧ addCarry f a b (-1) (j + 1) < 2 := by
  obtain ⟨halo, hahi⟩ := ha j hj
  obtain ⟨hblo, hbhi⟩ := hb j hj
  obtain ⟨haddlo, haddhi⟩ := addCarry_bounds h a b (.inl rfl) j
  obtain ⟨hsublo, hsubhi⟩ := addCarry_bounds h a b (.inr rfl) j
  exact ⟨ediv_bounds (by positivity) (by linarith) (by linarith),
    ediv_bounds (by positivity) (by linarith) (by linarith)⟩

/-- The top digit of Carried operands stays near its `H` bits (R121 (d)). -/
theorem addTop_bounds_of_carried (ha : Carried f a) (hb : Carried f b) :
    (-1 ≤ addTop f a b 1 ∧ addTop f a b 1 ≤ 2 ^ (f.H + 1)) ∧
      -2 ^ f.H - 1 ≤ addTop f a b (-1) ∧ addTop f a b (-1) ≤ 2 ^ f.H := by
  obtain ⟨-, -, -, -, -, -, hK, -⟩ := (shapeOk_iff f).1 h.shape
  obtain ⟨j, hj⟩ : ∃ j, f.K - 1 = j + 1 := ⟨f.K - 2, by omega⟩
  have hcarry := addCarry_succ_bounds_of_carried h ha hb (show j < f.K - 1 by omega)
  obtain ⟨halo, hahi⟩ := topValueBits_bounds f a
  obtain ⟨hblo, hbhi⟩ := topValueBits_bounds f b
  rw [← hj] at hcarry
  unfold addTop
  rw [pow_succ]
  omega

end

/-! ### The digits of ADDCORE and the integer they represent -/

/-- A lower digit is the sum of the digits and the carry, masked to `W` bits (R120). -/
theorem sdigit_addCore_low {f : Field} (h : f.shapeOk = true) (a b : DigitVec) (sgn : Int) {j : Nat}
    (hj : j < f.K - 1) : sdigit (addCore f a b sgn) j =
      (sdigit a j + sgn * sdigit b j + addCarry f a b sgn j) % 2 ^ f.W := by
  rw [sdigit, addCore, digit_build _ (by omega), if_pos hj]
  exact toInt_wordOf_emod _ (shape_W_le h)

/-- The top word does not wrap (R121 (c)). -/
theorem sdigit_addCore_top {f : Field} (h : AdderFits f) (a b : DigitVec) {sgn : Int} (hs : sgn = 1 ∨ sgn = -1) :
    sdigit (addCore f a b sgn) (f.K - 1) = addTop f a b sgn := by
  have hK := shape_K_pos h.shape
  rw [sdigit, addCore, digit_build _ (by omega), if_neg (lt_irrefl _)]
  obtain ⟨hlo, hhi⟩ := addTop_bounds h a b hs
  exact toInt_wordOf hlo hhi

/-- The `k` low digits of ADDCORE represent the sum of the operands' and the reinjected carry, less the carry that
has gone on to digit `k`. -/
theorem valLow_addCore {f : Field} (h : f.shapeOk = true) (a b : DigitVec) (sgn : Int) {k : Nat} (hk : k ≤ f.K - 1) :
    valLow f.W (addCore f a b sgn) k = valLow f.W a k + sgn * valLow f.W b k + f.c * addCin f a b sgn
      - addCarry f a b sgn k * 2 ^ (f.W * k) := by
  induction k with
  | zero => simp [valLow, addCarry]
  | succ k ih =>
    have hdiv := Int.emod_add_mul_ediv (sdigit a k + sgn * sdigit b k + addCarry f a b sgn k) (2 ^ f.W)
    simp only [valLow, addCarry]
    rw [ih (by omega), sdigit_addCore_low h a b sgn hk, Nat.mul_succ, pow_add]
    linear_combination 2 ^ (f.W * k) * hdiv

theorem val_eq_low_add_top {f : Field} (hK : 0 < f.K) (v : DigitVec) :
    val f v = valLow f.W v (f.K - 1) + sdigit v (f.K - 1) * 2 ^ (f.W * (f.K - 1)) := by
  obtain ⟨k, hk⟩ : ∃ k, f.K = k + 1 := ⟨f.K - 1, by omega⟩
  simp [val, hk, valLow]

theorem p_cast {f : Field} (h : f.shapeOk = true) : (f.p : Int) = 2 ^ f.n - f.c := by
  have := shape_c_lt h
  rw [Field.p, Nat.cast_sub (by omega)]
  push_cast
  rfl

/-- ADDCORE is exact but for `cin` times `p` (R121 (a)). -/
theorem val_addCore {f : Field} (h : AdderFits f) (a b : DigitVec) {sgn : Int} (hs : sgn = 1 ∨ sgn = -1) :
    val f (addCore f a b sgn) = val f a + sgn * val f b - addCin f a b sgn * f.p := by
  have hK := shape_K_pos h.shape
  have ha := Int.emod_add_mul_ediv (sdigit a (f.K - 1)) (2 ^ f.H)
  have hb := Int.emod_add_mul_ediv (sdigit b (f.K - 1)) (2 ^ f.H)
  rw [p_cast h.shape, shape_n h.shape, pow_add]
  simp only [val_eq_low_add_top hK, valLow_addCore h.shape a b sgn le_rfl, sdigit_addCore_top h a b hs, addTop, addCin,
    topCarry]
  linear_combination 2 ^ (f.W * (f.K - 1)) * (ha + sgn * hb)

/-- ADDCORE adds or subtracts the field elements (R121 (a)). -/
theorem modp_addCore {f : Field} (h : AdderFits f) (a b : DigitVec) {sgn : Int} (hs : sgn = 1 ∨ sgn = -1) :
    (modp f (addCore f a b sgn) : Int) = (modp f a + sgn * modp f b) % f.p := by
  have hp := shape_p_pos h.shape
  rw [modp_cast hp, modp_cast hp, modp_cast hp, val_addCore h a b hs, Int.sub_mul_emod_self_right]
  exact ((Int.mod_modEq _ _).add ((Int.mod_modEq _ _).mul_left sgn)).symm

/-- Settles O32: the carries are bounded in every row, so that the top word does not wrap, and the digits then sum to
the value. -/
theorem adderCoreRepresentationLaw : Obligations.AdderCoreRepresentationLaw := by
  rintro row _ a b sgn rfl hs
  have h := adderFits_table row
  refine ⟨val_addCore h a b hs, modp_addCore h a b hs, carried_addCore h.shape a b sgn, sdigit_addCore_top h a b hs,
    fun ha hb => ?_⟩
  obtain ⟨hadd, hsub⟩ := addTop_bounds_of_carried h ha hb
  rw [sdigit_addCore_top h a b hs]
  exact ⟨by rintro rfl; exact hadd, by rintro rfl; exact hsub⟩

/-! ### The commands -/

theorem valLow_smallVec {f : Field} (s : Int) {k : Nat} (hk : k + 1 ≤ f.K) :
    valLow f.W (smallVec f s) (k + 1) = (wordOf s).toInt := by
  induction k with
  | zero => simp [valLow, sdigit, smallVec, digit_build _ hk]
  | succ k ih =>
    rw [valLow, ih (by omega), sdigit, smallVec, digit_build _ (by omega)]
    simp

/-- The small operand of ADDS represents its immediate (R124). -/
theorem val_smallVec_immSigned {f : Field} (hK : 0 < f.K) (imm : Imm) :
    val f (smallVec f (immSigned imm)) = imm.toInt := by
  obtain ⟨k, hk⟩ : ∃ k, f.K = k + 1 := ⟨f.K - 1, by omega⟩
  have hlo := BitVec.le_toInt imm
  have hhi := BitVec.toInt_lt (x := imm)
  rw [val, hk, valLow_smallVec _ hk.ge, immSigned]
  exact toInt_wordOf (by omega) (by omega)

theorem modp_canon_zero {f : Field} (h : f.shapeOk = true) : modp f (canon f 0) = 0 := by
  simp [modp, val_canon h (Nat.two_pow_pos f.n)]

/-- Settles O36: each command completes with ADDCORE of its operands, whose value is `modp_addCore`. -/
theorem adderCommandsGiveSumAndDifference : Obligations.AdderCommandsGiveSumAndDifference := by
  intro s vd va vb imm hshape
  have hfits : ∀ row, s.field = .table row → AdderFits s.field := fun row hrow => hrow ▸ adderFits_table row
  refine ⟨⟨_, _, rfl, completeReg_spec _ _ _, carried_addCore hshape _ _ _, rfl, fun row hrow => ?_⟩,
    ⟨_, _, rfl, completeReg_spec _ _ _, carried_addCore hshape _ _ _, rfl, fun row hrow => ?_⟩,
    ⟨_, _, rfl, completeReg_spec _ _ _, carried_addCore hshape _ _ _, rfl, fun row hrow => ?_⟩,
    ⟨_, _, rfl, completeReg_spec _ _ _, carried_addCore hshape _ _ _, rfl, fun row hrow => ?_⟩⟩
  · have hsum := modp_addCore (hfits row hrow) (s.sourceA va) (s.sourceB vb) (.inl rfl)
    rw [one_mul] at hsum
    exact_mod_cast hsum
  · rw [modp_addCore (hfits row hrow) _ _ (.inr rfl), neg_one_mul, sub_eq_add_neg]
  · rw [modp_addCore (hfits row hrow) _ _ (.inl rfl), one_mul, modp_cast (shape_p_pos hshape) (smallVec _ _),
      val_smallVec_immSigned (shape_K_pos hshape), Int.add_emod_emod]
  · rw [modp_addCore (hfits row hrow) _ _ (.inr rfl), modp_canon_zero hshape, neg_one_mul, Nat.cast_zero, zero_add]

/-! ### The additive inverse law -/

/-- `(a + b) - a` is the field element `b` (R126). -/
theorem modp_addCore_sub_cancel {f : Field} (h : AdderFits f) (a b : DigitVec) :
    modp f (addCore f (addCore f a b 1) a (-1)) = modp f b := by
  have hp := shape_p_pos h.shape
  have hcast : (modp f (addCore f (addCore f a b 1) a (-1)) : Int) = modp f b := by
    rw [modp_addCore h _ _ (.inr rfl), modp_addCore h _ _ (.inl rfl), Int.emod_add_emod,
      show ((modp f a : Int) + 1 * modp f b) + -1 * modp f a = modp f b by ring]
    exact Int.emod_eq_of_lt (Int.natCast_nonneg _) (by exact_mod_cast modp_lt hp b)
  exact_mod_cast hcast

theorem sourceA_completeReg (s : State) (vd : Reg) (v : DigitVec) (r : Reg) :
    (s.completeReg vd v).sourceA r = (s.completeReg vd v).reg r := sourceA_idle rfl r

theorem sourceB_completeReg (s : State) (vd : Reg) (v : DigitVec) (r : Reg) :
    (s.completeReg vd v).sourceB r = (s.completeReg vd v).reg r := sourceB_idle rfl r

/-- Settles O40: the law on digit vectors, and the commands run one after the other, each on registers the ones
before it have left alone. -/
theorem addThenSubtractGivesBack : Obligations.AddThenSubtractGivesBack := by
  refine ⟨?_, ?_⟩
  · rintro row _ a b rfl
    exact modp_addCore_sub_cancel (adderFits_table row) a b
  · intro row s va vb vd ve hrow hidle hda hdb heb
    have hlaw := modp_addCore_sub_cancel (hrow ▸ adderFits_table row : AdderFits s.field) (s.reg va) (s.reg vb)
    refine ⟨_, _, _, rfl, rfl, rfl, ?_⟩
    simp [sourceA_idle hidle, sourceB_idle hidle, sourceA_completeReg, sourceB_completeReg,
      reg_completeReg_ne _ _ hda.symm, reg_completeReg_ne _ _ hdb.symm, reg_completeReg_ne _ _ heb.symm, hlaw, boolWord]

end Sys2Proof.Machine
end

section
/-! PROOFS. The weak reduction `fold` (43_reducer.md R165, R166) and the results of the multiplier and the squarer that
are made with it (41_multiplier.md R140, 42_squarer.md R155). -/

namespace Sys2Proof.Machine

/-! ### One step of the weak reduction -/

/-- A step takes off `p` once for every `2^n` in `x`, because `2^n = p + c`. -/
theorem foldOnce_eq {f : Field} (h : f.shapeOk = true) (x : Int) : foldOnce f x = x - x / 2 ^ f.n * f.p := by
  rw [foldOnce, p_cast h]
  linear_combination Int.emod_add_mul_ediv x (2 ^ f.n)

theorem foldOnce_emod {f : Field} (h : f.shapeOk = true) (x : Int) : foldOnce f x % f.p = x % f.p := by
  rw [foldOnce_eq h, Int.sub_mul_emod_self_right]

theorem foldOnce_nonneg {f : Field} {x : Int} (hx : 0 ≤ x) : 0 ≤ foldOnce f x :=
  add_nonneg (Int.emod_nonneg _ (by positivity))
    (mul_nonneg (Int.natCast_nonneg _) (Int.ediv_nonneg hx (by positivity)))

/-- Above the range a step goes down (R166 (a)). -/
theorem foldOnce_lt {f : Field} (h : f.shapeOk = true) {x : Int} (hx : 2 ^ f.n ≤ x) : foldOnce f x < x := by
  have hp : (0 : Int) < f.p := by exact_mod_cast shape_p_pos h
  have hq : 0 < x / 2 ^ f.n := (Int.le_ediv_iff_mul_le (by positivity)).2 (by linarith)
  rw [foldOnce_eq h]
  exact sub_lt_self x (mul_pos hq hp)

/-- Below the range a step goes up by `p` or more (R166 (a)). -/
theorem add_p_le_foldOnce {f : Field} (h : f.shapeOk = true) {x : Int} (hx : x < 0) : x + f.p ≤ foldOnce f x := by
  have hq : x / 2 ^ f.n ≤ -1 := Int.le_sub_one_of_lt (Int.ediv_neg_of_neg_of_pos hx (by positivity))
  rw [foldOnce_eq h]
  linarith [mul_le_mul_of_nonneg_right hq (Int.natCast_nonneg f.p)]

/-- A step from below the range does not pass above it: the folded part is not positive. -/
theorem foldOnce_lt_two_pow {f : Field} {x : Int} (hx : x < 0) : foldOnce f x < 2 ^ f.n := by
  have hlow := Int.emod_lt_of_pos x (show (0 : Int) < 2 ^ f.n by positivity)
  have hhigh : f.c * (x / 2 ^ f.n) ≤ 0 :=
    mul_nonpos_of_nonneg_of_nonpos (Int.natCast_nonneg _) (Int.ediv_neg_of_neg_of_pos hx (by positivity)).le
  rw [foldOnce]
  linarith

/-! ### The loop -/

theorem foldLoop_emod {f : Field} (h : f.shapeOk = true) (fuel : Nat) (x : Int) :
    foldLoop f fuel x % f.p = x % f.p := by
  induction fuel generalizing x with
  | zero => rfl
  | succ fuel ih =>
    rw [foldLoop]
    split
    · rw [ih, foldOnce_emod h]
    · rfl

/-- The loop ends in `[0, 2^n)` from an `x` no further from it than the steps allowed, since every step outside the
range comes nearer by at least 1. -/
theorem foldLoop_mem_range {f : Field} (h : f.shapeOk = true) {fuel : Nat} {x : Int} (hlo : -fuel ≤ x)
    (hhi : x < 2 ^ f.n + fuel) : 0 ≤ foldLoop f fuel x ∧ foldLoop f fuel x < 2 ^ f.n := by
  have hp : (0 : Int) < f.p := by exact_mod_cast shape_p_pos h
  induction fuel generalizing x with
  | zero => simpa [foldLoop] using And.intro hlo hhi
  | succ fuel ih =>
    rw [foldLoop]
    push_cast at hlo hhi
    split_ifs with hout
    · obtain hneg | hlarge := hout
      · have hup := add_p_le_foldOnce h hneg
        have hbelow := foldOnce_lt_two_pow (f := f) hneg
        exact ih (by linarith) (by linarith)
      · have hdown := foldOnce_lt h hlarge
        have hnonneg := foldOnce_nonneg (f := f) (hlarge.trans' (by positivity))
        exact ih (by linarith) (by linarith)
    · omega

/-! ### `fold` and `MULOUT` -/

theorem foldLoop_natAbs_mem_range {f : Field} (h : f.shapeOk = true) (x : Int) :
    0 ≤ foldLoop f x.natAbs x ∧ foldLoop f x.natAbs x < 2 ^ f.n :=
  have hpos : (0 : Int) < 2 ^ f.n := by positivity
  foldLoop_mem_range h (by omega) (by omega)

theorem fold_cast {f : Field} (h : f.shapeOk = true) (x : Int) : (fold f x : Int) = foldLoop f x.natAbs x :=
  Int.toNat_of_nonneg (foldLoop_natAbs_mem_range h x).1

/-- `fold(x)` has at most `n` bits (R166 (b)). -/
theorem fold_lt {f : Field} (h : f.shapeOk = true) (x : Int) : fold f x < 2 ^ f.n := by
  have hlt := (foldLoop_natAbs_mem_range h x).2
  rw [← fold_cast h] at hlt
  exact_mod_cast hlt

/-- `fold(x)` is congruent to `x` (R166 (c)). -/
theorem fold_emod {f : Field} (h : f.shapeOk = true) (x : Int) : (fold f x : Int) % f.p = x % f.p := by
  rw [fold_cast h, foldLoop_emod h]

/-- The value law of every multiplier result (R140). -/
theorem modp_mulOut {f : Field} (h : f.shapeOk = true) (x : Int) : (modp f (mulOut f x) : Int) = x % f.p := by
  rw [modp_cast (shape_p_pos h), mulOut, val_canon h (fold_lt h x), fold_emod h]

/-- A product of a represented integer and any integer is a product of field elements. -/
theorem modp_mulOut_val_mul {f : Field} (h : f.shapeOk = true) (a : DigitVec) (z : Int) :
    (modp f (mulOut f (val f a * z)) : Int) = modp f a * z % f.p := by
  rw [modp_mulOut h, modp_cast (shape_p_pos h)]
  exact ((Int.mod_modEq _ _).mul_right z).symm

theorem modp_mulOut_val_mul_val {f : Field} (h : f.shapeOk = true) (a b : DigitVec) :
    modp f (mulOut f (val f a * val f b)) = modp f a * modp f b % f.p := by
  have hmul : (modp f (mulOut f (val f a * val f b)) : Int) = modp f a * modp f b % f.p := by
    rw [modp_mulOut_val_mul h, modp_cast (shape_p_pos h) b]
    exact ((Int.mod_modEq _ _).mul_left _).symm
  exact_mod_cast hmul

/-! ### The commands -/

/-- Settles O37: each command completes with MULOUT of its exact product, whose value is `modp_mulOut`. -/
theorem multiplierCommandsGiveTheProduct : Obligations.MultiplierCommandsGiveTheProduct := by
  intro s vd va vb imm h
  refine ⟨⟨_, _, rfl, completeReg_spec _ _ _, carried_mulOut h _, rfl, modp_mulOut_val_mul_val h _ _⟩,
    ⟨_, _, rfl, completeReg_spec _ _ _, carried_mulOut h _, rfl, modp_mulOut_val_mul h _ _⟩,
    ⟨_, _, rfl, completeReg_spec _ _ _, carried_mulOut h _, ?_, ?_⟩⟩
  · rw [sq]
    rfl
  · rw [sq]
    exact modp_mulOut_val_mul_val h _ _

end Sys2Proof.Machine
end

section
/-! PROOFS. The squarer against the multiplier (42_squarer.md R157): both write MULOUT of a product of values of
registers, and the product of integers is commutative (41_multiplier.md R146). -/

namespace Sys2Proof.Machine

/-- MUL where no command is in flight: its sources are the registers as they are now. -/
theorem exec_mul_idle {s : State} (hidle : s.inflight = none) (vd va vb : Reg) :
    exec (.mul vd va vb) s =
      .next (s.completeReg vd (mulOut s.field (val s.field (s.reg va) * val s.field (s.reg vb)))) := by
  rw [← sourceA_idle hidle va, ← sourceB_idle hidle vb]
  rfl

/-- SQR where no command is in flight, as `exec_mul_idle`. -/
theorem exec_sqr_idle {s : State} (hidle : s.inflight = none) (vd va : Reg) :
    exec (.sqr vd va) s =
      .next (s.completeReg vd (mulOut s.field (val s.field (s.reg va) * val s.field (s.reg va)))) := by
  rw [← sourceA_idle hidle va]
  rfl

/-- Settles O38: with both sources read from the registers, the two commands of each equation complete with MULOUT of
the same integer. -/
theorem squareIsTheProductWithItself : Obligations.SquareIsTheProductWithItself := by
  intro s vd va vb hidle
  constructor
  · rw [exec_sqr_idle hidle, exec_mul_idle hidle]
  · rw [exec_mul_idle hidle, exec_mul_idle hidle, mul_comm]

end Sys2Proof.Machine
end

section
/-! PROOFS. `fold` as the loop of 43_reducer.md R165, with the properties of R166: the model's bound on the number of
steps does not show, because a loop that has ended stays where it is. -/

namespace Sys2Proof.Machine

/-! ### The loop against its bound on the steps -/

/-- In the range `[0, 2^n)` the loop has ended, whatever steps are left (R166 (d)). -/
theorem foldLoop_of_mem_range {f : Field} {x : Int} (h0 : 0 ≤ x) (hlt : x < 2 ^ f.n) (fuel : Nat) :
    foldLoop f fuel x = x := by
  cases fuel with
  | zero => rfl
  | succ fuel => rw [foldLoop, if_neg (not_or.2 ⟨not_lt.2 h0, not_le.2 hlt⟩)]

/-- A loop that has ended gives the same integer with more steps allowed. -/
theorem foldLoop_eq_of_le {f : Field} {k m : Nat} {x : Int} (hle : k ≤ m)
    (hend : 0 ≤ foldLoop f k x ∧ foldLoop f k x < 2 ^ f.n) : foldLoop f m x = foldLoop f k x := by
  induction k generalizing m x with
  | zero => exact foldLoop_of_mem_range hend.1 hend.2 m
  | succ k ih =>
    obtain ⟨m, rfl⟩ : ∃ m', m = m' + 1 := ⟨m - 1, by omega⟩
    simp only [foldLoop] at hend ⊢
    split_ifs at hend ⊢
    · exact ih (by omega) hend
    · rfl

/-- Wherever the loop ends, it has computed `fold(x)`. -/
theorem foldLoop_eq_fold {f : Field} (h : f.shapeOk = true) {k : Nat} {x : Int}
    (hend : 0 ≤ foldLoop f k x ∧ foldLoop f k x < 2 ^ f.n) : foldLoop f k x = fold f x := by
  rw [fold_cast h]
  obtain hle | hle := le_total k x.natAbs
  · exact (foldLoop_eq_of_le hle hend).symm
  · exact foldLoop_eq_of_le hle (foldLoop_natAbs_mem_range h x)

/-! ### `fold` as the loop -/

/-- `fold(x) = x` in the range (R166 (d)). -/
theorem fold_of_mem_range {f : Field} {x : Int} (h0 : 0 ≤ x) (hlt : x < 2 ^ f.n) : (fold f x : Int) = x := by
  rw [fold, foldLoop_of_mem_range h0 hlt, Int.toNat_of_nonneg h0]

/-- Outside the range `fold` takes one step and goes on (R165). -/
theorem fold_foldOnce {f : Field} (h : f.shapeOk = true) {x : Int} (hout : x < 0 ∨ 2 ^ f.n ≤ x) :
    (fold f (foldOnce f x) : Int) = fold f x := by
  have hstep : foldLoop f (x.natAbs + 1) x = foldLoop f x.natAbs (foldOnce f x) := by rw [foldLoop, if_pos hout]
  have hend : 0 ≤ foldLoop f (x.natAbs + 1) x ∧ foldLoop f (x.natAbs + 1) x < 2 ^ f.n := by
    rw [foldLoop_eq_of_le (Nat.le_succ _) (foldLoop_natAbs_mem_range h x)]
    exact foldLoop_natAbs_mem_range h x
  calc (fold f (foldOnce f x) : Int)
      = foldLoop f x.natAbs (foldOnce f x) := (foldLoop_eq_fold h (hstep ▸ hend)).symm
    _ = foldLoop f (x.natAbs + 1) x := hstep.symm
    _ = fold f x := foldLoop_eq_fold h hend

/-- The loop equation of R165. -/
theorem fold_eq_ite {f : Field} (h : f.shapeOk = true) (x : Int) :
    (fold f x : Int) = if x < 0 ∨ 2 ^ f.n ≤ x then (fold f (foldOnce f x) : Int) else x := by
  split_ifs with hout
  · exact (fold_foldOnce h hout).symm
  · obtain ⟨h0, hlt⟩ := not_or.1 hout
    exact fold_of_mem_range (not_lt.1 h0) (not_le.1 hlt)

theorem p_add_c {f : Field} (h : f.shapeOk = true) : f.p + f.c = 2 ^ f.n :=
  Nat.sub_add_cancel (by have := (shape_c_lt h).1; omega)

/-- Settles O33: the loop equation, a step's progress on each side of the range, and the bound, residue and digits of
the result. -/
theorem foldEndsInRangeAndKeepsTheResidue : Obligations.FoldEndsInRangeAndKeepsTheResidue := by
  intro f x h
  have hlt := fold_lt h x
  refine ⟨fold_eq_ite h x, foldOnce_lt h, fun hx => p_cast h ▸ add_p_le_foldOnce h hx, hlt, fold_emod h x,
    fold_of_mem_range, carried_canon h _, toNat_digit_canon_top h hlt ▸ canon_top_lt h hlt, fun _ => ?_⟩
  have := p_add_c h
  omega

end Sys2Proof.Machine
end

section
/-! PROOFS. Normalization (43_reducer.md R167, R169): `canon` on `[0, p)` and `modp` undo each other, which gives NORM's
laws and the command. -/

namespace Sys2Proof.Machine

/-! ### Normalized vectors -/

/-- A field element is the one that its canonical vector represents. -/
theorem modp_canon {f : Field} (h : f.shapeOk = true) {r : Nat} (hr : r < f.p) : modp f (canon f r) = r := by
  have hn : r < 2 ^ f.n := hr.trans_le (Nat.sub_le _ _)
  rw [modp, val_canon h hn, ← Int.natCast_emod, Int.toNat_natCast, Nat.mod_eq_of_lt hr]

theorem normalized_canon_modp {f : Field} (h : f.shapeOk = true) (v : DigitVec) : Normalized f (canon f (modp f v)) :=
  ⟨modp f v, modp_lt (shape_p_pos h) v, rfl⟩

theorem modp_canon_modp {f : Field} (h : f.shapeOk = true) (v : DigitVec) : modp f (canon f (modp f v)) = modp f v :=
  modp_canon h (modp_lt (shape_p_pos h) v)

/-- The represented integer of a normalized vector is the representative in `[0, p)`. -/
theorem val_canon_modp {f : Field} (h : f.shapeOk = true) (v : DigitVec) :
    val f (canon f (modp f v)) = val f v % f.p := by
  have hp := shape_p_pos h
  rw [val_canon h ((modp_lt hp v).trans_le (Nat.sub_le _ _)), modp_cast hp]

/-- The normalized vectors are the fixed points of normalization (R169). -/
theorem normalized_iff {f : Field} (h : f.shapeOk = true) (v : DigitVec) :
    Normalized f v ↔ canon f (modp f v) = v := by
  constructor
  · rintro ⟨r, hr, rfl⟩
    rw [modp_canon h hr]
  · intro hfix
    exact hfix ▸ normalized_canon_modp h v

/-- Settles O34: normalization keeps the field element (`modp_canon_modp`), so a second one changes nothing and equal
results have equal elements. -/
theorem normIsCanonical : Obligations.NormIsCanonical := by
  intro f a b h
  refine ⟨by rw [modp_canon_modp h], ⟨fun heq => ?_, congrArg (canon f)⟩, fun _ => normalized_iff h a⟩
  rw [← modp_canon_modp h a, heq, modp_canon_modp h]

/-! ### The command -/

/-- Settles O39: NORM completes with the normalized vector of its source. -/
theorem normGivesTheCanonicalForm : Obligations.NormGivesTheCanonicalForm := by
  intro s vd va h
  exact ⟨_, _, rfl, completeReg_spec _ _ _, normalized_canon_modp h _, val_canon_modp h _, modp_canon_modp h _⟩

end Sys2Proof.Machine
end

section
/-! PROOFS. The fixed chain (44_inverse_engine.md R180): its steps on digit vectors square and multiply field elements,
and after the step for bit `k` the accumulator holds the power to `e / 2^k`, the bits of `e` read so far. -/

namespace Sys2Proof.Machine

/-! ### The steps -/

theorem modp_sqrStep {f : Field} (h : f.shapeOk = true) (acc : DigitVec) :
    modp f (sqrStep f acc) = modp f acc * modp f acc % f.p := modp_mulOut_val_mul_val h acc acc

theorem modp_mulStep {f : Field} (h : f.shapeOk = true) (acc a : DigitVec) :
    modp f (mulStep f acc a) = modp f acc * modp f a % f.p := modp_mulOut_val_mul_val h acc a

/-- A squaring appends a 0 to the exponent. -/
theorem modp_sqrStep_pow {f : Field} (h : f.shapeOk = true) {acc : DigitVec} {a m : Nat}
    (hacc : modp f acc = a ^ m % f.p) : modp f (sqrStep f acc) = a ^ (2 * m) % f.p := by
  rw [modp_sqrStep h, hacc, ← Nat.mul_mod, ← pow_add, two_mul]

/-- A squaring and a multiply append a 1 to the exponent. -/
theorem modp_mulStep_sqrStep_pow {f : Field} (h : f.shapeOk = true) {acc a : DigitVec} {m : Nat}
    (hacc : modp f acc = modp f a ^ m % f.p) :
    modp f (mulStep f (sqrStep f acc) a) = modp f a ^ (2 * m + 1) % f.p := by
  rw [modp_mulStep h, modp_sqrStep_pow h hacc, Nat.mod_mul_mod, ← pow_succ]

/-! ### The chain -/

/-- Reading one more bit of `e` doubles the part read so far and adds the bit. -/
theorem div_two_pow_eq_double_add_bit (e k : Nat) :
    e / 2 ^ k = 2 * (e / 2 ^ (k + 1)) + if e.testBit k then 1 else 0 := by
  rw [pow_succ, ← Nat.div_div_eq_div_mul, Nat.testBit_eq_decide_div_mod_eq]
  simp only [decide_eq_true_eq]
  split <;> omega

/-- From an accumulator that holds the power to the bits of `e` above the `k` low ones, the steps for those `k` bits
compute the power. -/
theorem modp_chainSteps {f : Field} (h : f.shapeOk = true) {a acc : DigitVec} {e k : Nat}
    (hacc : modp f acc = modp f a ^ (e / 2 ^ k) % f.p) :
    modp f (chainSteps f a e k acc) = modp f a ^ e % f.p := by
  induction k generalizing acc with
  | zero => simpa [chainSteps] using hacc
  | succ k ih =>
    rw [chainSteps]
    refine ih ?_
    rw [div_two_pow_eq_double_add_bit e k]
    split
    · exact modp_mulStep_sqrStep_pow h hacc
    · exact modp_sqrStep_pow h hacc

/-- The top bit of a positive exponent, with which the chain starts, is 1. -/
theorem div_two_pow_log2 {e : Nat} (he : 0 < e) : e / 2 ^ e.log2 = 1 :=
  Nat.div_eq_of_lt_le (by simpa using Nat.log2_self_le he.ne') (by simpa [pow_succ'] using Nat.lt_log2_self (n := e))

/-- Settles O35: the chain starts from the operand itself, the power to the top bit of `e`, and `modp_chainSteps` does
the rest; `powMod` is the same power by `powMod_eq`. -/
theorem fixedChainComputesThePower : Obligations.FixedChainComputesThePower := by
  intro f a e h he
  have hstart : modp f (canon f (modp f a)) =
      modp f (canon f (modp f a)) ^ (e / 2 ^ e.log2) % f.p := by
    rw [div_two_pow_log2 he, pow_one, Nat.mod_eq_of_lt (modp_lt (shape_p_pos h) _)]
  refine ⟨?_, powMod_eq _ _ _⟩
  rw [chainPow, modp_chainSteps h hstart, modp_canon_modp h]

end Sys2Proof.Machine
end

section
/-! PROOFS. The modular_inverse_engine (44_inverse_engine.md R183 to R185): the chain value `a^(p-2)` is the inverse of
a nonzero element by Fermat's little theorem, and INV and DIV complete with it. -/

namespace Sys2Proof.Machine

/-! ### The chain value of INV -/

/-- The exponent `p - 2` is positive: `p` is more than 2 in every shape, since `n > W` and `c < 2^W`. -/
theorem two_lt_p {f : Field} (h : f.shapeOk = true) : 2 < f.p := by
  obtain ⟨hn, hH, hHW, -, -, hc, hK, -⟩ := (shapeOk_iff f).1 h
  have hW : f.W * 1 ≤ f.W * (f.K - 1) := Nat.mul_le_mul_left _ (by omega)
  have hpow : 2 ^ (f.W + 1) ≤ 2 ^ f.n := Nat.pow_le_pow_right (by norm_num) (by omega)
  have hdouble : 2 ^ (f.W + 1) = 2 * 2 ^ f.W := pow_succ' 2 f.W
  have htwo : 2 ^ 1 ≤ 2 ^ f.W := Nat.pow_le_pow_right (by norm_num) (by omega)
  rw [Field.p]
  omega

theorem invV_eq (f : Field) (a : Nat) : invV f a = a ^ (f.p - 2) % f.p := powMod_eq _ _ _

theorem invV_lt {f : Field} (h : f.shapeOk = true) (a : Nat) : invV f a < f.p :=
  invV_eq f a ▸ Nat.mod_lt _ (shape_p_pos h)

theorem invV_zero {f : Field} (h : f.shapeOk = true) : invV f 0 = 0 := by
  have hp := two_lt_p h
  rw [invV_eq, zero_pow (by omega), Nat.zero_mod]

/-- The inverse law of R183, by Fermat's little theorem. -/
theorem invV_mul_modEq_one {f : Field} (h : f.Admissible) {a : Nat} (ha0 : a ≠ 0) (ha : a < f.p) :
    invV f a * a ≡ 1 [MOD f.p] := by
  have hp := two_lt_p h.1
  have hcoprime : a.Coprime f.p := (Nat.coprime_of_lt_prime ha0 ha h.2).symm
  calc invV f a * a ≡ a ^ (f.p - 2) * a [MOD f.p] := by
        rw [invV_eq]
        exact (Nat.mod_modEq _ _).mul_right a
    _ = a ^ (f.p - 1) := by rw [← pow_succ, show f.p - 2 + 1 = f.p - 1 by omega]
    _ ≡ 1 [MOD f.p] := Nat.ModEq.pow_card_sub_one_eq_one h.2 hcoprime

theorem invV_mul_mod {f : Field} (h : f.Admissible) {a : Nat} (ha0 : a ≠ 0) (ha : a < f.p) :
    invV f a * a % f.p = 1 := by
  rw [invV_mul_modEq_one h ha0 ha, Nat.mod_eq_of_lt (by have := two_lt_p h.1; omega)]

/-- An element times its inverse (R185): 1, and 0 for the element 0. -/
theorem mul_invV_mod {f : Field} (h : f.Admissible) {a : Nat} (ha : a < f.p) :
    a * invV f a % f.p = if a = 0 then 0 else 1 := by
  split_ifs with ha0
  · rw [ha0, zero_mul, Nat.zero_mod]
  · rw [mul_comm, invV_mul_mod h ha0 ha]

theorem invV_ne_zero {f : Field} (h : f.Admissible) {a : Nat} (ha0 : a ≠ 0) (ha : a < f.p) : invV f a ≠ 0 := by
  intro hzero
  have hone := invV_mul_mod h ha0 ha
  simp [hzero] at hone

/-- The inverse of the inverse (R185): `a` and the inverse of its inverse both multiply the inverse of `a` to 1. -/
theorem invV_invV {f : Field} (h : f.Admissible) {a : Nat} (ha : a < f.p) : invV f (invV f a) = a := by
  obtain rfl | ha0 := eq_or_ne a 0
  · rw [invV_zero h.1, invV_zero h.1]
  · have hinner := invV_mul_modEq_one h ha0 ha
    have houter := invV_mul_modEq_one h (invV_ne_zero h ha0 ha) (invV_lt h.1 a)
    have hmod : invV f (invV f a) ≡ a [MOD f.p] :=
      calc invV f (invV f a) = invV f (invV f a) * 1 := (mul_one _).symm
        _ ≡ invV f (invV f a) * (invV f a * a) [MOD f.p] := hinner.symm.mul_left _
        _ = invV f (invV f a) * invV f a * a := (mul_assoc _ _ _).symm
        _ ≡ 1 * a [MOD f.p] := houter.mul_right a
        _ = a := one_mul a
    exact hmod.eq_of_lt_of_lt (invV_lt h.1 _) ha

/-! ### The commands -/

/-- INV where no command is in flight: its source is the register as it is now. -/
theorem exec_inv_idle {s : State} (hidle : s.inflight = none) (vd va : Reg) :
    exec (.inv vd va) s = .next (s.completeReg vd (canon s.field (invV s.field (modp s.field (s.reg va))))) := by
  rw [← sourceA_idle hidle va]
  rfl

/-- DIV where no command is in flight, as `exec_inv_idle`. -/
theorem exec_div_idle {s : State} (hidle : s.inflight = none) (vd va vb : Reg) :
    exec (.div vd va vb) s = .next (s.completeReg vd (canon s.field
      (modp s.field (s.reg va) * invV s.field (modp s.field (s.reg vb)) % s.field.p))) := by
  rw [← sourceA_idle hidle va, ← sourceB_idle hidle vb]
  rfl

/-- NORM where no command is in flight, as `exec_inv_idle`. -/
theorem exec_norm_idle {s : State} (hidle : s.inflight = none) (vd va : Reg) :
    exec (.norm vd va) s = .next (s.completeReg vd (canon s.field (modp s.field (s.reg va)))) := by
  rw [← sourceA_idle hidle va]
  rfl

/-- Settles O41: INV completes with the chain value, whose laws are `invV_mul_mod` and `invV_zero`. -/
theorem invGivesTheInverse : Obligations.InvGivesTheInverse := by
  intro s vd va h
  have hlt := invV_lt h.1 (modp s.field (s.sourceA va))
  refine ⟨_, _, rfl, completeReg_spec _ _ _, ⟨_, hlt, rfl⟩, by rw [invV_eq], fun ha0 => ?_, fun ha => ?_⟩
  · rw [modp_canon h.1 hlt, invV_mul_mod h ha0 (modp_lt (shape_p_pos h.1) _)]
  · rw [ha, invV_zero h.1]

/-- Settles O42: DIV completes with the product of `A` and the chain value for `B`, which `B` multiplies back to `A`. -/
theorem divGivesTheQuotient : Obligations.DivGivesTheQuotient := by
  intro s vd va vb h
  have hp := shape_p_pos h.1
  have hlt : modp s.field (s.sourceA va) * invV s.field (modp s.field (s.sourceB vb)) % s.field.p < s.field.p :=
    Nat.mod_lt _ hp
  refine ⟨_, _, rfl, completeReg_spec _ _ _, ⟨_, hlt, rfl⟩, by rw [invV_eq], fun hb0 => ?_, fun hb => ?_⟩
  · have hinv := invV_mul_modEq_one h hb0 (modp_lt hp (s.sourceB vb))
    rw [modp_canon h.1 hlt, Nat.mod_mul_mod, mul_assoc, hinv.mul_left _, mul_one, Nat.mod_eq_of_lt (modp_lt hp _)]
  · rw [hb, invV_zero h.1, mul_zero, Nat.zero_mod]

/-- Settles O49: the commands run one after the other, on registers that hold `A` and its inverse; `invV_invV` and
`mul_invV_mod` give the results. -/
theorem inverseLaws : Obligations.InverseLaws := by
  intro s va vi vd h hidle
  have ha := modp_lt (shape_p_pos h.1) (s.reg va)
  have hmodp := modp_canon h.1 (invV_lt h.1 (modp s.field (s.reg va)))
  refine ⟨_, _, _, exec_inv_idle hidle _ _, exec_inv_idle rfl _ _, exec_div_idle hidle _ _ _, ?_, ?_, fun hne => ?_⟩
  · simp [hmodp, invV_invV h ha]
  · simp [mul_invV_mod h ha]
  · refine ⟨_, _, exec_mul_idle rfl _ _ _, exec_norm_idle rfl _ _, ?_⟩
    simp [reg_completeReg_ne _ _ hne.symm, modp_mulOut_val_mul_val h.1, hmodp, mul_invV_mod h ha]

end Sys2Proof.Machine
end

section
/-! PROOFS. The symbol chains of the modular_sqrt_engine (45_sqrt_engine.md R202, R210, R215) in the field `ZMod p`: the
chain of LEG is Euler's criterion, and the chain of LEGQ is the chain of LEG for a square root. -/

namespace Sys2Proof.Machine

/-! ### Residues mod `p` as elements of `ZMod p` -/

/-- A power residue of the model (`IsSquareMod`, `IsFourthPowerMod`) is a power in `ZMod p`. -/
theorem exists_pow_mod_eq_iff {p : Nat} [NeZero p] (k a : Nat) :
    (∃ b, b ^ k % p = a % p) ↔ ∃ x : ZMod p, x ^ k = a := by
  constructor
  · rintro ⟨b, hb⟩
    exact ⟨b, by exact_mod_cast (ZMod.natCast_eq_natCast_iff' _ _ p).2 hb⟩
  · rintro ⟨x, hx⟩
    refine ⟨x.val, (ZMod.natCast_eq_natCast_iff' _ _ p).1 ?_⟩
    rw [Nat.cast_pow, ZMod.natCast_rightInverse x, hx]

theorem isSquareMod_iff_isSquare {p : Nat} [NeZero p] (a : Nat) : IsSquareMod p a ↔ IsSquare (a : ZMod p) := by
  rw [isSquare_iff_exists_sq, IsSquareMod, exists_pow_mod_eq_iff]
  exact exists_congr fun x => eq_comm

theorem cast_ne_zero_of_lt {p a : Nat} (ha0 : a ≠ 0) (ha : a < p) : (a : ZMod p) ≠ 0 := fun h =>
  ha0 (Nat.eq_zero_of_dvd_of_lt ((ZMod.natCast_eq_zero_iff a p).1 h) ha)

/-- A chain's value (44_inverse_engine.md R180) in `ZMod p`. -/
theorem powMod_cast (p a e : Nat) : (powMod p a e : ZMod p) = (a : ZMod p) ^ e := by
  rw [powMod_eq, ZMod.natCast_mod, Nat.cast_pow]

theorem powMod_eq_iff {p a e r : Nat} (hr : r < p) : powMod p a e = r ↔ (a : ZMod p) ^ e = r := by
  rw [powMod_eq, ← Nat.cast_pow, ZMod.natCast_eq_natCast_iff', Nat.mod_eq_of_lt hr]

theorem powMod_eq_one_iff {p a e : Nat} (hp : 1 < p) : powMod p a e = 1 ↔ (a : ZMod p) ^ e = 1 := by
  rw [powMod_eq_iff hp, Nat.cast_one]

theorem powMod_eq_pred_iff {p a e : Nat} (hp : 1 < p) : powMod p a e = p - 1 ↔ (a : ZMod p) ^ e = -1 := by
  rw [powMod_eq_iff (by omega), Nat.cast_sub hp.le, ZMod.natCast_self, Nat.cast_one, zero_sub]

theorem powMod_lt {p : Nat} (hp : 0 < p) (a e : Nat) : powMod p a e < p := powMod_eq p a e ▸ Nat.mod_lt _ hp

theorem powMod_zero {p e : Nat} (he : e ≠ 0) : powMod p 0 e = 0 := by
  rw [powMod_eq, zero_pow he, Nat.zero_mod]

/-! ### The modulus -/

theorem one_lt_p {f : Field} (h : f.shapeOk = true) : 1 < f.p := (two_lt_p h).trans' one_lt_two

theorem p_pred_ne_one {f : Field} (h : f.shapeOk = true) : f.p - 1 ≠ 1 := by
  have := two_lt_p h
  omega

/-- `(p-1)/2`, the exponent of R210, is the exponent of Euler's criterion. -/
theorem half_p_pred {f : Field} (h : f.Admissible) : (f.p - 1) / 2 = f.p / 2 := by
  have hp := two_lt_p h.1
  have hodd := h.2.eq_two_or_odd
  omega

/-! ### The chain of LEG -/

theorem eulerV_eq_one_or_pred {f : Field} (h : f.Admissible) {a : Nat} (ha : (a : ZMod f.p) ≠ 0) :
    eulerV f a = 1 ∨ eulerV f a = f.p - 1 := by
  have := Fact.mk h.2
  rw [eulerV, powMod_eq_one_iff (one_lt_p h.1), powMod_eq_pred_iff (one_lt_p h.1), half_p_pred h]
  exact ZMod.pow_div_two_eq_neg_one_or_one f.p ha

/-- Euler's criterion. -/
theorem eulerV_eq_one_iff {f : Field} (h : f.Admissible) {a : Nat} (ha : (a : ZMod f.p) ≠ 0) :
    eulerV f a = 1 ↔ IsSquareMod f.p a := by
  have := Fact.mk h.2
  rw [eulerV, powMod_eq_one_iff (one_lt_p h.1), half_p_pred h, isSquareMod_iff_isSquare, ZMod.euler_criterion f.p ha]

theorem cast_ne_zero_of_not_isSquareMod {f : Field} (h : f.Admissible) {a : Nat} (hsq : ¬IsSquareMod f.p a) :
    (a : ZMod f.p) ≠ 0 := by
  have := Fact.mk h.2
  rw [isSquareMod_iff_isSquare] at hsq
  exact fun hzero => hsq (hzero ▸ IsSquare.zero)

theorem eulerV_of_not_isSquareMod {f : Field} (h : f.Admissible) {a : Nat} (hsq : ¬IsSquareMod f.p a) :
    eulerV f a = f.p - 1 := by
  have ha := cast_ne_zero_of_not_isSquareMod h hsq
  exact (eulerV_eq_one_or_pred h ha).resolve_left fun hone => hsq ((eulerV_eq_one_iff h ha).1 hone)

/-- LEGV of a nonzero square (R210). -/
theorem legV_of_isSquareMod {f : Field} (h : f.Admissible) {a : Nat} (ha : (a : ZMod f.p) ≠ 0)
    (hsq : IsSquareMod f.p a) : legV f a = 1 := if_pos ((eulerV_eq_one_iff h ha).2 hsq)

/-- LEGV of a non-residue (R210). -/
theorem legV_of_not_isSquareMod {f : Field} (h : f.Admissible) {a : Nat} (hsq : ¬IsSquareMod f.p a) :
    legV f a = -1 := by
  rw [legV, eulerV_of_not_isSquareMod h hsq, if_neg (p_pred_ne_one h.1), if_pos rfl]

/-- LEGV of 0 is the OPEN value (R214): the chain gives 0. -/
theorem legV_zero {f : Field} (h : f.shapeOk = true) : legV f 0 = signInt (Config.legZero f) := by
  have hp := two_lt_p h
  have hchain : eulerV f 0 = 0 := powMod_zero (by omega)
  rw [legV, hchain, if_neg zero_ne_one, if_neg (by omega)]

/-! ### The chain of LEGQ -/

/-- In class 1 the quartic chain of `b^2` is the quadratic chain of `b`. -/
theorem quarticV_eq_eulerV {f : Field} (hclass : f.p % 8 = 5) {a b : Nat} (hb : (b : ZMod f.p) ^ 2 = a) :
    quarticV f a = eulerV f b := by
  rw [quarticV, eulerV, powMod_eq_iff (powMod_lt (by omega) _ _), powMod_cast, ← hb, ← pow_mul,
    show 2 * ((f.p - 1) / 4) = (f.p - 1) / 2 by omega]

/-- LEGQ of a nonzero square is LEG of its root (R218). -/
theorem legqV_eq_legV {f : Field} (h : f.Admissible) (hclass : f.p % 8 = 5) {a b : Nat}
    (hb0 : (b : ZMod f.p) ≠ 0) (hb : (b : ZMod f.p) ^ 2 = a) : legqV f a = legV f b := by
  rw [legqV, legV, quarticV_eq_eulerV hclass hb]
  obtain hone | hpred := eulerV_eq_one_or_pred h hb0
  · rw [if_pos hone, if_pos hone]
  · simp only [hpred, if_neg (p_pred_ne_one h.1), if_true]

/-- A square has a natural number as its root in `ZMod p`, which is nonzero where the square is. -/
theorem exists_cast_sq_eq {p a : Nat} (hsq : IsSquareMod p a) :
    ∃ b : Nat, (b : ZMod p) ^ 2 = a ∧ ((a : ZMod p) ≠ 0 → (b : ZMod p) ≠ 0) := by
  obtain ⟨b, hb⟩ := hsq
  have hcast : (b : ZMod p) ^ 2 = a := by exact_mod_cast (ZMod.natCast_eq_natCast_iff' _ _ p).2 hb
  exact ⟨b, hcast, fun ha hb0 => ha (by rw [← hcast, hb0, zero_pow two_ne_zero])⟩

/-- In class 1 the quartic chain gives 1 or `p - 1` for a nonzero square. -/
theorem quarticV_of_isSquareMod {f : Field} (h : f.Admissible) (hclass : f.p % 8 = 5) {a : Nat}
    (ha : (a : ZMod f.p) ≠ 0) (hsq : IsSquareMod f.p a) : quarticV f a = 1 ∨ quarticV f a = f.p - 1 := by
  obtain ⟨b, hb, hb0⟩ := exists_cast_sq_eq hsq
  rw [quarticV_eq_eulerV hclass hb]
  exact eulerV_eq_one_or_pred h (hb0 ha)

/-- LEGQV of a nonzero fourth power `c^4` (R215): it is the square of `c^2`, whose LEG is +1. -/
theorem legqV_of_isFourthPowerMod {f : Field} (h : f.Admissible) (hclass : f.p % 8 = 5) {a : Nat}
    (ha : (a : ZMod f.p) ≠ 0) (hfourth : IsFourthPowerMod f.p a) : legqV f a = 1 := by
  obtain ⟨c, hc⟩ := hfourth
  have hroot : ((c ^ 2 : Nat) : ZMod f.p) ^ 2 = a := by
    rw [← Nat.cast_pow, ← pow_mul]
    exact (ZMod.natCast_eq_natCast_iff' _ _ _).2 hc
  have hroot0 : ((c ^ 2 : Nat) : ZMod f.p) ≠ 0 := fun hzero =>
    ha (by rw [← hroot, hzero, zero_pow two_ne_zero])
  rw [legqV_eq_legV h hclass hroot0 hroot]
  exact legV_of_isSquareMod h hroot0 ⟨c, rfl⟩

/-- LEGQV of a square that is no fourth power (R215): its root is no square. -/
theorem legqV_of_not_isFourthPowerMod {f : Field} (h : f.Admissible) (hclass : f.p % 8 = 5) {a : Nat}
    (hsq : IsSquareMod f.p a) (hfourth : ¬IsFourthPowerMod f.p a) : legqV f a = -1 := by
  have := Fact.mk h.2
  obtain ⟨b, hb, -⟩ := exists_cast_sq_eq hsq
  have hroot : ¬IsSquareMod f.p b := fun hbsq => hfourth <| by
    obtain ⟨c, hc, -⟩ := exists_cast_sq_eq hbsq
    exact (exists_pow_mod_eq_iff 4 a).2 ⟨c, by rw [← hb, ← hc, ← pow_mul]⟩
  rw [legqV_eq_legV h hclass (cast_ne_zero_of_not_isSquareMod h hroot) hb]
  exact legV_of_not_isSquareMod h hroot

/-- The square of the quartic chain is the quadratic chain, so for a non-residue the quartic chain is no sign. -/
theorem quarticV_of_not_isSquareMod {f : Field} (h : f.Admissible) (hclass : f.p % 8 = 5) {a : Nat}
    (hsq : ¬IsSquareMod f.p a) : quarticV f a ≠ 1 ∧ quarticV f a ≠ f.p - 1 := by
  have hp := one_lt_p h.1
  have heuler : (a : ZMod f.p) ^ ((f.p - 1) / 4 * 2) ≠ 1 := by
    rw [show (f.p - 1) / 4 * 2 = (f.p - 1) / 2 by omega, ne_eq, ← powMod_eq_one_iff hp]
    exact fun hone => hsq ((eulerV_eq_one_iff h (cast_ne_zero_of_not_isSquareMod h hsq)).1 hone)
  rw [pow_mul] at heuler
  rw [quarticV, ne_eq, ne_eq, powMod_eq_one_iff hp, powMod_eq_pred_iff hp]
  refine ⟨fun hone => heuler ?_, fun hneg => heuler ?_⟩
  · rw [hone, one_pow]
  · rw [hneg, neg_one_sq]

theorem quarticV_zero {f : Field} (hclass : f.p % 8 = 5) : quarticV f 0 = 0 := powMod_zero (by omega)

/-- LEGQV of 0 and of a non-residue is the OPEN value (R219). -/
theorem legqV_other {f : Field} (h : f.Admissible) (hclass : f.p % 8 = 5) {a : Nat}
    (ha : a = 0 ∨ ¬IsSquareMod f.p a) : legqV f a = signInt (Config.legqOther f a) := by
  have hsign : quarticV f a ≠ 1 ∧ quarticV f a ≠ f.p - 1 := by
    obtain rfl | hsq := ha
    · rw [quarticV_zero hclass]
      omega
    · exact quarticV_of_not_isSquareMod h hclass hsq
  rw [legqV, if_neg hsign.1, if_neg hsign.2]

end Sys2Proof.Machine
end

section
/-! PROOFS. The value of SQRT and of ISQRT (45_sqrt_engine.md R200 to R208): in each class the chain of a square is one
of its roots. -/

namespace Sys2Proof.Machine

/-! ### The square-root classes -/

theorem sqrtClass_of_mod_four {f : Field} (hclass : f.p % 4 = 3) : f.sqrtClass = .class0 := if_pos hclass

theorem sqrtClass_of_mod_eight {f : Field} (hclass : f.p % 8 = 5) : f.sqrtClass = .class1 := by
  rw [Field.sqrtClass, if_neg (by omega), if_pos hclass]

theorem sqrtClass_ne_neither {f : Field} (hclass : f.p % 4 = 3 ∨ f.p % 8 = 5) : f.sqrtClass ≠ .neither := by
  obtain hclass | hclass := hclass
  · simp [sqrtClass_of_mod_four hclass]
  · simp [sqrtClass_of_mod_eight hclass]

/-! ### The cases of SQRTV -/

/-- SQRTV in class 0 (R200). -/
theorem sqrtV_class0 {f : Field} (hclass : f.p % 4 = 3) (a : Nat) : sqrtV f a = a ^ ((f.p + 1) / 4) % f.p := by
  rw [sqrtV, if_pos (sqrtClass_of_mod_four hclass), sqrtV0, powMod_eq]

theorem sqrtV_eq_sqrtV1 {f : Field} (hclass : f.p % 8 = 5) (a : Nat) : sqrtV f a = sqrtV1 f a :=
  if_neg (by simp [sqrtClass_of_mod_eight hclass])

/-- SQRTV in class 1 where the quartic chain gives 1 (R202). -/
theorem sqrtV_of_quarticV_one {f : Field} (hclass : f.p % 8 = 5) {a : Nat} (ha0 : a ≠ 0) (hq : quarticV f a = 1) :
    sqrtV f a = a ^ ((f.p + 3) / 8) % f.p := by
  rw [sqrtV_eq_sqrtV1 hclass, sqrtV1, if_neg ha0, if_pos hq, powMod_eq]

/-- SQRTV in class 1 where the quartic chain gives `p - 1` (R202). -/
theorem sqrtV_of_quarticV_pred {f : Field} (h : f.shapeOk = true) (hclass : f.p % 8 = 5) {a : Nat}
    (hq : quarticV f a = f.p - 1) :
    sqrtV f a = a ^ ((f.p + 3) / 8) * 2 ^ ((f.p - 1) / 4) % f.p := by
  have ha0 : a ≠ 0 := by
    rintro rfl
    rw [quarticV_zero hclass] at hq
    omega
  rw [sqrtV_eq_sqrtV1 hclass, sqrtV1, if_neg ha0, hq, if_neg (p_pred_ne_one h), if_pos rfl, Field.sqrtCoeffM1,
    powMod_eq, powMod_eq, ← Nat.mul_mod]

theorem sqrtV_lt {f : Field} (h : f.shapeOk = true) (a : Nat) : sqrtV f a < f.p := by
  have hp := shape_p_pos h
  rw [sqrtV, sqrtV0, sqrtV1]
  split_ifs
  · exact powMod_lt hp _ _
  · exact hp
  · exact powMod_lt hp _ _
  · exact Nat.mod_lt _ hp
  · exact Nat.mod_lt _ hp

/-! ### The root of a square -/

/-- In class 0, `(a^((p+1)/4))^2` is `a` times Euler's criterion. -/
theorem sqrtV_sq_class0 {f : Field} (h : f.Admissible) (hclass : f.p % 4 = 3) {a : Nat}
    (hsq : IsSquareMod f.p a) : (sqrtV f a : ZMod f.p) ^ 2 = a := by
  rw [sqrtV_class0 hclass, ZMod.natCast_mod, Nat.cast_pow, ← pow_mul,
    show (f.p + 1) / 4 * 2 = (f.p - 1) / 2 + 1 by omega, pow_succ]
  obtain ha | ha := eq_or_ne (a : ZMod f.p) 0
  · rw [ha, mul_zero]
  · rw [(powMod_eq_one_iff (one_lt_p h.1)).1 ((eulerV_eq_one_iff h ha).2 hsq), one_mul]

/-- `SQRT_COEFF_M1` is a square root of -1 in class 1, where 2 is no square (10_state.md R53). -/
theorem two_pow_quarter_sq {f : Field} (h : f.Admissible) (hclass : f.p % 8 = 5) :
    ((2 : ZMod f.p) ^ ((f.p - 1) / 4)) ^ 2 = -1 := by
  have := Fact.mk h.2
  have htwo : ¬IsSquareMod f.p 2 := by
    rw [isSquareMod_iff_isSquare, Nat.cast_ofNat, ZMod.exists_sq_eq_two_iff (by omega)]
    omega
  rw [← pow_mul, show (f.p - 1) / 4 * 2 = (f.p - 1) / 2 by omega]
  exact_mod_cast (powMod_eq_pred_iff (one_lt_p h.1)).1 (eulerV_of_not_isSquareMod h htwo)

/-- In class 1, `(a^((p+3)/8))^2` is `a` times the quartic chain of `a`; where that is -1, the square of
`SQRT_COEFF_M1` makes up for it. -/
theorem sqrtV_sq_class1 {f : Field} (h : f.Admissible) (hclass : f.p % 8 = 5) {a : Nat} (ha : a < f.p)
    (hsq : IsSquareMod f.p a) : (sqrtV f a : ZMod f.p) ^ 2 = a := by
  obtain rfl | ha0 := eq_or_ne a 0
  · simp [sqrtV_eq_sqrtV1 hclass, sqrtV1]
  have hp := one_lt_p h.1
  have hpow : ((a : ZMod f.p) ^ ((f.p + 3) / 8)) ^ 2 = (a : ZMod f.p) ^ ((f.p - 1) / 4) * a := by
    rw [← pow_mul, show (f.p + 3) / 8 * 2 = (f.p - 1) / 4 + 1 by omega, pow_succ]
  obtain hq | hq := quarticV_of_isSquareMod h hclass (cast_ne_zero_of_lt ha0 ha) hsq
  · rw [sqrtV_of_quarticV_one hclass ha0 hq, ZMod.natCast_mod, Nat.cast_pow, hpow, (powMod_eq_one_iff hp).1 hq, one_mul]
  · rw [sqrtV_of_quarticV_pred h.1 hclass hq, ZMod.natCast_mod]
    push_cast
    rw [mul_pow, hpow, (powMod_eq_pred_iff hp).1 hq, two_pow_quarter_sq h hclass]
    ring

/-- SQRTV of a square is a square root of it (R200, R202). -/
theorem sqrtV_sq {f : Field} (h : f.Admissible) (hclass : f.p % 4 = 3 ∨ f.p % 8 = 5) {a : Nat} (ha : a < f.p)
    (hsq : IsSquareMod f.p a) : (sqrtV f a : ZMod f.p) ^ 2 = a := by
  obtain hclass | hclass := hclass
  · exact sqrtV_sq_class0 h hclass hsq
  · exact sqrtV_sq_class1 h hclass ha hsq

theorem sqrtV_sq_mod {f : Field} (h : f.Admissible) (hclass : f.p % 4 = 3 ∨ f.p % 8 = 5) {a : Nat} (ha : a < f.p)
    (hsq : IsSquareMod f.p a) : sqrtV f a ^ 2 % f.p = a := by
  have hcast : ((sqrtV f a ^ 2 : Nat) : ZMod f.p) = a := by
    rw [Nat.cast_pow, sqrtV_sq h hclass ha hsq]
  rw [(ZMod.natCast_eq_natCast_iff' _ _ _).1 hcast, Nat.mod_eq_of_lt ha]

theorem sqrtV_cast_ne_zero {f : Field} (h : f.Admissible) (hclass : f.p % 4 = 3 ∨ f.p % 8 = 5) {a : Nat} (ha0 : a ≠ 0)
    (ha : a < f.p) (hsq : IsSquareMod f.p a) : (sqrtV f a : ZMod f.p) ≠ 0 := fun hzero =>
  cast_ne_zero_of_lt ha0 ha (by rw [← sqrtV_sq h hclass ha hsq, hzero, zero_pow two_ne_zero])

/-! ### ISQRTV -/

theorem isqrtV_zero (f : Field) : isqrtV f 0 = 0 := if_pos rfl

theorem isqrtV_of_isSquareMod {f : Field} (h : f.Admissible) {a : Nat} (ha0 : a ≠ 0) (ha : a < f.p)
    (hsq : IsSquareMod f.p a) : isqrtV f a = invV f (sqrtV f a) := by
  rw [isqrtV, if_neg ha0, if_pos ((eulerV_eq_one_iff h (cast_ne_zero_of_lt ha0 ha)).2 hsq)]

theorem isqrtV_lt {f : Field} (h : f.shapeOk = true) (a : Nat) : isqrtV f a < f.p := by
  have hp := shape_p_pos h
  rw [isqrtV]
  split_ifs
  · exact hp
  · exact invV_lt h _
  · exact Nat.mod_lt _ hp

/-- The inverse of a root of `a`, squared, times `a` is the square of the inverse times the root (R208). -/
theorem isqrtV_sq_mul_mod {f : Field} (h : f.Admissible) (hclass : f.p % 4 = 3 ∨ f.p % 8 = 5) {a : Nat} (ha0 : a ≠ 0)
    (ha : a < f.p) (hsq : IsSquareMod f.p a) : isqrtV f a ^ 2 * a % f.p = 1 := by
  have hroot0 : sqrtV f a ≠ 0 := fun hzero => sqrtV_cast_ne_zero h hclass ha0 ha hsq (by rw [hzero, Nat.cast_zero])
  have hroot : sqrtV f a ^ 2 ≡ a [MOD f.p] := (ZMod.natCast_eq_natCast_iff _ _ _).1
    (by rw [Nat.cast_pow, sqrtV_sq h hclass ha hsq])
  have hone : isqrtV f a ^ 2 * a ≡ 1 [MOD f.p] :=
    calc isqrtV f a ^ 2 * a ≡ isqrtV f a ^ 2 * sqrtV f a ^ 2 [MOD f.p] := hroot.symm.mul_left _
      _ = (invV f (sqrtV f a) * sqrtV f a) ^ 2 := by rw [isqrtV_of_isSquareMod h ha0 ha hsq, mul_pow]
      _ ≡ 1 ^ 2 [MOD f.p] := (invV_mul_modEq_one h hroot0 (sqrtV_lt h.1 a)).pow 2
      _ = 1 := one_pow 2
  rw [hone, Nat.mod_eq_of_lt (one_lt_p h.1)]

end Sys2Proof.Machine
end

section
/-! PROOFS. The commands SQRT, ISQRT, LEG and LEGQ (45_sqrt_engine.md) in the fields that have them, and the residue
laws R213 and R218 of running them one after the other. -/

namespace Sys2Proof.Machine

/-! ### Where the field has the command -/

theorem exec_sqrt_of_class {s : State} (hclass : s.field.p % 4 = 3 ∨ s.field.p % 8 = 5) (vd va : Reg) :
    exec (.sqrt vd va) s =
      .next (s.completeReg vd (canon s.field (sqrtV s.field (modp s.field (s.sourceA va))))) :=
  congrArg Host.Outcome.next (if_pos (bne_iff_ne.2 (sqrtClass_ne_neither hclass)))

theorem exec_isqrt_of_class {s : State} (hclass : s.field.p % 4 = 3 ∨ s.field.p % 8 = 5) (vd va : Reg) :
    exec (.isqrt vd va) s =
      .next (s.completeReg vd (canon s.field (isqrtV s.field (modp s.field (s.sourceA va))))) :=
  congrArg Host.Outcome.next (if_pos (bne_iff_ne.2 (sqrtClass_ne_neither hclass)))

theorem exec_legq_of_class {s : State} (hclass : s.field.p % 8 = 5) (va : Reg) :
    exec (.legq va) s = .next (s.completeSres (wordOf (legqV s.field (modp s.field (s.sourceA va))))) :=
  congrArg Host.Outcome.next (if_pos (beq_iff_eq.2 (sqrtClass_of_mod_eight hclass)))

theorem exec_leg (s : State) (va : Reg) :
    exec (.leg va) s = .next (s.completeSres (wordOf (legV s.field (modp s.field (s.sourceA va))))) := rfl

/-! ### The word of a sign -/

theorem wordOf_one : wordOf 1 = 0x0000000000000001 := rfl

theorem wordOf_neg_one : wordOf (-1) = 0xFFFFFFFFFFFFFFFF := rfl

/-- Only a square has LEG +1, 0 with an OPEN `LEG_ZERO` of +1 among them. -/
theorem isSquareMod_of_legV {f : Field} (h : f.Admissible) {a : Nat} (hleg : wordOf (legV f a) = 1) :
    IsSquareMod f.p a := by
  by_contra hsq
  rw [legV_of_not_isSquareMod h hsq] at hleg
  exact absurd hleg (by decide)

/-! ### The commands -/

/-- Settles O43: SQRT completes with SQRTV, a root of a square by `sqrtV_sq_mod`, and in each case of R200 and R202 the
value of its chain. -/
theorem sqrtGivesASquareRoot : Obligations.SqrtGivesASquareRoot := by
  intro s vd va a h hclass hA
  have ha : a < s.field.p := hA ▸ modp_lt (shape_p_pos h.1) _
  have hlt := sqrtV_lt h.1 a
  refine ⟨_, canon s.field (sqrtV s.field a), exec_sqrt_of_class hclass vd va, hA ▸ completeReg_spec _ _ _,
    ⟨_, hlt, rfl⟩, fun hsq => ?_, fun hclass0 => ?_, fun hclass1 ha0 hq => ?_, fun hclass1 hq => ?_⟩
  · rw [modp_canon h.1 hlt, sqrtV_sq_mod h hclass ha hsq]
  · rw [sqrtV_class0 hclass0]
  · rw [sqrtV_of_quarticV_one hclass1 ha0 ((powMod_eq _ _ _).trans hq)]
  · rw [sqrtV_of_quarticV_pred h.1 hclass1 ((powMod_eq _ _ _).trans hq)]

/-- Settles O44: ISQRT completes with ISQRTV, for a nonzero square the inverse of its root. -/
theorem isqrtGivesTheInverseSquareRoot : Obligations.IsqrtGivesTheInverseSquareRoot := by
  intro s vd va a h hclass hA
  have ha : a < s.field.p := hA ▸ modp_lt (shape_p_pos h.1) _
  have hlt := isqrtV_lt h.1 a
  refine ⟨_, canon s.field (isqrtV s.field a), exec_isqrt_of_class hclass vd va, hA ▸ completeReg_spec _ _ _,
    ⟨_, hlt, rfl⟩, fun ha0 => ?_, fun ha0 hsq => ?_⟩
  · rw [ha0, isqrtV_zero]
  · rw [modp_canon h.1 hlt]
    exact ⟨isqrtV_sq_mul_mod h hclass ha0 ha hsq, by rw [isqrtV_of_isSquareMod h ha0 ha hsq, invV_eq]⟩

/-- Settles O45: LEG completes with LEGV, by Euler's criterion the Legendre symbol of a nonzero element. -/
theorem legGivesTheLegendreSymbol : Obligations.LegGivesTheLegendreSymbol := by
  intro s va a h hA
  have ha : a < s.field.p := hA ▸ modp_lt (shape_p_pos h.1) _
  refine ⟨_, wordOf (legV s.field a), exec_leg s va, hA ▸ completeSres_spec _ _, fun ha0 hsq => ?_, fun hsq => ?_,
    fun ha0 => ?_⟩
  · rw [legV_of_isSquareMod h (cast_ne_zero_of_lt ha0 ha) hsq, wordOf_one]
  · rw [legV_of_not_isSquareMod h hsq, wordOf_neg_one]
  · rw [ha0, legV_zero h.1]

/-- Settles O46: LEGQ completes with LEGQV, for a nonzero square the Legendre symbol of its root. -/
theorem legqGivesTheQuarticSymbol : Obligations.LegqGivesTheQuarticSymbol := by
  intro s va a h hclass hA
  have ha : a < s.field.p := hA ▸ modp_lt (shape_p_pos h.1) _
  refine ⟨_, wordOf (legqV s.field a), exec_legq_of_class hclass va, hA ▸ completeSres_spec _ _,
    fun ha0 hfourth => ?_, fun hsq hfourth => ?_, fun hother => ?_⟩
  · rw [legqV_of_isFourthPowerMod h hclass (cast_ne_zero_of_lt ha0 ha) hfourth, wordOf_one]
  · rw [legqV_of_not_isFourthPowerMod h hclass hsq hfourth, wordOf_neg_one]
  · rw [legqV_other h hclass hother]

/-! ### The residue laws -/

/-- SQRT where no command is in flight: its source is the register as it is now. -/
theorem exec_sqrt_idle {s : State} (hidle : s.inflight = none) (hclass : s.field.p % 4 = 3 ∨ s.field.p % 8 = 5)
    (vd va : Reg) :
    exec (.sqrt vd va) s = .next (s.completeReg vd (canon s.field (sqrtV s.field (modp s.field (s.reg va))))) := by
  rw [exec_sqrt_of_class hclass, sourceA_idle hidle]

/-- LEG where no command is in flight, as `exec_sqrt_idle`. -/
theorem exec_leg_idle {s : State} (hidle : s.inflight = none) (va : Reg) :
    exec (.leg va) s = .next (s.completeSres (wordOf (legV s.field (modp s.field (s.reg va))))) := by
  rw [exec_leg, sourceA_idle hidle]

/-- LEGQ where no command is in flight, as `exec_sqrt_idle`. -/
theorem exec_legq_idle {s : State} (hidle : s.inflight = none) (hclass : s.field.p % 8 = 5) (va : Reg) :
    exec (.legq va) s = .next (s.completeSres (wordOf (legqV s.field (modp s.field (s.reg va))))) := by
  rw [exec_legq_of_class hclass, sourceA_idle hidle]

/-- Where SQRTV squares to `a`, SQRT, SQR and NORM run one after the other give `canon(a)`. -/
theorem exec_sqrt_sqr_norm {s : State} (h : s.field.shapeOk = true) (hidle : s.inflight = none)
    (hclass : s.field.p % 4 = 3 ∨ s.field.p % 8 = 5) (vd va : Reg) {a : Nat} (hA : a = modp s.field (s.reg va))
    (hroot : sqrtV s.field a ^ 2 % s.field.p = a) :
    ∃ t1 t2 t3, exec (.sqrt vd va) s = .next t1 ∧ exec (.sqr vd vd) t1 = .next t2 ∧
      exec (.norm vd vd) t2 = .next t3 ∧ t3.reg vd = canon s.field a := by
  refine ⟨_, _, _, exec_sqrt_idle hidle hclass vd va, exec_sqr_idle rfl vd vd, exec_norm_idle rfl vd vd, ?_⟩
  rw [sq] at hroot
  simp [← hA, modp_mulOut_val_mul_val h, modp_canon h (sqrtV_lt h a), hroot]

/-- Settles O47: LEG leaves the registers as they are, and where it writes +1 the element is a square
(`isSquareMod_of_legV`). -/
theorem residueLaw : Obligations.ResidueLaw := by
  intro s vd va a h hidle hA
  have ha : a < s.field.p := hA ▸ modp_lt (shape_p_pos h.1) _
  refine ⟨_, hA ▸ exec_leg_idle hidle va, fun ha0 => ?_, fun ha0 => ?_, fun hclass _ hleg => ?_⟩
  · rw [ha0, legV_zero h.1]
    rfl
  · by_cases hsq : IsSquareMod s.field.p a
    · exact .inl (congrArg wordOf (legV_of_isSquareMod h (cast_ne_zero_of_lt ha0 ha) hsq))
    · exact .inr (congrArg wordOf (legV_of_not_isSquareMod h hsq))
  · exact exec_sqrt_sqr_norm (s := s.completeSres _) h.1 rfl hclass vd va hA
      (sqrtV_sq_mod h hclass ha (isSquareMod_of_legV h hleg))

/-- The fourth power of the root of the root of `a`, where both are roots (R218). -/
theorem sqrtV_sqrtV_pow_four_mod {f : Field} (h : f.Admissible) (hclass : f.p % 4 = 3 ∨ f.p % 8 = 5) {a : Nat}
    (ha : a < f.p) (hsq : IsSquareMod f.p a) (hroot : IsSquareMod f.p (sqrtV f a)) :
    sqrtV f (sqrtV f a) ^ 4 % f.p = a := by
  rw [show sqrtV f (sqrtV f a) ^ 4 = (sqrtV f (sqrtV f a) ^ 2) ^ 2 by rw [← pow_mul], Nat.pow_mod,
    sqrtV_sq_mod h hclass (sqrtV_lt h.1 a) hroot, sqrtV_sq_mod h hclass ha hsq]

/-- Settles O48: the root SQRT gives has the LEG of `a`'s LEGQ (`legqV_eq_legV`), so where that is +1 the root is a
square itself. -/
theorem quarticResidueLaw : Obligations.QuarticResidueLaw := by
  intro s vd va a h hclass hidle hA ha0 hsq
  have ha : a < s.field.p := hA ▸ modp_lt (shape_p_pos h.1) _
  have hsymbol : legqV s.field a = legV s.field (sqrtV s.field a) :=
    legqV_eq_legV h hclass (sqrtV_cast_ne_zero h (.inr hclass) ha0 ha hsq) (sqrtV_sq h (.inr hclass) ha hsq)
  refine ⟨_, _, _, hA ▸ exec_sqrt_idle hidle (.inr hclass) vd va, exec_leg_idle rfl vd,
    hA ▸ exec_legq_idle hidle hclass va, reg_completeReg_same _ _ _, ?_, fun hleg => ?_⟩
  · simp [modp_canon h.1 (sqrtV_lt h.1 a), hsymbol]
  · have hone : wordOf (legV s.field (sqrtV s.field a)) = 1 := hsymbol ▸ hleg
    exact sqrtV_sqrtV_pow_four_mod h (.inr hclass) ha hsq (isSquareMod_of_legV h hone)

end Sys2Proof.Machine
end

section
/-! PROOFS. The codec (46_codec.md): the bytes of an integer and the integer of bytes undo each other, the value bits of
a digit vector are the base-`2^W` digits of the integer NPACK packs, and by these PACK, NPACK, UNPACK and the round trip
R235. -/

namespace Sys2Proof.Machine

/-! ### Positional sums -/

/-- A digit above those summed in `v` is read off the sum. -/
theorem add_mul_two_pow_div {W k v : Nat} (hv : v < 2 ^ (W * k)) (d : Nat) :
    (v + d * 2 ^ (W * k)) / 2 ^ (W * k) = d := by
  rw [Nat.add_mul_div_right _ _ (by positivity), Nat.div_eq_of_lt hv, zero_add]

/-- A digit at position `k` does not change a digit below it. -/
theorem add_mul_two_pow_div_mod {W j k : Nat} (hj : j < k) (v d : Nat) :
    (v + d * 2 ^ (W * k)) / 2 ^ (W * j) % 2 ^ W = v / 2 ^ (W * j) % 2 ^ W := by
  obtain ⟨i, rfl⟩ := Nat.exists_eq_add_of_lt hj
  have hsplit : d * 2 ^ (W * (j + i + 1)) = d * 2 ^ (W * i) * 2 ^ W * 2 ^ (W * j) := by ring
  rw [hsplit, Nat.add_mul_div_right _ _ (by positivity), Nat.add_mul_mod_self_right]

/-- A sum of `k` digits takes one more digit. -/
theorem add_mul_two_pow_lt {W H k v d : Nat} (hv : v < 2 ^ (W * k)) (hd : d < 2 ^ H) :
    v + d * 2 ^ (W * k) < 2 ^ (W * k + H) := calc
  v + d * 2 ^ (W * k) < (d + 1) * 2 ^ (W * k) := by linarith
  _ ≤ 2 ^ H * 2 ^ (W * k) := Nat.mul_le_mul_right _ hd
  _ = 2 ^ (W * k + H) := by ring

/-! ### Bytes -/

theorem toNat_packByte (r j : Nat) : (packByte r j).toNat = r / 2 ^ (8 * j) % 2 ^ 8 := BitVec.toNat_ofNat _ _

/-- The integer of the `k` low bytes of `packint(r)` (R230). -/
theorem bytesValue_of_packByte {m : Memory} {r k : Nat} (h : ∀ j, j < k → m.read j = packByte r j) :
    m.bytesValue k = r % 2 ^ (8 * k) := by
  induction k with
  | zero => simp [Memory.bytesValue, Nat.mod_one]
  | succ k ih =>
    rw [Memory.bytesValue, ih fun j hj => h j (by omega), h k (by omega), toNat_packByte, Nat.mul_succ, pow_add,
      Nat.mod_mul, mul_comm (2 ^ (8 * k))]

/-- The bytes of the integer of the `k` low bytes are those bytes (R230). -/
theorem packByte_bytesValue (m : Memory) {j k : Nat} (hj : j < k) : packByte (m.bytesValue k) j = m.read j := by
  rw [← BitVec.toNat_inj, toNat_packByte]
  induction k with
  | zero => omega
  | succ k ih =>
    rw [Memory.bytesValue]
    rcases Nat.lt_succ_iff_lt_or_eq.1 hj with hlt | rfl
    · rw [add_mul_two_pow_div_mod hlt, ih hlt]
    · rw [add_mul_two_pow_div (bytesValue_lt m j), Nat.mod_eq_of_lt (m.read j).isLt]

theorem packByte_unpackInt {f : Field} (m : Memory) {j : Nat} (hj : j < f.packedBytes) :
    packByte (unpackInt f m) j = m.read j := packByte_bytesValue m hj

/-- PACKED_BYTES bytes hold `n` bits (R9). -/
theorem two_pow_n_le_packedBytes (f : Field) : 2 ^ f.n ≤ 2 ^ (8 * f.packedBytes) :=
  Nat.pow_le_pow_right (by norm_num) (by unfold Field.packedBytes; omega)

/-- A buffer a command has packed `r` into unpacks to `r`. -/
theorem unpackInt_of_completedPb {s t : State} {r : Nat} (ht : CompletedPb s t (packByte r))
    (hr : r < 2 ^ s.field.n) : unpackInt s.field t.pb = r := by
  obtain ⟨-, -, -, hbytes, -⟩ := ht
  rw [unpackInt, bytesValue_of_packByte hbytes, Nat.mod_eq_of_lt (hr.trans_le (two_pow_n_le_packedBytes _))]

/-! ### Value bits -/

theorem valueBitsLow_lt (f : Field) (v : DigitVec) (k : Nat) : valueBitsLow f v k < 2 ^ (f.W * k) := by
  induction k with
  | zero => simp [valueBitsLow]
  | succ k ih =>
    rw [valueBitsLow, Nat.mul_succ]
    exact add_mul_two_pow_lt ih (Nat.mod_lt _ (by positivity))

/-- Digit `j` of the value bits of the lower digits is the low `W` bits of digit `j` (R232). -/
theorem valueBitsLow_div_mod (f : Field) (v : DigitVec) {j k : Nat} (hj : j < k) :
    valueBitsLow f v k / 2 ^ (f.W * j) % 2 ^ f.W = (digit v j).toNat % 2 ^ f.W := by
  induction k with
  | zero => omega
  | succ k ih =>
    rw [valueBitsLow]
    rcases Nat.lt_succ_iff_lt_or_eq.1 hj with hlt | rfl
    · rw [add_mul_two_pow_div_mod hlt, ih hlt]
    · rw [add_mul_two_pow_div (valueBitsLow_lt f v j), Nat.mod_mod]

theorem valueBits_div_mod (f : Field) (v : DigitVec) {j : Nat} (hj : j < f.K - 1) :
    valueBits f v / 2 ^ (f.W * j) % 2 ^ f.W = (digit v j).toNat % 2 ^ f.W := by
  rw [valueBits, add_mul_two_pow_div_mod hj, valueBitsLow_div_mod f v hj]

theorem valueBits_div_top (f : Field) (v : DigitVec) :
    valueBits f v / 2 ^ (f.W * (f.K - 1)) = (digit v (f.K - 1)).toNat % 2 ^ f.H :=
  add_mul_two_pow_div (valueBitsLow_lt f v _) _

theorem valueBits_lt {f : Field} (h : f.shapeOk = true) (v : DigitVec) : valueBits f v < 2 ^ f.n := by
  rw [shape_n h]
  exact add_mul_two_pow_lt (valueBitsLow_lt f v _) (Nat.mod_lt _ (by positivity))

theorem valLow_eq_valueBitsLow {f : Field} (h : f.shapeOk = true) {v : DigitVec} {k : Nat}
    (hv : ∀ j, j < k → (digit v j).toNat < 2 ^ f.W) : valLow f.W v k = valueBitsLow f v k := by
  induction k with
  | zero => rfl
  | succ k ih =>
    have hk := hv k (by omega)
    rw [valLow, valueBitsLow, ih fun j hj => hv j (by omega), sdigit, toInt_of_toNat_lt (shape_W_le h) hk,
      Nat.mod_eq_of_lt hk]
    push_cast
    rfl

/-- Where no digit holds a carry bit, the value bits are the whole represented integer. -/
theorem val_eq_valueBits {f : Field} (h : f.shapeOk = true) {v : DigitVec} (hv : Carried f v)
    (htop : (digit v (f.K - 1)).toNat < 2 ^ f.H) : val f v = valueBits f v := by
  rw [val_eq_low_add_top (shape_K_pos h), valLow_eq_valueBitsLow h ((carried_iff h v).1 hv), sdigit,
    toInt_of_toNat_lt (shape_H_le h) htop, valueBits, Nat.mod_eq_of_lt htop]
  push_cast
  rfl

theorem valueBits_canon {f : Field} (h : f.shapeOk = true) {r : Nat} (hr : r < 2 ^ f.n) :
    valueBits f (canon f r) = r := by
  have hval := val_eq_valueBits h (carried_canon h r) (toNat_digit_canon_top h hr ▸ canon_top_lt h hr)
  rw [val_canon h hr] at hval
  exact_mod_cast hval.symm

/-! ### `canon` of an integer that is not reduced -/

theorem lt_two_pow_n {f : Field} {r : Nat} (hr : r < f.p) : r < 2 ^ f.n := hr.trans_le (Nat.sub_le _ _)

theorem modp_canon_eq_mod {f : Field} (h : f.shapeOk = true) {r : Nat} (hr : r < 2 ^ f.n) :
    modp f (canon f r) = r % f.p := by
  rw [modp, val_canon h hr, ← Int.natCast_emod, Int.toNat_natCast]

theorem normalized_canon_iff {f : Field} (h : f.shapeOk = true) {r : Nat} (hr : r < 2 ^ f.n) :
    Normalized f (canon f r) ↔ r < f.p := by
  refine ⟨?_, fun hlt => ⟨r, hlt, rfl⟩⟩
  rintro ⟨q, hq, heq⟩
  have hval := congrArg (val f) heq
  rw [val_canon h hr, val_canon h (lt_two_pow_n hq), Nat.cast_inj] at hval
  exact hval ▸ hq

theorem valueBits_of_normalized {f : Field} (h : f.shapeOk = true) {v : DigitVec} (hv : Normalized f v) :
    valueBits f v = modp f v := by
  obtain ⟨r, hr, rfl⟩ := hv
  rw [valueBits_canon h (lt_two_pow_n hr), modp_canon h hr]

/-! ### The commands -/

/-- Settles O50: the bytes PACK writes unpack to the element, which is below `p`. -/
theorem packSerializesTheElement : Obligations.PackSerializesTheElement := by
  intro s va h hwf
  have hlt := modp_lt (shape_p_pos h) (s.sourceA va)
  have hpb := completePb_spec hwf (modp s.field (s.sourceA va))
  have hunpack := unpackInt_of_completedPb hpb (lt_two_pow_n hlt)
  exact ⟨_, rfl, hpb, hunpack, hunpack.trans_lt hlt⟩

/-- Settles O51: the integer NPACK packs has the value bits of each digit, and for a normalized register it is the
element. -/
theorem npackSerializesTheValueBits : Obligations.NpackSerializesTheValueBits := by
  intro s va h hwf
  have hpb := completePb_spec hwf (valueBits s.field (s.sourceA va))
  exact ⟨_, _, rfl, hpb, unpackInt_of_completedPb hpb (valueBits_lt h _), fun _ hj => valueBits_div_mod _ _ hj,
    valueBits_div_top _ _, valueBits_of_normalized h⟩

/-- Settles O52: UNPACK completes with `canon` of an integer below `2^n`, normalized exactly where that is below `p`. -/
theorem unpackReadsTheBytes : Obligations.UnpackReadsTheBytes := by
  intro s vd h
  have hlt : unpackInt s.field s.sourcePb % 2 ^ s.field.n < 2 ^ s.field.n := Nat.mod_lt _ (by positivity)
  exact ⟨_, _, rfl, completeReg_spec _ _ _, val_canon h hlt, carried_canon h _,
    toNat_digit_canon_top h hlt ▸ canon_top_lt h hlt, normalized_canon_iff h hlt⟩

/-! ### The round trip -/

/-- PACK where no command is in flight: its source is the register as it is now. -/
theorem exec_pack_idle {s : State} (hidle : s.inflight = none) (va : Reg) :
    exec (.pack va) s = .next (s.completePb (modp s.field (s.reg va))) := by
  rw [← sourceA_idle hidle va]
  rfl

/-- UNPACK where no command is in flight: its source is PB as it is now. -/
theorem exec_unpack_idle {s : State} (hidle : s.inflight = none) (vd : Reg) :
    exec (.unpack vd) s = .next (s.completeReg vd (canon s.field (unpackInt s.field s.pb % 2 ^ s.field.n))) := by
  rw [← sourcePb_idle hidle]
  rfl

/-- Packing the integer that a buffer holds leaves every byte of it as it was. -/
theorem samePb_of_completedPb_unpackInt {s t : State} (ht : CompletedPb s t (packByte (unpackInt s.field s.pb))) :
    SamePb s t := by
  obtain ⟨-, -, -, hbytes, hrest⟩ := ht
  intro j
  rcases lt_or_ge j s.field.packedBytes with hj | hj
  · rw [hbytes j hj, packByte_unpackInt _ hj]
  · exact hrest j hj

/-- PACK then UNPACK is NORM (R235): the element that PACK writes is read back unchanged. -/
theorem exec_pack_unpack {s : State} (h : s.field.shapeOk = true) (hwf : s.pb.wf = true) (hidle : s.inflight = none)
    (va vd : Reg) :
    ∃ t1 t2, exec (.pack va) s = .next t1 ∧ exec (.unpack vd) t1 = .next t2 ∧
      t2.reg vd = canon s.field (modp s.field (s.reg va)) := by
  have hlt := lt_two_pow_n (modp_lt (shape_p_pos h) (s.reg va))
  have hunpack := unpackInt_of_completedPb (completePb_spec hwf (modp s.field (s.reg va))) hlt
  refine ⟨_, _, exec_pack_idle hidle va, exec_unpack_idle rfl vd, ?_⟩
  rw [reg_completeReg_same, completePb_field, hunpack, Nat.mod_eq_of_lt hlt]

/-- UNPACK then PACK packs the integer of the bytes, reduced mod `2^n` and then mod `p` (R235). -/
theorem exec_unpack_pack {s : State} (h : s.field.shapeOk = true) (hwf : s.pb.wf = true) (hidle : s.inflight = none)
    (vd : Reg) :
    ∃ t1 t2, exec (.unpack vd) s = .next t1 ∧ exec (.pack vd) t1 = .next t2 ∧ t1.pb = s.pb ∧ t1.field = s.field ∧
      CompletedPb t1 t2 (packByte (unpackInt s.field s.pb % 2 ^ s.field.n % s.field.p)) := by
  have hlt : unpackInt s.field s.pb % 2 ^ s.field.n < 2 ^ s.field.n := Nat.mod_lt _ (by positivity)
  refine ⟨_, _, exec_unpack_idle hidle vd, exec_pack_idle rfl vd, rfl, rfl, ?_⟩
  rw [reg_completeReg_same, completeReg_field, modp_canon_eq_mod h hlt]
  exact completePb_spec (s := s.completeReg vd _) hwf _

/-- Settles O53: the normalized vectors are the fixed points of NORM, and bytes whose integer is below `p` are packed
again as they were. -/
theorem packUnpackRoundTrip : Obligations.PackUnpackRoundTrip := by
  intro s va vd h hwf hidle
  refine ⟨?_, ?_⟩
  · obtain ⟨t1, t2, hpack, hunpack, hreg⟩ := exec_pack_unpack h hwf hidle va vd
    exact ⟨t1, t2, hpack, hunpack, hreg, fun hnorm => hreg.trans ((normalized_iff h _).1 hnorm)⟩
  · obtain ⟨t1, t2, hunpack, hpack, hpb, hfield, hdone⟩ := exec_unpack_pack h hwf hidle vd
    have ⟨_, _, _, hbytes, _⟩ := hdone
    refine ⟨t1, t2, hunpack, hpack, hfield ▸ hbytes, fun hlt => ?_⟩
    rw [Nat.mod_eq_of_lt (lt_two_pow_n hlt), Nat.mod_eq_of_lt hlt, ← hfield, ← hpb] at hdone
    have hsame := samePb_of_completedPb_unpackInt hdone
    rwa [SamePb, hpb] at hsame

end Sys2Proof.Machine
end

section
/-! PROOFS. The life of a command (60_exceptions.md R303, R310, R311, R314): its acceptance or refusal at a CMD write,
the run of its latency, its completion, and the resets that abandon it (70_reset_and_hazards.md R340, R341, R360). -/

namespace Sys2Proof.Machine

/-! ### Completion of the command that is due -/

theorem runWord_of_decode {w : Word} {i : Instr} (h : decode w = .ok i) (s : State) : runWord w s = exec i s := by
  simp only [runWord, h]

theorem step_due {s : State} {r : Inflight} (hq : s.inflight = some r) (h0 : r.remaining = 0) :
    step s = runWord r.word s := by
  simp only [step, State.dueWord, hq, h0, if_true]

theorem dueWord_of_remaining {s : State} {r : Inflight} (hq : s.inflight = some r) (h0 : r.remaining ≠ 0) :
    s.dueWord = none := by
  simp only [State.dueWord, hq, h0, if_false]

/-- Settles O6: the word that is due decodes to the command, and the step runs it. -/
theorem stepRunsTheDecodedCommand : Obligations.StepRunsTheDecodedCommand := by
  intro s r i hq h0 hdecode
  rw [step_due hq h0, runWord_of_decode hdecode]

/-! ### The CMD write -/

theorem issue_of_error {w : Word} {e : DecodeError} (h : decode w = .error e) (s : State) :
    s.issue w = s.commandError (decodeErrorCode e) := by
  simp only [State.issue, h]

theorem issue_of_lacks {s : State} {w : Word} {i : Instr} (h : decode w = .ok i)
    (hop : s.field.hasOp i.op = false) : s.issue w = s.commandError .notApplicable := by
  simp only [State.issue, h, hop, Bool.false_eq_true, if_false]

theorem issue_of_has {s : State} {w : Word} {i : Instr} (h : decode w = .ok i) (hop : s.field.hasOp i.op = true) :
    s.issue w = s.accept i w := by
  simp only [State.issue, h, hop, if_true]

/-- A CMD write while idle records its word and issues it (60_exceptions.md R310). -/
theorem step_cmd_idle {s : State} {w : Word} {rest : List HostEvent} (hidle : s.inflight = none)
    (hin : s.inputs = .write 0x0020 64 w :: rest) :
    step s = .next (({ s with inputs := rest, lastcmd := w } : State).issue w) := by
  have hserved : ¬({ s with inputs := rest } : State).busy = true := Bool.eq_false_iff.1 (busy_of_idle hidle)
  rw [step_write_idle hidle hin (by decide) (r := .cmd) (by decide), State.windowWrite, State.writeCmd, if_neg hserved]

/-- Settles O7: the word passes both checks, and acceptance is the whole of what the issue then does. -/
theorem cmdWriteIsAccepted : Obligations.CmdWriteIsAccepted := by
  intro s w i rest hidle hin hdecode hop
  rw [step_cmd_idle hidle hin, issue_of_has (s := { s with inputs := rest, lastcmd := w }) hdecode hop]
  rfl

/-- With nothing in flight, a decode error is recorded, sets DONE and changes nothing else (60_exceptions.md R311). -/
theorem commandError_idle {s : State} (hidle : s.inflight = none) (e : ErrorCode) :
    s.commandError e = { s with err := true, ecode := if s.err then s.ecode else e.code, done := true } := by
  refine (commandError_spec s e).trans ?_
  rw [hidle]

/-- The word is refused with the error of the first check that fails (30_encoding.md R109). -/
theorem issue_of_refused {s : State} {w : Word} {e : ErrorCode}
    (h : decode w = .error .illegalOpcode ∧ e = .illegalOpcode ∨
      decode w = .error .reservedField ∧ e = .reservedField ∨
      (∃ i, decode w = .ok i ∧ s.field.hasOp i.op = false) ∧ e = .notApplicable) :
    s.issue w = s.commandError e := by
  obtain ⟨hdecode, rfl⟩ | ⟨hdecode, rfl⟩ | ⟨⟨i, hdecode, hop⟩, rfl⟩ := h
  · exact issue_of_error hdecode s
  · exact issue_of_error hdecode s
  · exact issue_of_lacks hdecode hop

/-- Settles O8: each refusal is one decode error, raised while nothing is in flight. -/
theorem refusedCommandWordIsPrecise : Obligations.RefusedCommandWordIsPrecise := by
  intro s w rest e hidle hin hrefused
  rw [step_cmd_idle hidle hin, issue_of_refused (s := { s with inputs := rest, lastcmd := w }) hrefused,
    commandError_idle (s := { s with inputs := rest, lastcmd := w }) hidle]

/-! ### The run of the latency -/

theorem run_succ {s t : State} (h : step s = .next t) (k : Nat) :
    Host.Core.run core (k + 1) s = Host.Core.run core k t := by
  have hstep : core.step s = .next t := h
  simp only [Host.Core.run, hstep]

theorem run_one (s : State) : Host.Core.run core 1 s = step s := by
  obtain ⟨t, ht⟩ := step_next s
  rw [run_succ ht, ht]
  rfl

theorem tick_of_inflight {s : State} {r : Inflight} (hq : s.inflight = some r) :
    s.tick = { s with inflight := some { r with remaining := r.remaining - 1 } } := by
  simp only [State.tick, hq]

theorem step_tick {s : State} {w : Word} {snap : Snapshot} {n : Nat} {rest : List HostEvent}
    (hq : s.inflight = some ⟨w, snap, n + 1⟩) (hin : s.inputs = .tick :: rest) :
    step s = .next { s with inputs := rest, inflight := some ⟨w, snap, n⟩ } := by
  rw [step_event (dueWord_of_remaining hq n.succ_ne_zero) hin, State.event,
    tick_of_inflight (s := { s with inputs := rest }) hq]
  rfl

/-- As many ticks as the record in flight has left, and its completion (70_reset_and_hazards.md R360). -/
theorem run_ticks {s : State} {w : Word} {snap : Snapshot} {n : Nat} {rest : List HostEvent}
    (hq : s.inflight = some ⟨w, snap, n⟩) (hin : s.inputs = List.replicate n .tick ++ rest) :
    Host.Core.run core (n + 1) s = runWord w { s with inputs := rest, inflight := some ⟨w, snap, 0⟩ } := by
  induction n generalizing s with
  | zero =>
    have hsame : ({ s with inputs := rest, inflight := some ⟨w, snap, 0⟩ } : State) = s := by
      rw [← hq, show rest = s.inputs from hin.symm]
    rw [run_one, step_due hq rfl, hsame]
  | succ n ih => rw [run_succ (step_tick hq hin), ih rfl rfl]

/-- Settles O9: the write puts the command in flight (`issue_of_has`), its ticks run down (`run_ticks`), and the record
that is then due is the one `placeWord` leaves. -/
theorem acceptedCommandCompletesAfterItsLatency : Obligations.AcceptedCommandCompletesAfterItsLatency := by
  intro s w i rest hidle hdecode hop hin
  rw [run_succ (step_cmd_idle hidle hin), issue_of_has (s := { s with inputs := _, lastcmd := w }) hdecode hop,
    run_ticks rfl rfl, runWord_of_decode hdecode]
  rfl

/-! ### Completion within a bound -/

/-- A host access that does not reset the unit leaves the command in flight and its latency (60_exceptions.md R305 to
R309, R314), and completes nothing. -/
theorem hostWrite_frame_busy {s : State} (hbusy : s.busy = true) {a : BitVec 16} {width : Nat} {d : Word}
    (he : (HostEvent.write a width d).resets = false) :
    (s.hostWrite a width d).inflight = s.inflight ∧ (s.hostWrite a width d).cmdcnt = s.cmdcnt ∧
      (s.hostWrite a width d).inputs = s.inputs := by
  rcases hostWrite_cases s a width d with ⟨e, heq⟩ | ⟨r, hok, hreg, heq⟩
  · simp [heq]
  rw [heq]
  rcases windowWrite_cases s d r with ⟨e, heq⟩ | ⟨-, heq⟩ | ⟨rfl, heq⟩ | ⟨-, hidle, -⟩ | ⟨-, -, hidle, -⟩ |
    ⟨-, -, -, hidle, -⟩
  · simp [heq]
  · rw [heq, writeStatus_eq]
    exact ⟨rfl, rfl, rfl⟩
  · have hsrst : d.getLsbD 1 = false := by simpa [HostEvent.resets, hok, hreg] using he
    rw [heq, writeCtrl_of_no_srst s hsrst]
    exact ⟨rfl, rfl, rfl⟩
  all_goals exact absurd hbusy (by simp [hidle])

theorem hostRead_frame (s : State) (a : BitVec 16) (width : Nat) :
    (s.hostRead a width).inflight = s.inflight ∧ (s.hostRead a width).cmdcnt = s.cmdcnt ∧
      (s.hostRead a width).inputs = s.inputs := by
  rcases hostRead_cases s a width with ⟨e, heq⟩ | ⟨r, -, heq⟩ | heq <;> simp [heq]

/-- Serving the host, or letting time pass, keeps a command in flight unless a reset comes, and brings its completion
nearer: an event is used up, or a tick of the latency. -/
theorem advance_nearer {s : State} {r : Inflight} (hq : s.inflight = some r) (h0 : r.remaining ≠ 0)
    (hin : ∀ e ∈ s.inputs, e.resets = false) :
    ∃ r', s.advance.inflight = some r' ∧ s.advance.cmdcnt = s.cmdcnt ∧
      (∀ e ∈ s.advance.inputs, e.resets = false) ∧
      s.advance.inputs.length + r'.remaining < s.inputs.length + r.remaining := by
  have hbusy : s.busy = true := by simp [State.busy, hq]
  rcases advance_cases s with ⟨hnil, heq⟩ | ⟨e, rest, hcons, heq⟩
  · refine ⟨{ r with remaining := r.remaining - 1 }, by simp [heq, hq], by simp [heq], by simp [heq, hnil], ?_⟩
    simp only [heq, tick_inputs]
    omega
  · rw [hcons, List.forall_mem_cons] at hin
    obtain ⟨he, hrest⟩ := hin
    have hlen : s.inputs.length = rest.length + 1 := by simp [hcons]
    rw [heq]
    cases e with
    | rst => cases he
    | tick =>
      refine ⟨{ r with remaining := r.remaining - 1 }, by simp [State.event, hq], by simp [State.event],
        by simpa [State.event] using hrest, ?_⟩
      simp only [State.event, tick_inputs]
      omega
    | read a width =>
      obtain ⟨hinflight, hcmdcnt, hinputs⟩ := hostRead_frame { s with inputs := rest } a width
      exact ⟨r, hinflight.trans hq, hcmdcnt, hinputs ▸ hrest, by simp only [State.event, hinputs]; omega⟩
    | write a width d =>
      obtain ⟨hinflight, hcmdcnt, hinputs⟩ := hostWrite_frame_busy (s := { s with inputs := rest }) hbusy he
      exact ⟨r, hinflight.trans hq, hcmdcnt, hinputs ▸ hrest, by simp only [State.event, hinputs]; omega⟩

/-- The command that is due completes: by the invariant its word decodes to a command the field has. -/
theorem step_due_completes {s : State} {r : Inflight} (hs : s.Inv) (hq : s.inflight = some r)
    (h0 : r.remaining = 0) : ∃ t, step s = .next t ∧ CompletedFrom s t := by
  obtain ⟨-, -, i, hdecode, hop, -⟩ := hs.inflight r hq
  rw [step_due hq h0, runWord_of_decode hdecode]
  exact everyApplicableCommandCompletes i s hop

/-- Settles O10: by induction on the events and the ticks left, of which every step before the completion uses up one
(`advance_nearer`). -/
theorem commandInFlightCompletesUnlessReset : Obligations.CommandInFlightCompletesUnlessReset := by
  intro s r hs hq hin
  induction hn : s.inputs.length + r.remaining using Nat.strong_induction_on generalizing s r with
  | _ n ih =>
    by_cases h0 : r.remaining = 0
    · obtain ⟨t, ht, hinflight, hdone, hcmdcnt, -⟩ := step_due_completes hs hq h0
      exact ⟨1, t, by omega, (run_one s).trans ht, hinflight, hdone, hcmdcnt⟩
    · obtain ⟨r', hq', hcmdcnt, hin', hlt⟩ := advance_nearer hq h0 hin
      have hstep : step s = .next s.advance := by simp only [step, dueWord_of_remaining hq h0]
      obtain ⟨k, t, hk, hrun, hinflight, hdone, hcount⟩ :=
        ih _ (hn ▸ hlt) s.advance r' (everyStepKeepsTheInvariant _ _ hs hstep) hq' hin' rfl
      exact ⟨k + 1, t, by omega, (run_succ hstep k).trans hrun, hinflight, hdone, hcount.trans (by rw [hcmdcnt])⟩

/-! ### Operations the field lacks -/

theorem exec_of_lacks {i : Instr} {s : State} (hop : s.field.hasOp i.op = false) :
    ∃ t, exec i s = .next t ∧ RefusedWith s t .notApplicable := by
  rcases exec_cases i s with ⟨hhas, -⟩ | ⟨-, heq⟩
  · exact absurd hhas (by simp [hop])
  · exact ⟨_, heq, commandError_spec s _⟩

theorem sqrtClass_of_mod_eight_eq_one {f : Field} (hclass : f.p % 8 = 1) : f.sqrtClass = .neither := by
  rw [Field.sqrtClass, if_neg (by omega), if_neg (by omega)]

theorem sqrtClass_ne_class1 {f : Field} (hclass : f.p % 4 = 3 ∨ f.p % 8 = 1) : f.sqrtClass ≠ .class1 := by
  obtain hclass | hclass := hclass
  · simp [sqrtClass_of_mod_four hclass]
  · simp [sqrtClass_of_mod_eight_eq_one hclass]

/-- Every row of the table has a square-root formula, and two rows have the quartic symbol (00_scope.md R10). -/
theorem sqrtClass_table (row : FieldId) :
    (Field.table row).sqrtClass = if row = .m221 ∨ row = .m511 then .class1 else .class0 := by
  cases row with
  | e130 => exact sqrtClass_e130
  | m221 => exact sqrtClass_m221
  | curve41417 => exact sqrtClass_curve41417
  | m511 => exact sqrtClass_m511
  | e521 => exact sqrtClass_e521

/-- The operations that some row of the table lacks (30_encoding.md R108). -/
theorem hasOp_table_eq_false_iff (row : FieldId) (op : Op) :
    (Field.table row).hasOp op = false ↔ op = .legq ∧ (row = .e130 ∨ row = .curve41417 ∨ row = .e521) := by
  cases op with
  | legq | sqrt | isqrt =>
    rw [Field.hasOp, sqrtClass_table]
    cases row <;> decide
  | _ => simp [Field.hasOp]

/-- Settles O13: the class of the field decides which operations it lacks, and `exec` refuses these. -/
theorem missingOperationIsNotApplicable : Obligations.MissingOperationIsNotApplicable := by
  refine ⟨hasOp_table_eq_false_iff, fun s vd va => ⟨fun hclass => ?_, fun hclass => exec_of_lacks ?_⟩⟩
  · have hneither := sqrtClass_of_mod_eight_eq_one hclass
    exact ⟨exec_of_lacks (by simp [Instr.op, Field.hasOp, hneither]),
      exec_of_lacks (by simp [Instr.op, Field.hasOp, hneither])⟩
  · simp [Instr.op, Field.hasOp, sqrtClass_ne_class1 hclass]

/-! ### Reset -/

/-- Settles O21: both events are `hardReset`, which keeps FIELD and the model's own record of the host. -/
theorem softResetAndRstAbandonTheCommand : Obligations.SoftResetAndRstAbandonTheCommand := by
  intro s d rest hdue hsrst hin
  have hreset : step s = .next ({ s with inputs := rest } : State).hardReset := by
    rcases hin with hin | hin
    · rw [step_event hdue hin, State.event]
    · rw [step_event hdue hin, event_write_ctrl, writeCtrl_eq_hardReset _ hsrst]
  exact ⟨_, hreset⟩

end Sys2Proof.Machine
end

section
/-! PROOFS. Transfer, compare and select (47_transfer_compare.md): what MOV, LDI and ABS store, the scalar results of
the comparisons and bit tests with their `N` forms for normalized registers, and the masks with the branch-free selects
made of them. -/

namespace Sys2Proof.Machine

/-! ### MOV and LDI -/

/-- Settles O54: MOV completes with its source, LDI with `canon` of the immediate's representative in `[0, p)`. -/
theorem movCopiesAndLdiLoads : Obligations.MovCopiesAndLdiLoads := by
  intro s vd va imm h
  have hp : (0 : Int) < s.field.p := by exact_mod_cast shape_p_pos h
  have hcast : ((imm.toInt % s.field.p).toNat : Int) = imm.toInt % s.field.p :=
    Int.toNat_of_nonneg (Int.emod_nonneg _ hp.ne')
  have hlt : (imm.toInt % s.field.p).toNat < s.field.p := by
    have := Int.emod_lt_of_pos imm.toInt hp
    omega
  exact ⟨⟨_, rfl, completeReg_spec _ _ _⟩, _, canon s.field (imm.toInt % s.field.p).toNat, rfl,
    completeReg_spec _ _ _, ⟨_, hlt, rfl⟩, (val_canon h (lt_two_pow_n hlt)).trans hcast⟩

/-! ### EQ and EQN -/

theorem boolWord_of_iff {b : Bool} {P : Prop} [Decidable P] (h : b = true ↔ P) : boolWord b = if P then 1 else 0 :=
  if_congr h rfl rfl

theorem boolWord_of_true {b : Bool} (h : b = true) : boolWord b = 1 := if_pos h

theorem boolWord_of_not {b : Bool} (h : ¬b = true) : boolWord b = 0 := if_neg h

theorem modp_eq_iff {f : Field} (hp : 0 < f.p) (a b : DigitVec) :
    modp f a = modp f b ↔ val f a % f.p = val f b % f.p := by
  rw [← modp_cast hp, ← modp_cast hp, Nat.cast_inj]

theorem sameDigits_iff (f : Field) (a b : DigitVec) :
    sameDigits f a b = true ↔ ∀ j, j < f.K → digit a j = digit b j := by
  simp [sameDigits]

theorem length_of_normalized {f : Field} {v : DigitVec} (hv : Normalized f v) : v.length = f.K := by
  obtain ⟨r, -, rfl⟩ := hv
  exact length_canon f r

/-- Normalized vectors are the same words exactly when they represent the same element (R253). -/
theorem sameDigits_iff_modp_eq {f : Field} (h : f.shapeOk = true) {a b : DigitVec} (ha : Normalized f a)
    (hb : Normalized f b) : sameDigits f a b = true ↔ modp f a = modp f b := by
  rw [sameDigits_iff]
  constructor
  · intro hsame
    rw [eq_of_digits (length_of_normalized ha) (length_of_normalized hb) hsame]
  · intro heq
    rw [← (normalized_iff h a).1 ha, ← (normalized_iff h b).1 hb, heq]
    exact fun _ _ => rfl

/-- Settles O55: each command's one result is the truth value of its comparison. -/
theorem eqComparesElementsAndEqnWords : Obligations.EqComparesElementsAndEqnWords := by
  intro s va vb h
  have hmodp := modp_eq_iff (shape_p_pos h) (s.sourceA va) (s.sourceB vb)
  have hwords := sameDigits_iff s.field (s.sourceA va) (s.sourceB vb)
  refine ⟨_, _, _, _, rfl, completeSres_spec _ _, rfl, completeSres_spec _ _,
    boolWord_of_iff (beq_iff_eq.trans hmodp), fun hsame => boolWord_of_true (hwords.2 hsame), ?_, fun ha hb => ?_⟩
  · rintro ⟨j, hj, hne⟩
    exact boolWord_of_not fun hsame => hne (hwords.1 hsame j hj)
  · exact congrArg boolWord (Bool.eq_iff_iff.2 (beq_iff_eq.trans (sameDigits_iff_modp_eq h ha hb).symm))

/-! ### SIGN and SIGNN -/

theorem boolWord_eq_wordOf (b : Bool) : boolWord b = wordOf (if b then 1 else 0) := by
  cases b <;> rfl

theorem p_odd {f : Field} (h : f.Admissible) : f.p % 2 = 1 := by
  have := two_lt_p h.1
  exact h.2.eq_two_or_odd.resolve_left (by omega)

/-- For a normalized register the carry-out is the sign (R255): `r + (p-1)/2 + c` reaches `2^n = p + c` exactly when `r`
is above `(p-1)/2`. -/
theorem signCarry_of_normalized {f : Field} (h : f.Admissible) {v : DigitVec} (hv : Normalized f v) :
    signCarry f v = if signBit f (modp f v) then 1 else 0 := by
  obtain ⟨r, hr, rfl⟩ := hv
  have hpow := p_add_c h.1
  have hodd := p_odd h
  have hcarry : signCarry f (canon f r) = ((r + ((f.p - 1) / 2 + f.c)) / 2 ^ f.n : Nat) := by
    rw [signCarry, val_canon h.1 (lt_two_pow_n hr), Field.signConst]
    push_cast
    rfl
  rw [hcarry, modp_canon h.1 hr, signBit, ← hpow]
  by_cases hpos : (f.p - 1) / 2 < r
  · rw [decide_eq_true hpos, if_pos rfl, Nat.div_eq_of_lt_le (k := 1) (by omega) (by omega), Nat.cast_one]
  · rw [decide_eq_false hpos, if_neg Bool.false_ne_true, Nat.div_eq_of_lt (by omega), Nat.cast_zero]

/-- Settles O56: SIGN writes its comparison and SIGNN its carry-out, which agree by `signCarry_of_normalized`. -/
theorem signAndItsCarryOut : Obligations.SignAndItsCarryOut := by
  intro s va h
  refine ⟨_, _, _, _, rfl, completeSres_spec _ _, rfl, completeSres_spec _ _, boolWord_of_iff decide_eq_true_iff, rfl,
    fun hnorm => ?_⟩
  rw [signCarry_of_normalized h hnorm, boolWord_eq_wordOf]

/-! ### BIT and BITN -/

/-- BIT tests the bit by its value (R256). -/
theorem valueBit_iff (f : Field) (v : DigitVec) (i : Nat) :
    valueBit f v i = true ↔ i < f.n ∧ modp f v / 2 ^ i % 2 = 1 := by
  simp only [valueBit, Nat.testBit_eq_decide_div_mod_eq, Bool.and_eq_true, decide_eq_true_eq]

theorem storedBit_eq_testBit (f : Field) (v : DigitVec) (i : Nat) :
    storedBit f v i = (digit v (i / f.W)).toNat.testBit (i % f.W) := by
  rw [storedBit, ← Nat.mod_eq_sub]
  rfl

/-- BITN tests bit `i mod W` of digit `i / W` (R257). -/
theorem digitBit_iff (f : Field) (v : DigitVec) (i : Nat) :
    digitBit f v i = true ↔ i < f.n ∧ (digit v (i / f.W)).toNat / 2 ^ (i % f.W) % 2 = 1 := by
  simp only [digitBit, storedBit_eq_testBit, Nat.testBit_eq_decide_div_mod_eq, Bool.and_eq_true, decide_eq_true_eq]

/-- The digits of `canon(r)` hold the bits of `r` in order (R257). -/
theorem storedBit_canon {f : Field} (h : f.shapeOk = true) {r : Nat} (hr : r < 2 ^ f.n) {i : Nat} (hi : i < f.n) :
    storedBit f (canon f r) i = r.testBit i := by
  obtain ⟨hn, hH, hHW, -⟩ := (shapeOk_iff f).1 h
  have hW : 0 < f.W := by omega
  have hplace : i % f.W + f.W * (i / f.W) = i := Nat.mod_add_div i f.W
  have hbit : i % f.W < f.W := Nat.mod_lt i hW
  have hj : i / f.W < f.K := by
    have hsucc : f.W * f.K = f.W * (f.K - 1) + f.W := by
      rw [← Nat.mul_succ, Nat.succ_eq_add_one, Nat.sub_add_cancel (shape_K_pos h)]
    exact Nat.div_lt_of_lt_mul (by omega)
  rw [storedBit_eq_testBit]
  rcases Nat.lt_or_ge (i / f.W) (f.K - 1) with hlow | htop
  · rw [toNat_digit_canon_low h hlow, Nat.testBit_mod_two_pow, decide_eq_true hbit, Bool.true_and,
      Nat.testBit_div_two_pow, hplace]
  · have hdigit : i / f.W = f.K - 1 := by omega
    rw [hdigit] at hplace ⊢
    rw [toNat_digit_canon_top h hr, Nat.testBit_div_two_pow, hplace]

theorem digitBit_of_normalized {f : Field} (h : f.shapeOk = true) {v : DigitVec} (hv : Normalized f v) (i : Nat) :
    digitBit f v i = valueBit f v i := by
  obtain ⟨r, hr, rfl⟩ := hv
  rw [digitBit, valueBit, modp_canon h hr]
  by_cases hi : i < f.n
  · rw [storedBit_canon h (lt_two_pow_n hr) hi]
  · rw [decide_eq_false hi, Bool.false_and, Bool.false_and]

/-- Settles O57: each command writes the truth value of its bit, and `canon` stores the bits in order. -/
theorem bitTestsReadTheBit : Obligations.BitTestsReadTheBit := by
  intro s va imm h
  exact ⟨_, _, _, _, rfl, completeSres_spec _ _, rfl, completeSres_spec _ _, boolWord_of_iff (valueBit_iff _ _ _),
    boolWord_of_iff (digitBit_iff _ _ _), fun hnorm => congrArg boolWord (digitBit_of_normalized h hnorm _)⟩

/-! ### ABS -/

theorem absV_of_le {f : Field} {a : Nat} (h : a ≤ (f.p - 1) / 2) : absV f a = a := if_pos h

theorem absV_of_gt {f : Field} {a : Nat} (h : (f.p - 1) / 2 < a) : absV f a = f.p - a := if_neg (not_le.2 h)

/-- ABS's value has SIGN 0 (R258): `p` is odd, so one of `a` and `p - a` is at most `(p-1)/2`. -/
theorem absV_le {f : Field} (h : f.Admissible) (a : Nat) : absV f a ≤ (f.p - 1) / 2 := by
  have := p_odd h
  unfold absV
  split <;> omega

theorem absV_lt {f : Field} (h : f.Admissible) (a : Nat) : absV f a < f.p := by
  have := absV_le h a
  have := two_lt_p h.1
  omega

/-- MULS by -1 negates a nonzero element (R263). -/
theorem modp_mulOut_neg_one {f : Field} (h : f.shapeOk = true) {v : DigitVec} (h0 : 0 < modp f v) :
    modp f (mulOut f (val f v * -1)) = f.p - modp f v := by
  have hlt := modp_lt (shape_p_pos h) v
  have hcast : (modp f (mulOut f (val f v * -1)) : Int) = (f.p - modp f v : Nat) := by
    rw [modp_mulOut_val_mul h, mul_neg_one, ← Int.add_emod_right, Nat.cast_sub hlt.le, neg_add_eq_sub]
    exact Int.emod_eq_of_lt (by omega) (by omega)
  exact_mod_cast hcast

/-- Settles O58: ABS completes with `canon` of the representative SIGN calls positive, `p - a` being the element of
MULS by -1. -/
theorem absGivesThePositiveRepresentative : Obligations.AbsGivesThePositiveRepresentative := by
  rintro s vd va a h rfl
  have hlt := absV_lt h (modp s.field (s.sourceA va))
  refine ⟨_, canon s.field (absV s.field (modp s.field (s.sourceA va))), rfl, completeReg_spec _ _ _, ⟨_, hlt, rfl⟩, ?_⟩
  rw [modp_canon h.1 hlt]
  refine ⟨absV_le h _, absV_of_le, fun hneg => ⟨absV_of_gt hneg, ?_⟩⟩
  rw [absV_of_gt hneg]
  exact (modp_mulOut_neg_one h.1 (Nat.zero_lt_of_lt hneg)).symm

/-! ### MASK, MASKS and OR -/

/-- A mask bit of 1 keeps every digit (R259, R260). -/
theorem digit_maskVec_true {f : Field} (v : DigitVec) {j : Nat} (hj : j < f.K) :
    digit (maskVec f v true) j = digit v j := by
  rw [maskVec, digit_build _ hj, maskWord, if_pos rfl, BitVec.and_allOnes]

/-- A mask bit of 0 clears every digit (R259, R260). -/
theorem maskVec_false (f : Field) (v : DigitVec) : maskVec f v false = canon f 0 := by
  simp [maskVec, build, maskWord, canon_zero]

theorem digit_orVec {f : Field} (a b : DigitVec) {j : Nat} (hj : j < f.K) :
    digit (orVec f a b) j = digit a j ||| digit b j := digit_build _ hj

/-- Settles O59: each command completes with the mask of its source by its mask bit, or with the OR of its sources. -/
theorem masksSelectAndOrMerges : Obligations.MasksSelectAndOrMerges := by
  intro s vd va vb
  refine ⟨⟨_, maskVec s.field (s.sourceA va) true, rfl, completeReg_spec _ _ _, length_maskVec _ _ _,
      fun j => digit_maskVec_true _⟩,
    ⟨_, maskVec s.field (s.sourceA va) false, rfl, completeReg_spec _ _ _, maskVec_false _ _⟩,
    ⟨_, _, rfl, completeReg_spec _ _ _, length_maskVec _ _ _, fun hset j hj => ?_, fun hclear => ?_⟩,
    ⟨_, _, rfl, completeReg_spec _ _ _, length_orVec _ _ _, fun j => digit_orVec _ _⟩⟩
  · rw [hset, digit_maskVec_true _ hj]
  · rw [hclear, maskVec_false]

/-! ### Branch-free select -/

theorem maskVec_true {f : Field} {v : DigitVec} (hv : v.length = f.K) : maskVec f v true = v :=
  eq_of_digits (length_maskVec _ _ _) hv fun _ => digit_maskVec_true v

theorem modp_maskVec {f : Field} (h : f.shapeOk = true) (v : DigitVec) (k : Bool) :
    modp f (maskVec f v k) = if k then modp f v else 0 := by
  cases k with
  | false => rw [maskVec_false, modp_canon_zero h, if_neg Bool.false_ne_true]
  | true => rw [modp, val, valLow_congr fun _ => digit_maskVec_true v, if_pos rfl, modp, val]

/-- `b + (k ? a - b : 0)` is the field element `a` or `b` (R262 (a)). -/
theorem modp_addCore_select {f : Field} (h : AdderFits f) (a b : DigitVec) (k : Bool) :
    modp f (addCore f b (maskVec f (addCore f a b (-1)) k) 1) = modp f (if k then a else b) := by
  have hp := shape_p_pos h.shape
  have hreduced (v : DigitVec) : (modp f v : Int) % f.p = modp f v := by
    rw [modp_cast hp, Int.emod_emod]
  have hcast : (modp f (addCore f b (maskVec f (addCore f a b (-1)) k) 1) : Int) = modp f (if k then a else b) := by
    rw [modp_addCore h _ _ (.inl rfl), modp_maskVec h.shape, one_mul]
    cases k with
    | false => simp [hreduced]
    | true =>
      rw [if_pos rfl, if_pos rfl, modp_addCore h _ _ (.inr rfl), Int.add_emod_emod, neg_one_mul, ← sub_eq_add_neg,
        add_sub_cancel, hreduced]
  exact_mod_cast hcast

/-- The OR of `a` masked by `k` and `b` masked by `1 - k` (R262 (b)). -/
theorem orVec_maskVec_select {f : Field} {a b : DigitVec} (ha : a.length = f.K) (hb : b.length = f.K) (k : Bool) :
    orVec f (maskVec f a k) (maskVec f b !k) = if k then a else b := by
  have hlen : (if k then a else b).length = f.K := by split <;> assumption
  refine eq_of_digits (length_orVec _ _ _) hlen fun j hj => ?_
  rw [digit_orVec _ _ hj]
  cases k with
  | false =>
    rw [Bool.not_false, maskVec_false, maskVec_true hb, canon_zero, digit_replicate_zero hj]
    exact BitVec.zero_or
  | true =>
    rw [Bool.not_true, maskVec_false, maskVec_true ha, canon_zero, digit_replicate_zero hj]
    exact BitVec.or_zero

/-- SUB where no command is in flight: its sources are the registers as they are now. -/
theorem exec_sub_idle {s : State} (hidle : s.inflight = none) (vd va vb : Reg) :
    exec (.sub vd va vb) s = .next (s.completeReg vd (addCore s.field (s.reg va) (s.reg vb) (-1))) := by
  rw [← sourceA_idle hidle va, ← sourceB_idle hidle vb]
  rfl

/-- ADD where no command is in flight, as `exec_sub_idle`. -/
theorem exec_add_idle {s : State} (hidle : s.inflight = none) (vd va vb : Reg) :
    exec (.add vd va vb) s = .next (s.completeReg vd (addCore s.field (s.reg va) (s.reg vb) 1)) := by
  rw [← sourceA_idle hidle va, ← sourceB_idle hidle vb]
  rfl

/-- MASKS where no command is in flight: its mask bit is SRES bit 0 as it is now. -/
theorem exec_masks_idle {s : State} (hidle : s.inflight = none) (vd va : Reg) :
    exec (.masks vd va) s = .next (s.completeReg vd (maskVec s.field (s.reg va) (s.sres.getLsbD 0))) := by
  rw [← sourceA_idle hidle va, ← sourceSres0_idle hidle]
  rfl

/-- MASK by a bit where no command is in flight, as `exec_sub_idle`. -/
theorem exec_mask_idle {s : State} (hidle : s.inflight = none) (vd va : Reg) (k : Bool) :
    exec (.mask vd va (if k then 1 else 0)) s = .next (s.completeReg vd (maskVec s.field (s.reg va) k)) := by
  rw [← sourceA_idle hidle va]
  cases k <;> rfl

/-- OR where no command is in flight, as `exec_sub_idle`. -/
theorem exec_or_idle {s : State} (hidle : s.inflight = none) (vd va vb : Reg) :
    exec (.or vd va vb) s = .next (s.completeReg vd (orVec s.field (s.reg va) (s.reg vb))) := by
  rw [← sourceA_idle hidle va, ← sourceB_idle hidle vb]
  rfl

/-- Settles O60: the commands run one after the other, on registers that the ones before have left alone, and give the
selects on digit vectors. -/
theorem branchFreeSelect : Obligations.BranchFreeSelect := by
  refine ⟨fun row s va vb vt vd hrow hidle hb => ?_, fun s va vb vt vu vd k hshaped hidle hb hu => ?_⟩
  · refine ⟨_, _, _, exec_sub_idle hidle vt va vb, exec_masks_idle rfl vt vt, exec_add_idle rfl vd vb vt, ?_⟩
    have hselect := modp_addCore_select (hrow ▸ adderFits_table row : AdderFits s.field) (s.reg va) (s.reg vb)
      (s.sres.getLsbD 0)
    simpa [reg_completeReg_ne _ _ hb.symm] using hselect
  · have hmask : (if k then 0 else 1 : Imm) = if !k then 1 else 0 := by cases k <;> rfl
    rw [hmask]
    refine ⟨_, _, _, exec_mask_idle hidle vt va k, exec_mask_idle rfl vu vb !k, exec_or_idle rfl vd vt vu, ?_⟩
    have hselect := orVec_maskVec_select (hshaped.1 va) (hshaped.1 vb) k
    simpa [reg_completeReg_ne _ _ hb.symm, reg_completeReg_ne _ _ hu] using hselect

end Sys2Proof.Machine
end
